-- ==== Sys2Proof/Word.lean ====
section
/-! DEFINITION. The word types of the block and its plainest arithmetic (00_scope.md R6, R7, R9). -/

namespace Sys2Proof

/-- A word of a packed bit vector, an operand register or the result register: 64 bits (R6, R18, R19). -/
abbrev Word := BitVec 64

/-- A command word, and the width of `CMD`, `STATUS` and `ERR`: 32 bits (R24 to R26, R50). -/
abbrev Word32 := BitVec 32

/-- One byte of a stored file (R36). -/
abbrev Byte := BitVec 8

/-- The alphabet element: 8 bits, unsigned, ordered by its numeric value (R15). -/
abbrev Symbol := BitVec 8

/-- A path of the file storage: a 64-bit identifier (R23). -/
abbrev Path := BitVec 64

/-- The content of one stored file (R23). -/
abbrev File := List Byte

/-- `⌈n/64⌉`, written `(n + 63) div 64` by R9. -/
def ceil64 (n : Nat) : Nat := (n + 63) / 64

end Sys2Proof
end

