-- ==== Sys2Proof/Config.lean ====
section
/-! DEFINITION. What the source fixes, what an instance of the hardware fixes, and the one free value
(00_scope.md R6, R7; 92_eei_decisions.md D6, D7, D22). -/

namespace Sys2Proof

/-- Bytes of a file before its pairs: the two header u64s (R6, R59). -/
def headerBytes : Nat := 16

/-- Bytes of one pair in a file: symbol then count, no padding (R7, R60). -/
def pairBytes : Nat := 5

/-- Bytes of one payload word, and of one header integer, in a file (R59, R61). -/
def wordBytes : Nat := 8

/-- The OPEN capacities of R7 and D7, the arguments a model takes.
`none` in a field of type `Option Nat` is the unbounded choice R7 allows; `CAP_IN` and `CAP_WORDS` have the upper
limits R83 and R68 lean on, so they are always numbers (assumption 18, DEDUCED). -/
structure Capacities where
  /-- `CAP_IN`: most symbols COMPRESS accepts. -/
  capIn    : Nat
  /-- `CAP_OUT`: most symbols DECOMPRESS produces. -/
  capOut   : Option Nat
  /-- `CAP_PAIRS`: most entries of `CT.freq`. -/
  capPairs : Option Nat
  /-- `CAP_WORDS`: most words of any bit vector. -/
  capWords : Nat
  /-- `CAP_FILE`: most bytes of a stored file. -/
  capFile  : Option Nat
deriving DecidableEq, Repr

/-- `n` is within a capacity; an unbounded capacity allows every `n`. -/
def allows (cap : Option Nat) (n : Nat) : Bool :=
  match cap with
  | none => true
  | some m => decide (n ≤ m)

/-- Every capacity as large as R7 lets it be (R129: then, with inputs within them, CapacityExceeded is never raised).
DESIGN CHOICE (assumption 1): the values State.reset takes; no statement rests on them. -/
def Capacities.largest : Capacities :=
  ⟨2 ^ 32 - 1, none, none, 2 ^ 58 - 1, none⟩

/-- The free value of R114 and U11: what `STORE[p]` holds after the `n`-th WriteFailed (absent, or any bytes).
It has no body: nothing can be proved of its values (assumption 4). -/
opaque Config.fileAfterFailedWrite : Nat → Option File

end Sys2Proof
end

