-- ==== Sys2Proof/Syntax.lean ====
section
/-! DEFINITION. The 18 commands (30_encoding.md R52; spec/opcode_table.json), one constructor per row.
A command word carries no register number and no immediate (R50), so no constructor has an argument. -/

namespace Sys2Proof

inductive Instr where
  | compress | decompress | save | load | isEmpty | isFull
  | pbvClear | pbvSize | pbvPushBit | pbvPushBits | pbvPushVec | pbvPop
  | pbvGet | pbvAt | pbvSet | pbvResize | pbvPopcount | pbvWord
deriving DecidableEq, Repr

/-- Which operand registers a command names, and whether it returns a value (the table of R51). -/
structure Signature where
  usesArg0  : Bool
  usesArg1  : Bool
  writesRes : Bool
deriving DecidableEq, Repr

/-- The operand columns of R51, row by row. -/
def Instr.signature : Instr → Signature
  | .compress    => ⟨false, false, false⟩
  | .decompress  => ⟨false, false, false⟩
  | .save        => ⟨true,  false, false⟩
  | .load        => ⟨true,  false, false⟩
  | .isEmpty     => ⟨false, false, true⟩
  | .isFull      => ⟨false, false, true⟩
  | .pbvClear    => ⟨false, false, false⟩
  | .pbvSize     => ⟨false, false, true⟩
  | .pbvPushBit  => ⟨true,  false, false⟩
  | .pbvPushBits => ⟨true,  true,  false⟩
  | .pbvPushVec  => ⟨false, false, false⟩
  | .pbvPop      => ⟨false, false, false⟩
  | .pbvGet      => ⟨true,  false, true⟩
  | .pbvAt       => ⟨true,  false, true⟩
  | .pbvSet      => ⟨true,  true,  false⟩
  | .pbvResize   => ⟨true,  false, false⟩
  | .pbvPopcount => ⟨false, false, true⟩
  | .pbvWord     => ⟨true,  false, true⟩

end Sys2Proof
end

