-- ==== Sys2Proof/WellFormed.lean ====
section
/-! DEFINITION. Well-formedness of what enters the machine: a command, a command word, the capacities of an instance. -/

namespace Sys2Proof

/-- A command has no operand field (R50), so each of the 18 is well formed as it stands. -/
def Instr.wf : Instr → Bool
  | .compress | .decompress | .save | .load | .isEmpty | .isFull
  | .pbvClear | .pbvSize | .pbvPushBit | .pbvPushBits | .pbvPushVec | .pbvPop
  | .pbvGet | .pbvAt | .pbvSet | .pbvResize | .pbvPopcount | .pbvWord => true

/-- R50: the reserved field, bits 31:8, must be zero. -/
def reservedZero (w : Word32) : Bool := w.extractLsb' 8 24 == 0

/-- R53: the opcodes of the map are 0x01 to 0x06 and 0x10 to 0x1B. -/
def opcodeListed (w : Word32) : Bool :=
  let op := (w.extractLsb' 0 8).toNat
  (decide (0x01 ≤ op) && decide (op ≤ 0x06)) || (decide (0x10 ≤ op) && decide (op ≤ 0x1B))

/-- A legal command word (R53). -/
def commandWordWf (w : Word32) : Bool := reservedZero w && opcodeListed w

/-- R7: `CAP_IN ≤ 2^32 − 1`. -/
def Capacities.capInWf (c : Capacities) : Bool := decide (c.capIn ≤ 2 ^ 32 - 1)

/-- R7: `CAP_PAIRS ≥ 256`. -/
def Capacities.capPairsWf (c : Capacities) : Bool := allows c.capPairs 256

/-- R7: `1 ≤ CAP_WORDS ≤ 2^58 − 1`. -/
def Capacities.capWordsWf (c : Capacities) : Bool := decide (1 ≤ c.capWords) && decide (c.capWords ≤ 2 ^ 58 - 1)

/-- R7: `CAP_FILE ≥ 16`. -/
def Capacities.capFileWf (c : Capacities) : Bool := allows c.capFile 16

/-- Every range of R7 holds. -/
def Capacities.wf (c : Capacities) : Bool :=
  c.capInWf && c.capPairsWf && c.capWordsWf && c.capFileWf

end Sys2Proof
end

