-- ==== Sys2Proof/Decode.lean ====
section
/-! DEFINITION. The total decoder of command words (30_encoding.md R54), the encoder (R52), and the reading of a table row. -/

namespace Sys2Proof

/-- Why a word is no command (R53). Safe: the machine raises IllegalCommand on each (R128). -/
inductive Illegal where
  /-- `rsv`, bits 31:8, is not zero. -/
  | reservedBitsSet (rsv : BitVec 24)
  /-- `opcode` is 0x00, 0x07 to 0x0F or 0x1C to 0xFF. -/
  | unlistedOpcode (opcode : BitVec 8)
deriving DecidableEq, Repr

/-- `wd[7:0]` (R50). -/
def opcodeField (wd : Word32) : BitVec 8 := wd.extractLsb' 0 8

/-- `wd[31:8]` (R50). -/
def reservedField (wd : Word32) : BitVec 24 := wd.extractLsb' 8 24

/-- The opcode map (R52, R54). -/
def decodeOpcode (op : BitVec 8) : Except Illegal Instr :=
  match op.toNat with
  | 0x01 => .ok .compress
  | 0x02 => .ok .decompress
  | 0x03 => .ok .save
  | 0x04 => .ok .load
  | 0x05 => .ok .isEmpty
  | 0x06 => .ok .isFull
  | 0x10 => .ok .pbvClear
  | 0x11 => .ok .pbvSize
  | 0x12 => .ok .pbvPushBit
  | 0x13 => .ok .pbvPushBits
  | 0x14 => .ok .pbvPushVec
  | 0x15 => .ok .pbvPop
  | 0x16 => .ok .pbvGet
  | 0x17 => .ok .pbvAt
  | 0x18 => .ok .pbvSet
  | 0x19 => .ok .pbvResize
  | 0x1A => .ok .pbvPopcount
  | 0x1B => .ok .pbvWord
  | _ => .error (.unlistedOpcode op)

/-- `decode(wd)` of R54: the reserved field first, then the opcode. -/
def decode (wd : Word32) : Except Illegal Instr :=
  if reservedField wd = 0 then decodeOpcode (opcodeField wd)
  else .error (.reservedBitsSet (reservedField wd))

/-- The match word of each command (R52). -/
def encode : Instr → Word32
  | .compress    => 0x00000001
  | .decompress  => 0x00000002
  | .save        => 0x00000003
  | .load        => 0x00000004
  | .isEmpty     => 0x00000005
  | .isFull      => 0x00000006
  | .pbvClear    => 0x00000010
  | .pbvSize     => 0x00000011
  | .pbvPushBit  => 0x00000012
  | .pbvPushBits => 0x00000013
  | .pbvPushVec  => 0x00000014
  | .pbvPop      => 0x00000015
  | .pbvGet      => 0x00000016
  | .pbvAt       => 0x00000017
  | .pbvSet      => 0x00000018
  | .pbvResize   => 0x00000019
  | .pbvPopcount => 0x0000001A
  | .pbvWord     => 0x0000001B

/-- The 32-bit command word a table row's bits stand for: a command is always one 32-bit word (R50), and the bits
the row does not give are zero. -/
def tableWord (nbits w : Nat) : Word32 := BitVec.ofNat 32 (w % 2 ^ nbits)

/-- The command the decoder reads from a table row's word, none where it answers illegal. -/
def decodeTableWord (nbits w : Nat) : Option Instr :=
  match decode (tableWord nbits w) with
  | .ok i => some i
  | .error _ => none

end Sys2Proof
end

