-- ==== Sys2Proof/Machine/State.lean ====
section
/-! DEFINITION. The state of the block (10_state.md), the host's moves (60_exceptions.md R137), the ways a step can stop,
and the state after reset. All plain data. -/

namespace Sys2Proof.Machine

/-- FrequencyEntry: a symbol and its unsigned 32-bit count (R15). -/
structure FreqEntry where
  sym   : Symbol
  count : BitVec 32
deriving DecidableEq, Repr

/-- A packed bit vector: its 64-bit words and the number of unused positions of the last word (R21). -/
structure Pbv where
  words    : List Word
  freeBits : Nat
deriving DecidableEq, Repr

/-- The empty vector: one zero word, freeBits 64 (R21, R67). -/
def Pbv.empty : Pbv := ⟨[0], 64⟩

/-- The container: its frequency list and its payload (R20). -/
structure Container where
  freq : List FreqEntry
  bits : Pbv
deriving DecidableEq, Repr

/-- The empty container (R20). -/
def Container.empty : Container := ⟨[], Pbv.empty⟩

/-- A tree node with the nodes it owns (R28): a leaf has a symbol and a count and no children; an internal node has a
summed count, a key and exactly two children. `SUM_W` is a width that never wraps, so the sum is a `Nat` (assumption 7). -/
inductive Tree where
  | leaf (sym : Symbol) (count : BitVec 32)
  | node (count : Nat) (key : Symbol) (left right : Tree)
deriving DecidableEq, Repr

/-- One member of the priority structure: a node and its number, the last tie-break (R29, R87). -/
structure PqNode where
  index : Nat
  node  : Tree
deriving DecidableEq, Repr

/-- The state of the decode walk (R27, R103). -/
inductive Walk where
  | atRoot
  | atInternal (node : Tree)
deriving DecidableEq, Repr

/-- The dictionary: a finite map from symbol to code, a packed bit vector value (R30). -/
abbrev Dict := List (Symbol × Pbv)

/-- The call-scoped working state of COMPRESS and DECOMPRESS (R27, R28 to R31). -/
structure Call where
  /-- `FT` -/
  ft         : List FreqEntry
  /-- `PQ` -/
  pq         : List PqNode
  /-- `root`, which owns every node of `ARENA` -/
  root       : Option Tree
  /-- `DICT` -/
  dict       : Dict
  /-- `PREFIX` -/
  prefixBits : Pbv
  /-- index of the next symbol of `IN` -/
  ipos       : Nat
  /-- index of the next payload bit -/
  bpos       : Nat
  /-- where the decode walk stands -/
  cur        : Walk
deriving DecidableEq, Repr

/-- The initial values of the call-scoped state in a command (R27). -/
def Call.initial : Call := ⟨[], [], none, [], Pbv.empty, 0, 0, .atRoot⟩

/-- The eight values of `ERR` (R121, R140). -/
inductive ErrKind where
  | none | notFound | truncatedCorrupt | writeFailed | indexOutOfRange | underflow | illegalCommand | capacityExceeded
deriving DecidableEq, Repr

/-- `SEQ` (R27). -/
inductive Seq where
  | idle | run
deriving DecidableEq, Repr

/-- What the host may read between commands (R34). -/
inductive Readable where
  | cmd | status | err | arg0 | arg1 | res | inBuf | outBuf | ctFreq | ctBits | bv
  | file (p : Path)
deriving DecidableEq, Repr

/-- The value a host read returns. -/
inductive HostValue where
  | word32 (v : Word32)
  | word64 (v : Word)
  | symbols (v : List Symbol)
  | entries (v : List FreqEntry)
  | vector (v : Pbv)
  | file (v : Option File)
deriving DecidableEq, Repr

/-- One move of the host or of the platform between commands (R34, R137, R138, R141). -/
inductive HostMove where
  /-- issues the command the word encodes (R24) -/
  | writeCmd (w : Word32)
  | writeStatus (v : Word32)
  | writeErr (v : Word32)
  | writeArg0 (v : Word)
  | writeArg1 (v : Word)
  | writeRes (v : Word)
  /-- `IN` whole (R16) -/
  | writeIn (v : List Symbol)
  /-- one symbol of `IN` (R16: "whole or in part") -/
  | writeInAt (i : Nat) (v : Symbol)
  | writeOut (v : List Symbol)
  | writeCt (v : Container)
  | writeBv (v : Pbv)
  | read (what : Readable)
  /-- create or replace a file of `STORE` (R137) -/
  | putFile (p : Path) (f : File)
  | removeFile (p : Path)
  /-- the platform's draw for the SAVE commands that follow (R138 c; assumption 3) -/
  | drawWrOk (ok : Bool)
  /-- the reset signal (R141) -/
  | reset
deriving DecidableEq, Repr

/-- The state: the rows of R14, and the model's own fields `caps`, `wrOk`, `failedWrites`, `pending`
(assumptions 1 to 4). `STATUS` is computed (Machine/Flags.lean): R25 calls it a copy. -/
structure State where
  /-- `IN` -/
  inBuf  : List Symbol
  /-- `OUT` -/
  outBuf : List Symbol
  arg0   : Word
  arg1   : Word
  res    : Word
  /-- `CT` -/
  ct     : Container
  /-- `BV` -/
  bv     : Pbv
  /-- `STORE`: (path, content) pairs, paths strictly rising; an unlisted path is absent (R23) -/
  store  : List (Nat × File)
  cmd    : Word32
  err    : ErrKind
  seq    : Seq
  /-- the call-scoped state: it does not exist between commands (R31, R35) -/
  call   : Option Call
  /-- the instance's capacities -/
  caps   : Capacities
  /-- the draw `wr_ok` the platform answers a SAVE with -/
  wrOk   : Bool
  /-- how many SAVE commands have ended with WriteFailed: picks the next free value -/
  failedWrites : Nat
  /-- the host's moves still to come, the next one first -/
  pending : List HostMove
deriving DecidableEq, Repr

/-- Why the machine stops: the host broke a duty, and R137 says such a run is outside the spec. Each is safe:
the model goes no further where the spec says nothing. No command raises one. -/
inductive Fault where
  /-- a host move while `SEQ` = RUN (R137, R148); raised by a step; safe -/
  | moveWhileRunning
  /-- the host writes a symbol of `IN` at an index that names no element (R36); raised by the move writeInAt; safe -/
  | noSuchInElement
  /-- a file longer than `CAP_FILE` is put into `STORE` (R23, R143); raised by the move putFile; safe -/
  | fileTooLong
deriving DecidableEq, Repr

/-- What the model has no meaning for. Each is safe. The last three can not happen in any reachable state. -/
inductive Refusal where
  /-- exec's arm for an instruction without a meaning; safe -/
  | notModelled (mnemonic : String)
  /-- building a tree from an empty table, which R92 leaves undefined and rules out; COMPRESS, DECOMPRESS; safe -/
  | noTree
  /-- the dictionary holds no code for a symbol of `IN` (R100: it always does); COMPRESS; safe -/
  | noCode
  /-- the walk would read a child of a leaf (R147, U5); DECOMPRESS; safe -/
  | leafHasNoChild
deriving DecidableEq, Repr

/-- The state after reset (R35, R141), with no file in `STORE` (assumption 5) and the model's own fields at the values
of assumptions 1 to 4. -/
def State.reset : State where
  inBuf := []
  outBuf := []
  arg0 := 0
  arg1 := 0
  res := 0
  ct := Container.empty
  bv := Pbv.empty
  store := []
  cmd := 0
  err := .none
  seq := .idle
  call := none
  caps := Capacities.largest
  wrOk := true
  failedWrites := 0
  pending := []

end Sys2Proof.Machine
end

