-- ==== Sys2Proof/Machine/Ops.lean ====
section
/-! DEFINITION. The shared operations: ending a command (60_exceptions.md R123, R124), the file storage
(10_state.md R23), the file access primitives (20_memory.md R40), and little-endian integers (R38, R113). -/

namespace Sys2Proof.Machine

/-- The outcome of a command or of a step. -/
abbrev Result := Host.Outcome State Fault Refusal

/-! ## Ending a command -/

/-- `raise e` (R123): the code goes to `ERR`, the call-scoped state is discarded, `SEQ` is IDLE; nothing else changes.
This is the block's one way of taking an error; there is no return from it (R124). -/
def State.raise (s : State) (e : ErrKind) : State :=
  { s with err := e, seq := .idle, call := none }

/-- The normal end of a command: `ERR <- 0`, the call-scoped state is discarded (R31), `SEQ` is IDLE (R27). -/
def State.finish (s : State) : State :=
  { s with err := .none, seq := .idle, call := none }

/-- The `CMD` write sets RUN (R27) and is remembered (R24). -/
def State.issue (s : State) (w : Word32) : State :=
  { s with cmd := w, seq := .run }

/-- `RES <- v`. -/
def State.setRes (s : State) (v : Word) : State := { s with res := v }

/-- `CT` is replaced whole (R20). -/
def State.setCt (s : State) (c : Container) : State := { s with ct := c }

/-- `BV <- v`. -/
def State.setBv (s : State) (v : Pbv) : State := { s with bv := v }

/-- `OUT` is replaced whole (R17). -/
def State.setOut (s : State) (o : List Symbol) : State := { s with outBuf := o }

/-- The call-scoped state comes into being (R31). -/
def State.withCall (s : State) (c : Call) : State := { s with call := some c }

/-! ## The file storage -/

/-- The canonical form of `STORE`: paths strictly rising and below 2^64, so that equal maps are equal lists.
An unlisted path is absent, and no listed path is. -/
abbrev Memory.wf (st : List (Nat × File)) : Prop :=
  st.Pairwise (fun a b => a.1 < b.1) ∧ ∀ e ∈ st, e.1 < 2 ^ 64

/-- `STORE[p]`: absent, or the bytes (R23). `FileExists(p)` is `isSome` of it (R40). -/
def fileAt (st : List (Nat × File)) (p : Nat) : Option File :=
  match st with
  | [] => none
  | (q, f) :: rest => if p = q then some f else fileAt rest p

/-- The map with `p` absent. -/
def storeRemove (st : List (Nat × File)) (p : Nat) : List (Nat × File) :=
  match st with
  | [] => []
  | (q, f) :: rest => if p = q then rest else (q, f) :: storeRemove rest p

/-- The map with `p` holding `f`, in the canonical form. -/
def storePut (st : List (Nat × File)) (p : Nat) (f : File) : List (Nat × File) :=
  match st with
  | [] => [(p, f)]
  | (q, g) :: rest =>
    if p < q then (p, f) :: (q, g) :: rest
    else if p = q then (p, f) :: rest
    else (q, g) :: storePut rest p f

/-- `STORE[p] <- o`, where `o` may be "absent". -/
def storeAssign (st : List (Nat × File)) (p : Nat) (o : Option File) : List (Nat × File) :=
  match o with
  | none => storeRemove st p
  | some f => storePut st p f

/-- `STORE[p] <- o` on the state. -/
def State.setFile (s : State) (p : Path) (o : Option File) : State :=
  { s with store := storeAssign s.store p.toNat o }

/-- A file cut to what `CAP_FILE` allows (R23: a file has at most `CAP_FILE` bytes). -/
def clipFile (cap : Option Nat) (o : Option File) : Option File :=
  match cap, o with
  | some n, some f => some (f.take n)
  | none, some f => some f
  | _, none => none

/-! ## Little-endian integers and the file primitives -/

/-- `le(v, n)`: the `n` bytes of `v`, lowest first (R38, R113). -/
def leBytes (v n : Nat) : List Byte :=
  (List.range n).map fun j => BitVec.ofNat 8 (v / 256 ^ j)

/-- `Σ b[j] · 256^j` (R40). -/
def leValue (bs : List Byte) : Nat :=
  match bs with
  | [] => 0
  | b :: rest => b.toNat + 256 * leValue rest

/-- `MemRead(p, off, n)` on the file's bytes (R40), defined when `off + n ≤ FileSize`. -/
def memRead (f : File) (off n : Nat) : Nat := leValue ((f.drop off).take n)

/-- `MemWrite(p, off, n, v)` on the file's bytes (R40), for `off` at most the length: SAVE writes "from offset 0 upward
with no gap". -/
def memWrite (f : File) (off n v : Nat) : File :=
  f.take off ++ leBytes v n ++ f.drop (off + n)

end Sys2Proof.Machine
end

