-- ==== Sys2Proof/Machine/PackedBitVector.lean ====
section
/-! DEFINITION. The packed bit vector unit: the pure functions `pbv_*` of 40_packed_bit_vector.md, written from the
pseudocode. The functions keep the invariants of R21; on a value that breaks them, which no run holds, they are total
by assumption 12. -/

namespace Sys2Proof.Machine

/-! ## Positions of a word -/

/-- `w[p] <- b`. -/
def putBit (w : Word) (p : Nat) (b : Bool) : Word :=
  if b then w ||| BitVec.twoPow 64 p else w &&& ~~~(BitVec.twoPow 64 p)

/-- `w[k-1:0] <- 0`. -/
def zeroLow (w : Word) (k : Nat) : Word := (w >>> k) <<< k

/-- `w[n-1:0]`, zero-extended. -/
def lowBits (w : Word) (n : Nat) : Word := (w.setWidth n).setWidth 64

/-- The number of 1 bits of a word. -/
def onesIn (w : Word) : Nat := (List.range 64).countP fun p => w.getLsbD p

/-! ## Reading a vector -/

/-- `size = 64·len(words) − freeBits` (R21, R68). -/
def Pbv.size (v : Pbv) : Nat := 64 * v.words.length - v.freeBits

/-- `words[k]`. -/
def Pbv.wordAt (v : Pbv) (k : Nat) : Word := v.words.getD k 0

/-- `words[k] <- w`. -/
def Pbv.putWord (v : Pbv) (k : Nat) (w : Word) : Pbv := { v with words := v.words.set k w }

/-- Logical bit `i`: word `i div 64`, position `63 − (i mod 64)` (R58, R73). -/
def Pbv.getBit (v : Pbv) (i : Nat) : Bool := (v.wordAt (i / 64)).getLsbD (63 - i % 64)

/-- `bits(v)`: the bit sequence (R21, R65). -/
def Pbv.bits (v : Pbv) : List Bool := (List.range v.size).map v.getBit

/-- The number of words of the form with the fewest words (R143, "container canonical"). -/
def fewestWords (size : Nat) : Nat := max 1 (ceil64 size)

/-- Invariants 1, 2, 5 and 6 of R21; 3 and 4 define `size` and `bits`. Invariant 6 needs no clause of its own:
`freeBits = 64` says that the last word holds no bits. -/
abbrev Pbv.wf (v : Pbv) (capWords : Nat) : Prop :=
  1 ≤ v.words.length ∧ v.words.length ≤ capWords ∧ v.freeBits ≤ 64 ∧
    zeroLow (v.wordAt (v.words.length - 1)) v.freeBits = v.wordAt (v.words.length - 1)

/-- The form with the fewest words (R143). -/
abbrev Pbv.canonical (v : Pbv) : Prop := v.words.length = fewestWords v.size

/-! ## The functions -/

/-- `pbv_push_bit` (R69). -/
def pbvPushBit (v : Pbv) (b : Bool) : Pbv :=
  let v1 : Pbv := if v.freeBits = 0 then ⟨v.words ++ [0], 64⟩ else v
  let last := v1.words.length - 1
  { v1.putWord last (putBit (v1.wordAt last) (v1.freeBits - 1) b) with freeBits := v1.freeBits - 1 }

/-- `pbv_push_bits` (R70), for `1 ≤ n ≤ 64`: `x` is the low `n` bits of `w`. -/
def pbvPushBits (v : Pbv) (w : Word) (n : Nat) : Pbv :=
  let x := lowBits w n
  let last := v.words.length - 1
  let f := v.freeBits
  if n ≤ f then
    { v.putWord last (v.wordAt last ||| (x <<< (f - n))) with freeBits := f - n }
  else
    let r := n - f
    { words := (v.putWord last (v.wordAt last ||| (x >>> r))).words ++ [x <<< (64 - r)], freeBits := 64 - r }

/-- `pbv_push_vec` (R71): the full interior words of `o`, then its tail of `t` bits, right-aligned. -/
def pbvPushVec (v o : Pbv) : Pbv :=
  let last := o.words.length - 1
  let v1 := (o.words.take last).foldl (fun u w => pbvPushBits u w 64) v
  let t := 64 - o.freeBits
  if 0 < t then pbvPushBits v1 (o.wordAt last >>> o.freeBits) t else v1

/-- The words `pbv_push_vec` needs: `max(len(v.words), ceil64(size(v) + size(o)))` (R71). -/
def pushVecWords (v o : Pbv) : Nat := max v.words.length (ceil64 (v.size + o.size))

/-- `pbv_pop` after its check (R72): an already empty last word is dropped, then the last bit is freed and zeroed. -/
def pbvPopBit (v : Pbv) : Pbv :=
  let v1 : Pbv := if v.freeBits = 64 then ⟨v.words.dropLast, 0⟩ else v
  let last := v1.words.length - 1
  { v1.putWord last (putBit (v1.wordAt last) v1.freeBits false) with freeBits := v1.freeBits + 1 }

/-- `pbv_pop` (R72). -/
def pbvPop (v : Pbv) : Except ErrKind Pbv :=
  if v.size = 0 then .error .underflow else .ok (pbvPopBit v)

/-- `pbv_at` (R74); PBV_GET makes the same check (R73). -/
def pbvAt (v : Pbv) (i : Nat) : Except ErrKind Bool :=
  if v.size ≤ i then .error .indexOutOfRange else .ok (v.getBit i)

/-- `pbv_set` (R75). -/
def pbvSet (v : Pbv) (i : Nat) (b : Bool) : Except ErrKind Pbv :=
  if v.size ≤ i then .error .indexOutOfRange
  else .ok (v.putWord (i / 64) (putBit (v.wordAt (i / 64)) (63 - i % 64) b))

/-- `pbv_resize` (R76): truncate or extend with zero words, then zero the unused positions. -/
def pbvResize (capWords : Nat) (v : Pbv) (n : Nat) : Except ErrKind Pbv :=
  let l := fewestWords n
  if capWords < l then .error .capacityExceeded
  else
    let ws := v.words.take l ++ List.replicate (l - v.words.length) 0
    let free := 64 * l - n
    .ok ⟨ws.set (l - 1) (zeroLow (ws.getD (l - 1) 0) free), free⟩

/-- `pbv_popcount` (R77): over whole words, unused positions included. -/
def pbvPopcount (v : Pbv) : Nat := (v.words.map onesIn).sum

/-- `pbv_word` (R78). -/
def pbvWord (v : Pbv) (k : Nat) : Except ErrKind Word :=
  if v.words.length ≤ k then .error .indexOutOfRange else .ok (v.wordAt k)

/-- A result vector, or CapacityExceeded when it has more than `CAP_WORDS` words (R66, R129: the check is on the size
the result would have; assumption 13). -/
def withinWords (capWords : Nat) (v : Pbv) : Except ErrKind Pbv :=
  if capWords < v.words.length then .error .capacityExceeded else .ok v

end Sys2Proof.Machine
end

