-- ==== Sys2Proof/Machine/Flags.lean ====
section
/-! DEFINITION. The status predicates of 10_state.md R32 and the views of `ERR` and `STATUS` (R25, R26, R121). The block
has no other flag. -/

namespace Sys2Proof.Machine

/-- The code of an error kind (R121). -/
def ErrKind.code : ErrKind → Nat
  | .none => 0
  | .notFound => 1
  | .truncatedCorrupt => 2
  | .writeFailed => 3
  | .indexOutOfRange => 4
  | .underflow => 5
  | .illegalCommand => 6
  | .capacityExceeded => 7

/-- The 32 bits of `ERR` (R26). -/
def State.errWord (s : State) : Word32 := BitVec.ofNat 32 s.err.code

/-- `STATUS.BUSY`: `SEQ = RUN` (R25, R32). -/
def State.busy (s : State) : Bool := s.seq == .run

/-- `STATUS.FAULT`: `ERR ≠ 0`, a copy (R25, R32). -/
def State.faultFlag (s : State) : Bool := s.err != .none

/-- The 32 bits of `STATUS`: BUSY in bit 0, FAULT in bit 1, the rest read 0 (R25). -/
def State.status (s : State) : Word32 :=
  (if s.busy then 1 else 0) ||| (if s.faultFlag then 2 else 0)

/-- The container is empty iff it carries no payload bit, whatever its list holds (R32, R111). -/
def Container.noPayload (c : Container) : Bool := c.bits.size == 0

end Sys2Proof.Machine
end

