-- ==== Sys2Proof/Machine/FrequencyCounter.lean ====
section
/-! DEFINITION. The frequency counter unit (41_frequency_counter.md). -/

namespace Sys2Proof.Machine

/-- One pass of the scan (R81): the symbol's entry counts one more, or a new entry with count 1 goes last. -/
def countSymbol (ft : List FreqEntry) (s : Symbol) : List FreqEntry :=
  match ft with
  | [] => [⟨s, 1⟩]
  | e :: rest => if e.sym = s then ⟨e.sym, e.count + 1⟩ :: rest else e :: countSymbol rest s

/-- `freq_count(S)` (R81, R82, R84): entries in the order in which their symbols first occur. -/
def freqCount (input : List Symbol) : List FreqEntry := input.foldl countSymbol []

end Sys2Proof.Machine
end

