-- ==== Sys2Proof/Machine/Operands.lean ====
section
/-! DEFINITION. Operand assembly (30_encoding.md R51): every operand is the full 64-bit register, unsigned, or the one
bit field named; all other bits are ignored. -/

namespace Sys2Proof.Machine

/-- Path `p = ARG0` (SAVE, LOAD). -/
def State.pathOperand (s : State) : Path := s.arg0

/-- Bit `b = ARG0[0]` (PBV_PUSH_BIT). -/
def State.bitOperand (s : State) : Bool := s.arg0.getLsbD 0

/-- Value `w = ARG0[63:0]` (PBV_PUSH_BITS); the function that appends it takes its low `n` bits. -/
def State.valueOperand (s : State) : Word := s.arg0

/-- Count `n = ARG1[63:0]` (PBV_PUSH_BITS). -/
def State.countOperand (s : State) : Nat := s.arg1.toNat

/-- Index `i`, new size `n` or word index `k`, each `ARG0[63:0]` (PBV_GET, PBV_AT, PBV_SET, PBV_RESIZE, PBV_WORD). -/
def State.indexOperand (s : State) : Nat := s.arg0.toNat

/-- Bit `b = ARG1[0]` (PBV_SET). -/
def State.setBitOperand (s : State) : Bool := s.arg1.getLsbD 0

/-- `zext_64` of a bit. -/
def bitWord (b : Bool) : Word := if b then 1 else 0

/-- `zext_64` of an unsigned integer below 2^64. -/
def natWord (n : Nat) : Word := BitVec.ofNat 64 n

end Sys2Proof.Machine
end

