-- ==== Sys2Proof/Machine/TreeBuilder.lean ====
section
/-! DEFINITION. The tree builder unit and the dictionary derivation (42_tree_builder.md). -/

namespace Sys2Proof.Machine

/-! ## Nodes and their order -/

/-- The count of a node (R28); a leaf's is its entry's, an internal node's the sum it holds (R89). -/
def Tree.count : Tree → Nat
  | .leaf _ c => c.toNat
  | .node c _ _ _ => c

/-- The tie-break key of a node (R87): a leaf's symbol, an internal node's stored key. -/
def Tree.key : Tree → Symbol
  | .leaf s _ => s
  | .node _ k _ _ => k

/-- `kind = LEAF`. -/
def Tree.isLeaf : Tree → Bool
  | .leaf _ _ => true
  | .node _ _ _ _ => false

/-- `child(x, b)`: 0 left, 1 right; a leaf has none, so that no rule can read it (R103, R147). -/
def Tree.child : Tree → Bool → Option Tree
  | .leaf _ _, _ => none
  | .node _ _ l r, b => some (if b then r else l)

/-- `lower(x, y)` (R87): by count, then key, then index. -/
def lower (x y : PqNode) : Bool :=
  decide (x.node.count < y.node.count) ||
  (decide (x.node.count = y.node.count) &&
    (decide (x.node.key < y.node.key) ||
      (decide (x.node.key = y.node.key) && decide (x.index < y.index))))

/-! ## Building -/

/-- `remove_lowest(PQ)` (R87): the lowest member and the members left. -/
def removeLowest : List PqNode → Option (PqNode × List PqNode)
  | [] => none
  | x :: xs =>
    match removeLowest xs with
    | none => some (x, [])
    | some (m, rest) => if lower x m then some (x, xs) else some (m, x :: rest)

/-- The internal node made of the first-removed `a` (left) and the second-removed `b` (right) (R88, R89). -/
def mergeNodes (a b : Tree) : Tree :=
  .node (a.count + b.count) (if a.key ≤ b.key then a.key else b.key) a b

/-- The merge loop (R86, R88) with at most `fuel` passes; `nxt` numbers the next internal node. -/
def mergeLoop : Nat → Nat → List PqNode → Option Tree
  | 0, _, _ => none
  | fuel + 1, nxt, pq =>
    match removeLowest pq with
    | none => none
    | some (a, pq1) =>
      match removeLowest pq1 with
      | none => some a.node
      | some (b, pq2) => mergeLoop fuel (nxt + 1) (⟨nxt, mergeNodes a.node b.node⟩ :: pq2)

/-- Leaf `j` for entry `F[j]`, numbered from `j` (R86). -/
def leavesFrom : Nat → List FreqEntry → List PqNode
  | _, [] => []
  | j, e :: rest => ⟨j, .leaf e.sym e.count⟩ :: leavesFrom (j + 1) rest

/-- `tree_build(F)` (R86): the root, none for the empty table (R92). The loop's last look finds one node, so `N`
looks are enough for `N − 1` merges. -/
def treeBuild (f : List FreqEntry) : Option Tree := mergeLoop f.length f.length (leavesFrom 0 f)

/-! ## The dictionary -/

/-- `DICT[s] <- a copy of p`. -/
def bindCode (d : Dict) (s : Symbol) (p : Pbv) : Dict := (s, p) :: d.filter (fun e => e.1 != s)

/-- `visit(x)` (R94): takes and returns PREFIX and DICT. The pops follow their pushes, so they need no check. -/
def visit : Tree → Pbv × Dict → Pbv × Dict
  | .leaf s _, (p, d) => (p, bindCode d s p)
  | .node _ _ l r, (p, d) =>
    let a := visit l (pbvPushBit p false, d)
    let b := visit r (pbvPushBit (pbvPopBit a.1) true, a.2)
    (pbvPopBit b.1, b.2)

/-- The one-bit code `"0"` (R95). -/
def singleCode : Pbv := pbvPushBit Pbv.empty false

/-- `dict_build(ARENA, root)` (R94), with the special case of a lone leaf (R95); PREFIX and DICT at its end. -/
def dictBuild (root : Tree) : Pbv × Dict :=
  match root with
  | .leaf s _ => (Pbv.empty, [(s, singleCode)])
  | .node c k l r => visit (.node c k l r) (Pbv.empty, [])

/-- The code of a symbol. -/
def codeOf (d : Dict) (s : Symbol) : Option Pbv := d.lookup s

end Sys2Proof.Machine
end

