-- ==== Sys2Proof/Machine/Codec.lean ====
section
/-! DEFINITION. The encoder and decoder units and the commands COMPRESS and DECOMPRESS (43_codec.md). -/

namespace Sys2Proof.Machine

/-! ## The encoder -/

/-- `encode(S, DICT)` from payload `b` on (R100); none if a symbol has no code. -/
def encodeFrom (d : Dict) : List Symbol → Pbv → Option Pbv
  | [], b => some b
  | s :: rest, b =>
    match codeOf d s with
    | none => none
    | some c => encodeFrom d rest (pbvPushVec b c)

/-- `encode(S, DICT)` (R100). -/
def encodeStream (d : Dict) (input : List Symbol) : Option Pbv := encodeFrom d input Pbv.empty

/-- COMPRESS (R99). The capacity of the payload is compared on the full result (R129). -/
def execCompress (s : State) : Result :=
  if s.caps.capIn < s.inBuf.length then .next (s.raise .capacityExceeded)
  else if s.inBuf = [] then .next (s.setCt Container.empty).finish
  else
    let ft := freqCount s.inBuf
    match treeBuild ft with
    | none => .refused .noTree
    | some root =>
      let pd := dictBuild root
      match encodeStream pd.2 s.inBuf with
      | none => .refused .noCode
      | some b =>
        let s1 := s.withCall { Call.initial with
          ft := ft, root := some root, dict := pd.2, prefixBits := pd.1, ipos := s.inBuf.length }
        match withinWords s.caps.capWords b with
        | .error e => .next (s1.raise e)
        | .ok b => .next (s1.setCt ⟨ft, b⟩).finish

/-! ## The decoder -/

/-- The node a walk state stands on: `at(state)` of R103. -/
def Walk.node (root : Tree) : Walk → Tree
  | .atRoot => root
  | .atInternal m => m

/-- One transition of R103: the next state and the symbol emitted, if any; none when the walk stands on a leaf. -/
def walkStep (root : Tree) (cur : Walk) (b : Bool) : Option (Walk × Option Symbol) :=
  match (cur.node root).child b with
  | none => none
  | some (.leaf sym _) => some (.atRoot, some sym)
  | some (.node c k l r) => some (.atInternal (.node c k l r), none)

/-- `decode(ARENA, root, B)` (R104) over the payload bits still to read: the symbols emitted and the last state. -/
def decodeFrom (root : Tree) : Walk → List Bool → Option (List Symbol × Walk)
  | cur, [] => some ([], cur)
  | cur, b :: rest =>
    match walkStep root cur b with
    | none => none
    | some (cur', out) =>
      match decodeFrom root cur' rest with
      | none => none
      | some (o, last) => some (out.toList ++ o, last)

/-- `single_decode(F, B)` (R105). -/
def singleDecode (sym : Symbol) (b : Pbv) : List Symbol := List.replicate b.size sym

/-- The decoded stream and the walk's last state: `single_decode` for a table of one entry, else `decode` (R102). -/
def decodeStream (f : List FreqEntry) (root : Tree) (b : Pbv) : Option (List Symbol × Walk) :=
  match f with
  | [e] => some (singleDecode e.sym b, .atRoot)
  | _ => decodeFrom root .atRoot b.bits

/-- DECOMPRESS (R102). -/
def execDecompress (s : State) : Result :=
  if s.ct.freq = [] ∨ s.ct.bits.size = 0 then .next (s.setOut []).finish
  else
    match treeBuild s.ct.freq with
    | none => .refused .noTree
    | some root =>
      match decodeStream s.ct.freq root s.ct.bits with
      | none => .refused .leafHasNoChild
      | some (o, last) =>
        let s1 := s.withCall { Call.initial with root := some root, bpos := s.ct.bits.size, cur := last }
        if allows s.caps.capOut o.length then .next (s1.setOut o).finish
        else .next (s1.raise .capacityExceeded)

end Sys2Proof.Machine
end

