-- ==== Sys2Proof/Machine/Container.lean ====
section
/-! DEFINITION. The container serializer unit: SAVE, LOAD, IS_EMPTY, IS_FULL (44_container.md). -/

namespace Sys2Proof.Machine

/-! ## The predicates -/

/-- IS_EMPTY (R111). -/
def execIsEmpty (s : State) : Result := .next (s.setRes (bitWord s.ct.noPayload)).finish

/-- IS_FULL (R112): at least one payload bit. -/
def execIsFull (s : State) : Result := .next (s.setRes (bitWord (!s.ct.noPayload))).finish

/-! ## SAVE -/

/-- One pair record: the symbol byte, then the count (R60). -/
def pairBytesOf (e : FreqEntry) : List Byte := e.sym :: leBytes e.count.toNat 4

/-- `serialize(C)` (R113; layout R59 to R62): header, pairs, the first `ceil64(totalBits)` words. -/
def serialize (c : Container) : File :=
  leBytes c.freq.length wordBytes ++ leBytes c.bits.size wordBytes ++
    c.freq.flatMap pairBytesOf ++
    (c.bits.words.take (ceil64 c.bits.size)).flatMap fun w => leBytes w.toNat wordBytes

/-- SAVE (R114). After WriteFailed the file is a free value (assumption 4). -/
def execSave (s : State) : Result :=
  let img := serialize s.ct
  if allows s.caps.capFile img.length then
    if s.wrOk then .next (s.setFile s.pathOperand (some img)).finish
    else
      let left := clipFile s.caps.capFile (Config.fileAfterFailedWrite s.failedWrites)
      .next ({ s.setFile s.pathOperand left with failedWrites := s.failedWrites + 1 }.raise .writeFailed)
  else .next (s.raise .capacityExceeded)

/-! ## LOAD -/

/-- The pairs of a file, `np` of them from offset 16 (R60, R115). -/
def readPairs (f : File) (np : Nat) : List FreqEntry :=
  (List.range np).map fun k =>
    ⟨BitVec.ofNat 8 (memRead f (headerBytes + pairBytes * k) 1),
     BitVec.ofNat 32 (memRead f (headerBytes + 1 + pairBytes * k) 4)⟩

/-- The payload words of a file, `nw` of them after the pairs (R61, R115). -/
def readWords (f : File) (np nw : Nat) : List Word :=
  (List.range nw).map fun k =>
    BitVec.ofNat 64 (memRead f (headerBytes + pairBytes * np + wordBytes * k) wordBytes)

/-- The vector of `tb` bits made of payload words: one zero word when there is none, unused positions zeroed (R115). -/
def payloadVector (ws : List Word) (tb : Nat) : Pbv :=
  let words := if ws = [] then [0] else ws
  let free := 64 * words.length - tb
  ⟨words.set (words.length - 1) (zeroLow (words.getD (words.length - 1) 0) free), free⟩

/-- `deserialize(p)` (R115), from `STORE[p]`: the checks in the order written, in unbounded integers. -/
def deserialize (caps : Capacities) (file : Option File) : Except ErrKind Container :=
  match file with
  | none => .error .notFound
  | some f =>
    if f.length < headerBytes then .error .truncatedCorrupt
    else
      let np := memRead f 0 wordBytes
      let tb := memRead f wordBytes wordBytes
      let nw := ceil64 tb
      if f.length < headerBytes + pairBytes * np + wordBytes * nw then .error .truncatedCorrupt
      else if allows caps.capPairs np = false ∨ caps.capWords < max 1 nw then .error .capacityExceeded
      else .ok ⟨readPairs f np, payloadVector (readWords f np nw) tb⟩

/-- LOAD (R116): on any failure `CT` is left empty (R117). -/
def execLoad (s : State) : Result :=
  match deserialize s.caps (fileAt s.store s.pathOperand.toNat) with
  | .error e => .next ((s.setCt Container.empty).raise e)
  | .ok c => .next (s.setCt c).finish

end Sys2Proof.Machine
end

