-- ==== Sys2Proof/Machine/PbvCommands.lean ====
section
/-! DEFINITION. The PBV_* commands: the wrapper of R66 around the functions of 40_packed_bit_vector.md. -/

namespace Sys2Proof.Machine

/-- The wrapper of R66 for a function that gives a new vector. -/
def endWithVector (s : State) (r : Except ErrKind Pbv) : Result :=
  match r with
  | .ok v => .next (s.setBv v).finish
  | .error e => .next (s.raise e)

/-- The wrapper of R66 for a function that gives a result. -/
def endWithResult (s : State) (r : Except ErrKind Word) : Result :=
  match r with
  | .ok x => .next (s.setRes x).finish
  | .error e => .next (s.raise e)

/-- PBV_CLEAR (R67). -/
def execPbvClear (s : State) : Result := endWithVector s (.ok Pbv.empty)

/-- PBV_SIZE (R68). -/
def execPbvSize (s : State) : Result := endWithResult s (.ok (natWord s.bv.size))

/-- PBV_PUSH_BIT (R69). -/
def execPbvPushBit (s : State) : Result :=
  endWithVector s (withinWords s.caps.capWords (pbvPushBit s.bv s.bitOperand))

/-- PBV_PUSH_BITS (R70): the operand check comes first (R125). -/
def execPbvPushBits (s : State) : Result :=
  let n := s.countOperand
  if n = 0 ∨ 64 < n then .next (s.raise .illegalCommand)
  else endWithVector s (withinWords s.caps.capWords (pbvPushBits s.bv s.valueOperand n))

/-- PBV_PUSH_VEC (R71): `other` is `CT.bits`; the capacity is checked before the first word is forwarded. -/
def execPbvPushVec (s : State) : Result :=
  if s.caps.capWords < pushVecWords s.bv s.ct.bits then .next (s.raise .capacityExceeded)
  else endWithVector s (.ok (pbvPushVec s.bv s.ct.bits))

/-- PBV_POP (R72). -/
def execPbvPop (s : State) : Result := endWithVector s (pbvPop s.bv)

/-- PBV_GET (R73): checked exactly as PBV_AT is. -/
def execPbvGet (s : State) : Result := endWithResult s ((pbvAt s.bv s.indexOperand).map bitWord)

/-- PBV_AT (R74). -/
def execPbvAt (s : State) : Result := endWithResult s ((pbvAt s.bv s.indexOperand).map bitWord)

/-- PBV_SET (R75). -/
def execPbvSet (s : State) : Result := endWithVector s (pbvSet s.bv s.indexOperand s.setBitOperand)

/-- PBV_RESIZE (R76). -/
def execPbvResize (s : State) : Result := endWithVector s (pbvResize s.caps.capWords s.bv s.indexOperand)

/-- PBV_POPCOUNT (R77). -/
def execPbvPopcount (s : State) : Result := endWithResult s (.ok (natWord (pbvPopcount s.bv)))

/-- PBV_WORD (R78). -/
def execPbvWord (s : State) : Result := endWithResult s (pbvWord s.bv s.indexOperand)

end Sys2Proof.Machine
end

