-- ==== Sys2Proof/Machine/Dispatch.lean ====
section
/-! DEFINITION. One arm per command: each is one direct call of the command's meaning. -/

namespace Sys2Proof.Machine

def exec (i : Instr) (s : State) : Host.Outcome State Fault Refusal :=
  match i with
  | .compress => Sys2Proof.Machine.execCompress s
  | .decompress => Sys2Proof.Machine.execDecompress s
  | .save => Sys2Proof.Machine.execSave s
  | .load => Sys2Proof.Machine.execLoad s
  | .isEmpty => Sys2Proof.Machine.execIsEmpty s
  | .isFull => Sys2Proof.Machine.execIsFull s
  | .pbvClear => Sys2Proof.Machine.execPbvClear s
  | .pbvSize => Sys2Proof.Machine.execPbvSize s
  | .pbvPushBit => Sys2Proof.Machine.execPbvPushBit s
  | .pbvPushBits => Sys2Proof.Machine.execPbvPushBits s
  | .pbvPushVec => Sys2Proof.Machine.execPbvPushVec s
  | .pbvPop => Sys2Proof.Machine.execPbvPop s
  | .pbvGet => Sys2Proof.Machine.execPbvGet s
  | .pbvAt => Sys2Proof.Machine.execPbvAt s
  | .pbvSet => Sys2Proof.Machine.execPbvSet s
  | .pbvResize => Sys2Proof.Machine.execPbvResize s
  | .pbvPopcount => Sys2Proof.Machine.execPbvPopcount s
  | .pbvWord => Sys2Proof.Machine.execPbvWord s

end Sys2Proof.Machine
end

