-- ==== Sys2Proof/Machine/HostMoves.lean ====
section
/-! DEFINITION. What each move of the host or the platform does (10_state.md R24 to R26, R34; 60_exceptions.md R128,
R137, R138; 70_reset_and_hazards.md R141), and what a host read returns. -/

namespace Sys2Proof.Machine

/-- A host write of a word to `CMD` (R24): the word is remembered, then the command it encodes runs to its end;
a word that is no command raises IllegalCommand (R128), before anything else is looked at (R125). -/
def writeCommand (s : State) (w : Word32) : Result :=
  match decode w with
  | .ok i => exec i (s.issue w)
  | .error _ => .next ((s.issue w).raise .illegalCommand)

/-- The reset signal (R141): every row of R35; `STORE` and what is not the block's (assumption 5) stay. -/
def State.applyReset (s : State) : State :=
  { State.reset with
    store := s.store, caps := s.caps, wrOk := s.wrOk, failedWrites := s.failedWrites, pending := s.pending }

/-- What a host read returns (R34, R24 to R26). -/
def State.hostRead (s : State) : Readable → HostValue
  | .cmd => .word32 s.cmd
  | .status => .word32 s.status
  | .err => .word32 s.errWord
  | .arg0 => .word64 s.arg0
  | .arg1 => .word64 s.arg1
  | .res => .word64 s.res
  | .inBuf => .symbols s.inBuf
  | .outBuf => .symbols s.outBuf
  | .ctFreq => .entries s.ct.freq
  | .ctBits => .vector s.ct.bits
  | .bv => .vector s.bv
  | .file p => .file (fileAt s.store p.toNat)

/-- One move, the block being idle. Writes to read-only state are ignored (R34, V6); a read changes nothing (R42). -/
def hostMove (s : State) : HostMove → Result
  | .writeCmd w => writeCommand s w
  | .writeStatus _ => .next s
  | .writeErr _ => .next s
  | .writeRes _ => .next s
  | .writeOut _ => .next s
  | .writeCt _ => .next s
  | .writeBv _ => .next s
  | .read _ => .next s
  | .writeArg0 v => .next { s with arg0 := v }
  | .writeArg1 v => .next { s with arg1 := v }
  | .writeIn v => .next { s with inBuf := v }
  | .writeInAt i v =>
    if i < s.inBuf.length then .next { s with inBuf := s.inBuf.set i v } else .fault .noSuchInElement
  | .putFile p f =>
    if allows s.caps.capFile f.length then .next (s.setFile p (some f)) else .fault .fileTooLong
  | .removeFile p => .next (s.setFile p none)
  | .drawWrOk ok => .next { s with wrOk := ok }
  | .reset => .next s.applyReset

/-- The next host move, if there is one. While `SEQ` = RUN the host may make none (R137, R148); with none left the
block stays as it is (R144). -/
def nextMove (s : State) : Result :=
  match s.pending with
  | [] => .next s
  | m :: rest =>
    match s.seq with
    | .run => .fault .moveWhileRunning
    | .idle => hostMove { s with pending := rest } m

/-- `s` with the host about to write `w` to `CMD`, the block idle. -/
def State.withCommand (s : State) (w : Word32) : State :=
  { s with pending := .writeCmd w :: s.pending, seq := .idle }

end Sys2Proof.Machine
end

