-- ==== Sys2Proof/Machine/Step.lean ====
section
/-! DEFINITION. One step of the machine is one move of the host: a command is one atomic step (10_state.md R13). -/

namespace Sys2Proof.Machine

/-- The step: the next host move. -/
def step (s : State) : Host.Outcome State Fault Refusal := nextMove s

/-- `s` with the host about to write the table row's word to `CMD`: the next step issues exactly it. -/
def State.withFetchWord (s : State) (nbits w : Nat) : State := s.withCommand (tableWord nbits w)

end Sys2Proof.Machine
end

