-- ==== Sys2Proof/Machine/Assembler.lean ====
section
/-! DEFINITION. The program notation of 30_encoding.md R63 and R64: the host moves a line stands for. It is notation;
no command of the block depends on it. -/

namespace Sys2Proof.Machine

/-- The moves of one command line: the operands the command names, then the command word (R63). -/
def commandMoves (i : Instr) (a0 a1 : Word) : List HostMove :=
  (if i.signature.usesArg0 then [.writeArg0 a0] else []) ++
    (if i.signature.usesArg1 then [.writeArg1 a1] else []) ++ [.writeCmd (encode i)]

/-- A line: a command, one of the directives that are host actions, or a pseudo-instruction (R63, R64).
`.expect` states a result and is no move. -/
inductive Line where
  | command (i : Instr) (a0 a1 : Word)
  | dotIn (v : List Symbol)
  | dotStore (p : Path) (f : File)
  | dotUnstore (p : Path)
  | compressTo (p : Path)
  | decompressFrom (p : Path)
  | roundtrip (p : Path)
  | pbvPushByte (v : Word)
  | pbvPushWord (v : Word)
deriving DecidableEq, Repr

/-- What a line stands for (R63) or expands to (R64). -/
def Line.moves : Line → List HostMove
  | .command i a0 a1 => commandMoves i a0 a1
  | .dotIn v => [.writeIn v]
  | .dotStore p f => [.putFile p f]
  | .dotUnstore p => [.removeFile p]
  | .compressTo p => commandMoves .compress 0 0 ++ commandMoves .save p 0
  | .decompressFrom p => commandMoves .load p 0 ++ commandMoves .decompress 0 0
  | .roundtrip p =>
    commandMoves .compress 0 0 ++ commandMoves .save p 0 ++ commandMoves .load p 0 ++ commandMoves .decompress 0 0
  | .pbvPushByte v => commandMoves .pbvPushBits v 8
  | .pbvPushWord v => commandMoves .pbvPushBits v 64

/-- A program: its lines' moves in order. -/
def programMoves (ls : List Line) : List HostMove := ls.flatMap Line.moves

end Sys2Proof.Machine
end

