-- ==== Sys2Proof/Machine/Views.lean ====
section
/-! DEFINITION. The vocabulary of the statements: bit strings, appends, the paths and leaves of a tree, the building of a
tree as a relation, the error matrix. No meaning calls anything here. -/

namespace Sys2Proof.Machine

/-! ## Bit strings -/

/-- The low `n` bits of `w`, in the order `w[n−1]`, …, `w[0]` in which R70 appends them. -/
def msbFirst (w : Word) (n : Nat) : List Bool := (List.range n).map fun j => w.getLsbD (n - 1 - j)

/-- The vector pushes make of a bit string: the form with the fewest words (R100). -/
def Pbv.ofBits (l : List Bool) : Pbv := l.foldl pbvPushBit Pbv.empty

/-- One append to a vector: PBV_PUSH_BIT, PBV_PUSH_BITS or PBV_PUSH_VEC (R79 a). -/
inductive PushOp where
  | bit (b : Bool)
  | low (w : Word) (n : Nat)
  | vec (o : Pbv)
deriving DecidableEq, Repr

/-- What each append asks of its operand: a count of 1 to 64 (R70), a well-formed vector (R71). -/
def PushOp.wf (capWords : Nat) : PushOp → Prop
  | .bit _ => True
  | .low _ n => 1 ≤ n ∧ n ≤ 64
  | .vec o => o.wf capWords

/-- The vector after the append. -/
def PushOp.applyTo (v : Pbv) : PushOp → Pbv
  | .bit b => pbvPushBit v b
  | .low w n => pbvPushBits v w n
  | .vec o => pbvPushVec v o

/-- The bits the append adds, in order. -/
def PushOp.bits : PushOp → List Bool
  | .bit b => [b]
  | .low w n => msbFirst w n
  | .vec o => o.bits

/-! ## Trees -/

/-- The leaves from left to right, as the entries they were made of (R86). -/
def Tree.leaves : Tree → List FreqEntry
  | .leaf s c => [⟨s, c⟩]
  | .node _ _ l r => l.leaves ++ r.leaves

/-- The number of internal nodes (R90). -/
def Tree.internalNodes : Tree → Nat
  | .leaf _ _ => 0
  | .node _ _ l r => l.internalNodes + r.internalNodes + 1

/-- The path from the root to each leaf, left edge 0 and right edge 1, with the leaf's symbol (R56). -/
def Tree.paths : Tree → List (Symbol × List Bool)
  | .leaf s _ => [(s, [])]
  | .node _ _ l r => l.paths.map (fun e => (e.1, false :: e.2)) ++ r.paths.map (fun e => (e.1, true :: e.2))

/-- The code of a symbol as a bit string; empty where the dictionary has none. -/
def Tree.codeBits (root : Tree) (s : Symbol) : List Bool :=
  match codeOf (dictBuild root).2 s with
  | some c => c.bits
  | none => []

/-- `x` is lower than `y` in the order of R87: its (count, key, index), as numbers, is lexicographically smaller. -/
def PqNode.Below (x y : PqNode) : Prop :=
  x.node.count < y.node.count ∨
    (x.node.count = y.node.count ∧
      (x.node.key.toNat < y.node.key.toNat ∨ (x.node.key.toNat = y.node.key.toNat ∧ x.index < y.index)))

/-- The merge loop as a relation, for any structure that gives the lowest member (R88): `PQ`, whose members stand in no
order, with the next node's number, merges to the tree. -/
inductive MergesTo : Nat → List PqNode → Tree → Prop where
  /-- one node is left: the root -/
  | root (nxt : Nat) (x : PqNode) : MergesTo nxt [x] x.node
  /-- `a` is below every other member, `b` below all that are left: `a` is the left child, `b` the right one (R89) -/
  | merge (nxt : Nat) (pq : List PqNode) (a b : PqNode) (rest : List PqNode) (t : Tree) :
      pq.Perm (a :: b :: rest) → (∀ x ∈ b :: rest, a.Below x) → (∀ x ∈ rest, b.Below x) →
      MergesTo (nxt + 1)
        (⟨nxt, .node (a.node.count + b.node.count)
          (if a.node.key.toNat ≤ b.node.key.toNat then a.node.key else b.node.key) a.node b.node⟩ :: rest) t →
      MergesTo nxt pq t

/-! ## Files -/

/-- `need` of R115: the bytes the header of a file declares. -/
def declaredBytes (f : File) : Nat :=
  headerBytes + pairBytes * memRead f 0 wordBytes + wordBytes * ceil64 (memRead f wordBytes wordBytes)

/-! ## The error matrix -/

/-- Which command can end with which kind (R122); NONE is the kind of success. -/
def mayEndWith : Instr → ErrKind → Bool
  | _, .none => true
  | .load, .notFound => true
  | .load, .truncatedCorrupt => true
  | .save, .writeFailed => true
  | .pbvGet, .indexOutOfRange => true
  | .pbvAt, .indexOutOfRange => true
  | .pbvSet, .indexOutOfRange => true
  | .pbvWord, .indexOutOfRange => true
  | .pbvPop, .underflow => true
  | .pbvPushBits, .illegalCommand => true
  | .compress, .capacityExceeded => true
  | .decompress, .capacityExceeded => true
  | .save, .capacityExceeded => true
  | .load, .capacityExceeded => true
  | .pbvPushBit, .capacityExceeded => true
  | .pbvPushBits, .capacityExceeded => true
  | .pbvPushVec, .capacityExceeded => true
  | .pbvResize, .capacityExceeded => true
  | _, _ => false

end Sys2Proof.Machine
end

