-- ==== Sys2Proof/Safety.lean ====
section
/-! DEFINITION. What counts as a sound state and as a run that went well (70_reset_and_hazards.md R143, R144). -/

namespace Sys2Proof.Machine

/-- The premises of R143 at the start of any command: idle, vectors well formed, container canonical, bounds, the
canonical form of `STORE`, and the instance's capacities in the ranges of R7. "Status coherent" needs no clause: `ERR`
has eight values and `STATUS` is computed from it. -/
structure State.Inv (s : State) : Prop where
  idle      : s.seq = .idle
  noCall    : s.call = none
  caps      : s.caps.wf = true
  bv        : s.bv.wf s.caps.capWords
  ctBits    : s.ct.bits.wf s.caps.capWords
  canonical : s.ct.bits.canonical
  ctFreq    : allows s.caps.capPairs s.ct.freq.length = true
  outBuf    : allows s.caps.capOut s.outBuf.length = true
  store     : Memory.wf s.store
  files     : ∀ e ∈ s.store, allows s.caps.capFile e.2.length = true

/-- The premises a command starts under: `SEQ` is RUN by then, so only the data premises of R143. -/
structure State.DataInv (s : State) : Prop where
  caps      : s.caps.wf = true
  bv        : s.bv.wf s.caps.capWords
  ctBits    : s.ct.bits.wf s.caps.capWords
  canonical : s.ct.bits.canonical
  ctFreq    : allows s.caps.capPairs s.ct.freq.length = true
  outBuf    : allows s.caps.capOut s.outBuf.length = true
  store     : Memory.wf s.store
  files     : ∀ e ∈ s.store, allows s.caps.capFile e.2.length = true

/-- The command a step issues, if it issues one. -/
def State.issues (s : State) : Bool :=
  match s.pending with
  | .writeCmd _ :: _ => true
  | _ => false

/-- `n` steps from `s`, every command among them ending with `ERR` = 0 (R144: "successful up to command k"). -/
def succeedsFor : Nat → State → Bool
  | 0, _ => true
  | n + 1, s =>
    match step s with
    | .next t => (!s.issues || t.err == .none) && succeedsFor n t
    | .fault _ => false
    | .refused _ => false

end Sys2Proof.Machine
end

