-- ==== Sys2Proof/Certificates/Slice0/Obligations.lean ====
section
/-! DEFINITION. The statements for the provers. `caps`, `wrOk`, `failedWrites` and `pending` are the model's own fields
(assumptions 1 to 4); every statement holds for all their values. -/

open Sys2Proof Sys2Proof.Machine

/-! ## Encoding and the step -/

/-- Words written out from the table of R52, one of each group and the two ends. -/
def Obligations.TableWordsDecodeToTheirCommands : Prop :=
  decode 0b00000000000000000000000000000001#32 = .ok .compress ∧
  decode 0b00000000000000000000000000000100#32 = .ok .load ∧
  decode 0b00000000000000000000000000010011#32 = .ok .pbvPushBits ∧
  decode 0b00000000000000000000000000011011#32 = .ok .pbvWord

/-- Every command decodes from its own word (R52). -/
def Obligations.DecodeOfEncodeIsTheCommand : Prop :=
  ∀ i : Instr, i.wf = true ∧ decode (encode i) = .ok i

/-- R54, R53: the decoder is total; a word is the command whose match word it is, and every other word is illegal. -/
def Obligations.DecoderAcceptsExactlyTheMatchWords : Prop :=
  ∀ w : Word32,
    (∀ i : Instr, decode w = .ok i ↔ w = encode i) ∧
    ((∃ e, decode w = .error e) ↔ ∀ i : Instr, w ≠ encode i) ∧
    (commandWordWf w = true ↔ ∃ i : Instr, w = encode i)

/-- A host write of a command word runs that command: the step is exec of the decoded command, with `CMD` holding the
word and `SEQ` at RUN (R24, R27). -/
def Obligations.StepRunsTheDecodedCommand : Prop :=
  ∀ (s : State) (w : Word32) (rest : List HostMove) (i : Instr),
    s.seq = .idle → s.pending = .writeCmd w :: rest → decode w = .ok i →
    step s = exec i { s with pending := rest, cmd := w, seq := .run }

/-- R53, R128 (a): an illegal word raises IllegalCommand and changes nothing but `CMD` and `ERR`. -/
def Obligations.IllegalWordChangesOnlyCmdAndErr : Prop :=
  ∀ (s : State) (w : Word32) (rest : List HostMove),
    s.seq = .idle → s.call = none → s.pending = .writeCmd w :: rest → (∀ i : Instr, w ≠ encode i) →
    step s = .next { s with pending := rest, cmd := w, err := .illegalCommand }

/-- R34, V6: host writes to read-only state and host reads change nothing. -/
def Obligations.ReadOnlyStateIgnoresTheHost : Prop :=
  ∀ (s : State) (m : HostMove) (rest : List HostMove),
    s.seq = .idle → s.pending = m :: rest →
    ((∃ v, m = .writeStatus v) ∨ (∃ v, m = .writeErr v) ∨ (∃ v, m = .writeRes v) ∨ (∃ v, m = .writeOut v) ∨
      (∃ v, m = .writeCt v) ∨ (∃ v, m = .writeBv v) ∨ (∃ r, m = .read r)) →
    step s = .next { s with pending := rest }

/-- R16, R18, R23, R34: the host's writes of `IN`, `ARG0`, `ARG1` and its changes of `STORE`; R138 (c): the draw the
platform makes for the SAVE commands that follow. That the draw is a field of State is the model's choice (assumption 3). -/
def Obligations.HostWritesTakeEffect : Prop :=
  ∀ (s : State) (rest : List HostMove), s.seq = .idle →
    (∀ v, s.pending = .writeArg0 v :: rest → step s = .next { s with pending := rest, arg0 := v }) ∧
    (∀ v, s.pending = .writeArg1 v :: rest → step s = .next { s with pending := rest, arg1 := v }) ∧
    (∀ v, s.pending = .writeIn v :: rest → step s = .next { s with pending := rest, inBuf := v }) ∧
    (∀ ok, s.pending = .drawWrOk ok :: rest → step s = .next { s with pending := rest, wrOk := ok }) ∧
    (∀ i v, i < s.inBuf.length → s.pending = .writeInAt i v :: rest →
      step s = .next { s with pending := rest, inBuf := s.inBuf.set i v }) ∧
    (∀ (p : Path) (f : File), allows s.caps.capFile f.length = true → Memory.wf s.store →
      s.pending = .putFile p f :: rest →
      ∃ st, step s = .next { s with pending := rest, store := st } ∧ fileAt st p.toNat = some f ∧
        ∀ q, q ≠ p.toNat → fileAt st q = fileAt s.store q) ∧
    (∀ p : Path, Memory.wf s.store → s.pending = .removeFile p :: rest →
      ∃ st, step s = .next { s with pending := rest, store := st } ∧ fileAt st p.toNat = none ∧
        ∀ q, q ≠ p.toNat → fileAt st q = fileAt s.store q)

/-- R141: the reset signal assigns every row of R35 and does not touch `STORE`. That the model's own fields stay is the
model's choice (assumption 5). -/
def Obligations.ResetSignalAssignsEveryRow : Prop :=
  ∀ (s : State) (rest : List HostMove), s.seq = .idle → s.pending = .reset :: rest →
    step s = .next
      { inBuf := [], outBuf := [], arg0 := 0, arg1 := 0, res := 0, ct := ⟨[], ⟨[0], 64⟩⟩, bv := ⟨[0], 64⟩,
        store := s.store, cmd := 0, err := .none, seq := .idle, call := none, caps := s.caps, wrOk := s.wrOk,
        failedWrites := s.failedWrites, pending := rest }

/-- R35: the values the spec gives for reset. -/
def Obligations.ResetStateHoldsTheSpecValues : Prop :=
  State.reset.inBuf = [] ∧ State.reset.outBuf = [] ∧ State.reset.arg0 = 0 ∧ State.reset.arg1 = 0 ∧
  State.reset.res = 0 ∧ State.reset.ct = ⟨[], ⟨[0], 64⟩⟩ ∧ State.reset.bv = ⟨[0], 64⟩ ∧ State.reset.cmd = 0 ∧
  State.reset.status = 0 ∧ State.reset.err = .none ∧ State.reset.seq = .idle ∧ State.reset.call = none

/-- R25, R26, R32: `STATUS` is BUSY in bit 0 and FAULT, the copy of `ERR ≠ 0`, in bit 1; all other bits read 0. R121: `ERR`
holds the code of its kind, each kind at its own number, and none is above 7. -/
def Obligations.StatusIsTheCopyOfErrAndSeq : Prop :=
  ∀ s : State,
    (s.err = .none → s.errWord = 0) ∧ (s.err = .notFound → s.errWord = 1) ∧
    (s.err = .truncatedCorrupt → s.errWord = 2) ∧ (s.err = .writeFailed → s.errWord = 3) ∧
    (s.err = .indexOutOfRange → s.errWord = 4) ∧ (s.err = .underflow → s.errWord = 5) ∧
    (s.err = .illegalCommand → s.errWord = 6) ∧ (s.err = .capacityExceeded → s.errWord = 7) ∧
    s.errWord.toNat = s.err.code ∧ s.err.code ≤ 7 ∧
    (s.status.getLsbD 0 = true ↔ s.seq = .run) ∧ (s.status.getLsbD 1 = true ↔ s.errWord ≠ 0) ∧
    ∀ k, 2 ≤ k → s.status.getLsbD k = false

/-! ## The packed bit vector -/

/-- R67. -/
def Obligations.PbvClearGivesTheEmptyVector : Prop :=
  decode 0x00000010 = .ok .pbvClear ∧
  ∀ s : State,
    exec .pbvClear s = .next { s with bv := ⟨[0x0000000000000000], 64⟩, err := .none, seq := .idle, call := none }

/-- R68: `RES` is `64·len(words) − freeBits`, the number of logical bits. -/
def Obligations.PbvSizeReturnsTheBitCount : Prop :=
  decode 0x00000011 = .ok .pbvSize ∧
  ∀ s : State, s.caps.wf = true → s.bv.wf s.caps.capWords →
    ∃ r : Word,
      exec .pbvSize s = .next { s with res := r, err := .none, seq := .idle, call := none } ∧
      r.toNat = 64 * s.bv.words.length - s.bv.freeBits ∧ r.toNat = s.bv.bits.length

/-- R69: one bit is appended; CapacityExceeded when a word must be appended and there is no room for one. -/
def Obligations.PbvPushBitAppendsOneBit : Prop :=
  decode 0x00000012 = .ok .pbvPushBit ∧
  ∀ s : State, s.bv.wf s.caps.capWords →
    (s.bv.freeBits = 0 ∧ s.bv.words.length = s.caps.capWords →
      exec .pbvPushBit s = .next { s with err := .capacityExceeded, seq := .idle, call := none }) ∧
    (¬ (s.bv.freeBits = 0 ∧ s.bv.words.length = s.caps.capWords) →
      ∃ v : Pbv,
        exec .pbvPushBit s = .next { s with bv := v, err := .none, seq := .idle, call := none } ∧
        v.wf s.caps.capWords ∧ v.bits = s.bv.bits ++ [s.arg0.getLsbD 0] ∧
        v.words.length = s.bv.words.length + (if s.bv.freeBits = 0 then 1 else 0) ∧
        v = pbvPushBits s.bv (if s.arg0.getLsbD 0 then 1 else 0) 1)

/-- R70: the low `n` bits of `ARG0` are appended, most significant first, split over a word boundary where they do not
fit; `n` outside 1 to 64 is IllegalCommand, before any other check. -/
def Obligations.PbvPushBitsAppendsTheLowBits : Prop :=
  decode 0x00000013 = .ok .pbvPushBits ∧
  ∀ s : State,
    (s.arg1.toNat = 0 ∨ 64 < s.arg1.toNat →
      exec .pbvPushBits s = .next { s with err := .illegalCommand, seq := .idle, call := none }) ∧
    (1 ≤ s.arg1.toNat → s.arg1.toNat ≤ 64 → s.bv.wf s.caps.capWords →
      (s.bv.freeBits < s.arg1.toNat ∧ s.bv.words.length = s.caps.capWords →
        exec .pbvPushBits s = .next { s with err := .capacityExceeded, seq := .idle, call := none }) ∧
      (¬ (s.bv.freeBits < s.arg1.toNat ∧ s.bv.words.length = s.caps.capWords) →
        ∃ v : Pbv,
          exec .pbvPushBits s = .next { s with bv := v, err := .none, seq := .idle, call := none } ∧
          v.wf s.caps.capWords ∧ v.bits = s.bv.bits ++ msbFirst s.arg0 s.arg1.toNat ∧
          v.words.length = s.bv.words.length + (if s.bv.freeBits < s.arg1.toNat then 1 else 0)))

/-- R71: the bits of `CT.bits` are appended to `BV`; CapacityExceeded, before anything is forwarded, when the result
needs more than `CAP_WORDS` words. -/
def Obligations.PbvPushVecAppendsThePayload : Prop :=
  decode 0x00000014 = .ok .pbvPushVec ∧
  ∀ s : State, s.bv.wf s.caps.capWords → s.ct.bits.wf s.caps.capWords →
    (s.caps.capWords < max s.bv.words.length (ceil64 (s.bv.bits.length + s.ct.bits.bits.length)) →
      exec .pbvPushVec s = .next { s with err := .capacityExceeded, seq := .idle, call := none }) ∧
    (max s.bv.words.length (ceil64 (s.bv.bits.length + s.ct.bits.bits.length)) ≤ s.caps.capWords →
      ∃ v : Pbv,
        exec .pbvPushVec s = .next { s with bv := v, err := .none, seq := .idle, call := none } ∧
        v.wf s.caps.capWords ∧ v.bits = s.bv.bits ++ s.ct.bits.bits ∧
        v.words.length = max s.bv.words.length (ceil64 (s.bv.bits.length + s.ct.bits.bits.length)))

/-- R72: the last bit goes; an already empty last word is dropped by the pop that finds it, which leaves freeBits 1;
Underflow on the empty vector. -/
def Obligations.PbvPopRemovesTheLastBit : Prop :=
  decode 0x00000015 = .ok .pbvPop ∧
  ∀ s : State, s.bv.wf s.caps.capWords →
    (s.bv.bits = [] → exec .pbvPop s = .next { s with err := .underflow, seq := .idle, call := none }) ∧
    (s.bv.bits ≠ [] →
      ∃ v : Pbv,
        exec .pbvPop s = .next { s with bv := v, err := .none, seq := .idle, call := none } ∧
        v.wf s.caps.capWords ∧ v.bits = s.bv.bits.dropLast ∧
        (s.bv.freeBits = 64 → v.words.length + 1 = s.bv.words.length ∧ v.freeBits = 1) ∧
        (s.bv.freeBits ≠ 64 → v.words.length = s.bv.words.length ∧ v.freeBits = s.bv.freeBits + 1))

/-- R73, R74: PBV_GET and PBV_AT read position `63 − i mod 64` of word `i div 64`, logical bit `i`; an index at or
beyond the size is IndexOutOfRange and leaves `RES`. -/
def Obligations.PbvGetAndAtReadTheIndexedBit : Prop :=
  decode 0x00000016 = .ok .pbvGet ∧ decode 0x00000017 = .ok .pbvAt ∧
  ∀ (s : State) (i : Instr), i = .pbvGet ∨ i = .pbvAt →
    (s.bv.bits.length ≤ s.arg0.toNat →
      exec i s = .next { s with err := .indexOutOfRange, seq := .idle, call := none }) ∧
    (s.arg0.toNat < s.bv.bits.length →
      ∃ (w : Word) (b : Bool),
        s.bv.words[s.arg0.toNat / 64]? = some w ∧ b = w.getLsbD (63 - s.arg0.toNat % 64) ∧
        s.bv.bits[s.arg0.toNat]? = some b ∧
        exec i s = .next { s with res := (if b then 1 else 0), err := .none, seq := .idle, call := none })

/-- R75: bit `i` takes the value of `ARG1[0]`; size, freeBits and every other bit stay; IndexOutOfRange at or beyond
the size. -/
def Obligations.PbvSetWritesOneBit : Prop :=
  decode 0x00000018 = .ok .pbvSet ∧
  ∀ s : State, s.bv.wf s.caps.capWords →
    (s.bv.bits.length ≤ s.arg0.toNat →
      exec .pbvSet s = .next { s with err := .indexOutOfRange, seq := .idle, call := none }) ∧
    (s.arg0.toNat < s.bv.bits.length →
      ∃ v : Pbv,
        exec .pbvSet s = .next { s with bv := v, err := .none, seq := .idle, call := none } ∧
        v.wf s.caps.capWords ∧ v.bits = s.bv.bits.set s.arg0.toNat (s.arg1.getLsbD 0) ∧
        v.freeBits = s.bv.freeBits ∧ v.words.length = s.bv.words.length)

/-- R76: the size becomes `n`, old bits below it stay, new bits are 0, in the fewest words; CapacityExceeded where
those are more than `CAP_WORDS`. -/
def Obligations.PbvResizeTruncatesOrZeroExtends : Prop :=
  decode 0x00000019 = .ok .pbvResize ∧
  ∀ s : State, s.bv.wf s.caps.capWords →
    (s.caps.capWords < max 1 (ceil64 s.arg0.toNat) →
      exec .pbvResize s = .next { s with err := .capacityExceeded, seq := .idle, call := none }) ∧
    (max 1 (ceil64 s.arg0.toNat) ≤ s.caps.capWords →
      ∃ v : Pbv,
        exec .pbvResize s = .next { s with bv := v, err := .none, seq := .idle, call := none } ∧
        v.wf s.caps.capWords ∧
        v.bits = s.bv.bits.take s.arg0.toNat ++ List.replicate (s.arg0.toNat - s.bv.bits.length) false ∧
        v.words.length = max 1 (ceil64 s.arg0.toNat) ∧ v.freeBits = 64 * v.words.length - s.arg0.toNat)

/-- R77: `RES` is the number of 1 bits of all words, which is the number among the logical bits. -/
def Obligations.PbvPopcountCountsTheOneBits : Prop :=
  decode 0x0000001A = .ok .pbvPopcount ∧
  ∀ s : State, s.caps.wf = true → s.bv.wf s.caps.capWords →
    ∃ r : Word,
      exec .pbvPopcount s = .next { s with res := r, err := .none, seq := .idle, call := none } ∧
      r.toNat = (s.bv.words.map fun w => (List.range 64).countP fun p => w.getLsbD p).sum ∧
      r.toNat = s.bv.bits.count true

/-- R78. -/
def Obligations.PbvWordReturnsTheWord : Prop :=
  decode 0x0000001B = .ok .pbvWord ∧
  ∀ s : State,
    (s.bv.words.length ≤ s.arg0.toNat →
      exec .pbvWord s = .next { s with err := .indexOutOfRange, seq := .idle, call := none }) ∧
    (∀ w : Word, s.bv.words[s.arg0.toNat]? = some w →
      exec .pbvWord s = .next { s with res := w, err := .none, seq := .idle, call := none })

/-- R80: both multi-bit appends are repeated single pushes, words and freeBits included. -/
def Obligations.AppendsAreRepeatedSinglePushes : Prop :=
  (∀ (cap : Nat) (v : Pbv) (w : Word) (n : Nat), v.wf cap → 1 ≤ n → n ≤ 64 →
    pbvPushBits v w n = (msbFirst w n).foldl pbvPushBit v) ∧
  (∀ (cap : Nat) (v o : Pbv), v.wf cap → o.wf cap → pbvPushVec v o = o.bits.foldl pbvPushBit v)

/-- R79: the laws of the unit: after any sequence of single pushes, multi-bit pushes and vector pushes on the empty
vector the bits are those appended, in order, and `pbv_get(v, i)` is the `i`-th; pop undoes push; resize sets the size;
at(size()) is IndexOutOfRange; the size is the length of the bit sequence; clear, the three pushes, pop, set and resize
keep the invariants of R21, the word bound growing by what is appended. -/
def Obligations.PackedBitVectorLaws : Prop :=
  (∀ (cap : Nat) (ops : List PushOp), (∀ op ∈ ops, op.wf cap) →
    (ops.foldl PushOp.applyTo Pbv.empty).bits = ops.flatMap PushOp.bits ∧
    ∀ i, (h : i < (ops.flatMap PushOp.bits).length) →
      (ops.foldl PushOp.applyTo Pbv.empty).getBit i = (ops.flatMap PushOp.bits)[i]) ∧
  (∀ (cap : Nat) (v : Pbv) (b : Bool), v.wf cap → (pbvPopBit (pbvPushBit v b)).bits = v.bits) ∧
  (∀ (cap : Nat) (v v' : Pbv) (n : Nat), v.wf cap → pbvResize cap v n = .ok v' → v'.size = n) ∧
  (∀ v : Pbv, pbvAt v v.size = .error .indexOutOfRange) ∧
  (∀ v : Pbv, v.bits.length = v.size) ∧
  (∀ cap : Nat, 1 ≤ cap → Pbv.empty.wf cap) ∧
  (∀ (cap : Nat) (v : Pbv), v.wf cap →
    (∀ b, (pbvPushBit v b).wf (cap + 1)) ∧ (∀ w n, 1 ≤ n → n ≤ 64 → (pbvPushBits v w n).wf (cap + 1)) ∧
    (∀ (cap' : Nat) (o : Pbv), o.wf cap' → (pbvPushVec v o).wf (pushVecWords v o)) ∧
    (∀ v', pbvPop v = .ok v' → v'.wf cap) ∧ (∀ i b v', pbvSet v i b = .ok v' → v'.wf cap) ∧
    (∀ n v', pbvResize cap v n = .ok v' → v'.wf cap))

/-- R150: on the two forms of one bit sequence every command but PBV_WORD gives the same result: the same state, but for
the form `BV` is in. -/
def Obligations.TwoFormsOfBvGiveTheSameResults : Prop :=
  ∀ (i : Instr) (s : State) (w : Pbv) (t : State),
    i ≠ .pbvWord → s.bv.wf s.caps.capWords → w.wf s.caps.capWords → s.ct.bits.wf s.caps.capWords →
    w.bits = s.bv.bits → exec i s = .next t →
    ∃ w' : Pbv, exec i { s with bv := w } = .next { t with bv := w' } ∧ w'.bits = t.bv.bits

/-! ## The frequency counter, the tree builder, the dictionary -/

/-- R81, R82: one entry per distinct symbol, in the order of first occurrence, with the number of its occurrences. -/
def Obligations.FreqCountCountsInFirstOccurrenceOrder : Prop :=
  ∀ input : List Symbol, input.length ≤ 2 ^ 32 - 1 →
    ((freqCount input).map FreqEntry.sym).Nodup ∧
    (∀ s : Symbol, s ∈ (freqCount input).map FreqEntry.sym ↔ s ∈ input) ∧
    ((freqCount input).map FreqEntry.sym).Pairwise (fun a b => input.idxOf a < input.idxOf b) ∧
    (∀ e ∈ freqCount input, e.count.toNat = input.count e.sym ∧ 1 ≤ e.count.toNat) ∧
    ((freqCount input).map fun e => e.count.toNat).sum = input.length ∧
    (freqCount input).length ≤ 256

/-- R90: the shape of the tree. -/
def Obligations.TreeBuildGivesTheStatedShape : Prop :=
  ∀ f : List FreqEntry, f ≠ [] →
    ∃ root : Machine.Tree,
      treeBuild f = some root ∧ root.leaves.Perm f ∧ root.internalNodes + 1 = f.length ∧
      root.count = (f.map fun e => e.count.toNat).sum ∧
      (2 ≤ f.length → root.isLeaf = false ∧ ∀ e ∈ root.paths, 1 ≤ e.2.length ∧ e.2.length ≤ f.length - 1)

/-- R93: for a table with unique symbols the tree is a function of the set of pairs: every enumeration order gives the
identical tree, hence the identical codes. -/
def Obligations.TreeDoesNotDependOnTableOrder : Prop :=
  ∀ f g : List FreqEntry, f.Perm g → (f.map FreqEntry.sym).Nodup → treeBuild f = treeBuild g

/-- R94, R95: the dictionary of an internal root holds, for each symbol, the bits of the path to its leaf; that of a
lone leaf holds the code "0". -/
def Obligations.DictionaryHoldsThePaths : Prop :=
  (∀ root : Machine.Tree, root.isLeaf = false → (root.paths.map Prod.fst).Nodup →
    ∀ (s : Symbol) (p : List Bool), (s, p) ∈ root.paths → codeOf (dictBuild root).2 s = some (Pbv.ofBits p)) ∧
  (∀ (s : Symbol) (c : BitVec 32), (dictBuild (.leaf s c)).2 = [(s, ⟨[0], 63⟩)])

/-- R96: the domain of the dictionary is the table's symbols, no code is a prefix of another symbol's, and every code
has 1 to `max(1, N − 1)` bits. -/
def Obligations.DictionaryIsPrefixFree : Prop :=
  ∀ (f : List FreqEntry) (root : Machine.Tree), (f.map FreqEntry.sym).Nodup → treeBuild f = some root →
    (∀ s : Symbol, (codeOf (dictBuild root).2 s).isSome = true ↔ s ∈ f.map FreqEntry.sym) ∧
    (∀ (s s' : Symbol) (c c' : Pbv), codeOf (dictBuild root).2 s = some c → codeOf (dictBuild root).2 s' = some c' →
      c.bits <+: c'.bits → s = s') ∧
    (∀ (s : Symbol) (c : Pbv), codeOf (dictBuild root).2 s = some c →
      1 ≤ c.size ∧ c.size ≤ max 1 (f.length - 1))

/-! ## COMPRESS and DECOMPRESS -/

/-- R99: the container is the counted table and the codes of the input symbols back to back; the empty input gives the
empty container; too long an input or payload is CapacityExceeded with `CT` as it was. -/
def Obligations.CompressBuildsTheContainer : Prop :=
  decode 0x00000001 = .ok .compress ∧
  ∀ s : State,
    (s.caps.capIn < s.inBuf.length →
      exec .compress s = .next { s with err := .capacityExceeded, seq := .idle, call := none }) ∧
    (s.inBuf = [] →
      exec .compress s = .next { s with ct := ⟨[], ⟨[0], 64⟩⟩, err := .none, seq := .idle, call := none }) ∧
    (s.inBuf.length ≤ s.caps.capIn → s.inBuf ≠ [] →
      ∃ root : Machine.Tree, treeBuild (freqCount s.inBuf) = some root ∧
        (s.caps.capWords < max 1 (ceil64 (s.inBuf.flatMap root.codeBits).length) →
          exec .compress s = .next { s with err := .capacityExceeded, seq := .idle, call := none }) ∧
        (max 1 (ceil64 (s.inBuf.flatMap root.codeBits).length) ≤ s.caps.capWords →
          exec .compress s = .next { s with ct := ⟨freqCount s.inBuf, Pbv.ofBits (s.inBuf.flatMap root.codeBits)⟩,
                                            err := .none, seq := .idle, call := none }))

/-- R106: an empty list or an empty payload decodes to the empty output, with no error. -/
def Obligations.DecompressOfAnEmptyPartGivesEmptyOutput : Prop :=
  ∀ s : State, s.ct.freq = [] ∨ s.ct.bits.bits = [] →
    exec .decompress s = .next { s with outBuf := [], err := .none, seq := .idle, call := none }

/-- R105, R102: one distinct symbol decodes to as many copies as the payload has bits, whatever the bits and the count;
when that is more than `CAP_OUT`, CapacityExceeded with `OUT` as it was. -/
def Obligations.DecompressRepeatsASingleSymbol : Prop :=
  ∀ (s : State) (e : FreqEntry), s.ct.freq = [e] →
    (allows s.caps.capOut s.ct.bits.bits.length = true →
      exec .decompress s = .next { s with outBuf := List.replicate s.ct.bits.bits.length e.sym,
                                          err := .none, seq := .idle, call := none }) ∧
    (allows s.caps.capOut s.ct.bits.bits.length = false →
      exec .decompress s = .next { s with err := .capacityExceeded, seq := .idle, call := none })

/-- R103, R104, R107, R102: a payload that is the paths of some leaves back to back, then the beginning of one more path,
decodes to the symbols of those leaves; the partial code is dropped. When there are more of them than `CAP_OUT`,
CapacityExceeded with `OUT` as it was. -/
def Obligations.DecompressWalksTheTree : Prop :=
  ∀ (s : State) (root : Machine.Tree) (codes : List (Symbol × List Bool)) (sym : Symbol) (rest more : List Bool),
    2 ≤ s.ct.freq.length → treeBuild s.ct.freq = some root →
    (∀ e ∈ codes, e ∈ root.paths) → (sym, rest ++ more) ∈ root.paths → more ≠ [] →
    s.ct.bits.bits = codes.flatMap Prod.snd ++ rest →
    (allows s.caps.capOut codes.length = true →
      exec .decompress s = .next { s with outBuf := codes.map Prod.fst, err := .none, seq := .idle, call := none }) ∧
    (allows s.caps.capOut codes.length = false →
      exec .decompress s = .next { s with err := .capacityExceeded, seq := .idle, call := none })

/-- R102, R107, R110: DECOMPRESS always ends: it writes `OUT` or raises CapacityExceeded and leaves it; the decoder
can not get stuck, and it emits at most one symbol per bit (R108). -/
def Obligations.DecompressAlwaysEnds : Prop :=
  decode 0x00000002 = .ok .decompress ∧
  ∀ s : State, ∃ o : List Symbol, o.length ≤ s.ct.bits.bits.length ∧
    (allows s.caps.capOut o.length = true →
      exec .decompress s = .next { s with outBuf := o, err := .none, seq := .idle, call := none }) ∧
    (allows s.caps.capOut o.length = false →
      exec .decompress s = .next { s with err := .capacityExceeded, seq := .idle, call := none })

/-- R109: the round trip. -/
def Obligations.CompressThenDecompressGivesTheInput : Prop :=
  ∀ s t u : State,
    exec .compress s = .next t → t.err = .none → exec .decompress t = .next u → u.err = .none →
    u.outBuf = s.inBuf

/-- R93, R146: DECOMPRESS of the same pairs in another order gives the same output. -/
def Obligations.DecompressDoesNotDependOnPairOrder : Prop :=
  ∀ (s t : State) (g : List FreqEntry), s.ct.freq.Perm g → (s.ct.freq.map FreqEntry.sym).Nodup →
    exec .decompress s = .next t →
    exec .decompress { s with ct := ⟨g, s.ct.bits⟩ } = .next { t with ct := ⟨g, s.ct.bits⟩ }

/-! ## The container -/

/-- R111, R112: both predicates look at the payload length only. -/
def Obligations.IsEmptyAndIsFullLookAtThePayload : Prop :=
  decode 0x00000005 = .ok .isEmpty ∧ decode 0x00000006 = .ok .isFull ∧
  ∀ s : State,
    exec .isEmpty s = .next { s with res := (if s.ct.bits.bits.length = 0 then 1 else 0),
                                     err := .none, seq := .idle, call := none } ∧
    exec .isFull s = .next { s with res := (if 0 < s.ct.bits.bits.length then 1 else 0),
                                    err := .none, seq := .idle, call := none }

/-- R59 to R62, R113, R120: the layout of the image and its length. -/
def Obligations.SerializedImageHasTheStatedLayout : Prop :=
  ∀ (c : Container) (cap : Nat), c.bits.wf cap → cap ≤ 2 ^ 58 - 1 → c.freq.length < 2 ^ 64 →
    (serialize c).length = 16 + 5 * c.freq.length + 8 * ceil64 c.bits.bits.length ∧
    memRead (serialize c) 0 8 = c.freq.length ∧
    memRead (serialize c) 8 8 = c.bits.bits.length ∧
    (∀ (k : Nat) (e : FreqEntry), c.freq[k]? = some e →
      memRead (serialize c) (16 + 5 * k) 1 = e.sym.toNat ∧
      memRead (serialize c) (17 + 5 * k) 4 = e.count.toNat) ∧
    (∀ (k : Nat) (w : Word), k < ceil64 c.bits.bits.length → c.bits.words[k]? = some w →
      memRead (serialize c) (16 + 5 * c.freq.length + 8 * k) 8 = w.toNat)

/-- R61: payload bit `i` is bit `7 − i mod 8` of the byte at offset `16 + 5·numPairs + 8·(i div 64) + 7 − (i mod 64) div 8`. -/
def Obligations.PayloadBitStandsAtItsFileByte : Prop :=
  ∀ (c : Container) (cap i : Nat) (b : Bool), c.bits.wf cap → c.bits.bits[i]? = some b →
    ∃ y : Byte,
      (serialize c)[16 + 5 * c.freq.length + 8 * (i / 64) + 7 - (i % 64) / 8]? = some y ∧
      y.getLsbD (7 - i % 8) = b

/-- R114: what SAVE does to `STORE` and `ERR`, with the frame: every other path and every other state is unchanged.
After WriteFailed nothing is said of the file but that it fits `CAP_FILE`: it is a free value, picked by the model's
own counter `failedWrites` (assumption 4). -/
def Obligations.SaveWritesOneFile : Prop :=
  decode 0x00000003 = .ok .save ∧
  ∀ s : State, Memory.wf s.store →
    (allows s.caps.capFile (serialize s.ct).length = false →
      exec .save s = .next { s with err := .capacityExceeded, seq := .idle, call := none }) ∧
    (allows s.caps.capFile (serialize s.ct).length = true → s.wrOk = true →
      ∃ st : List (Nat × File),
        exec .save s = .next { s with store := st, err := .none, seq := .idle, call := none } ∧
        fileAt st s.arg0.toNat = some (serialize s.ct) ∧
        ∀ q, q ≠ s.arg0.toNat → fileAt st q = fileAt s.store q) ∧
    (allows s.caps.capFile (serialize s.ct).length = true → s.wrOk = false →
      ∃ st : List (Nat × File),
        exec .save s = .next { s with store := st, err := .writeFailed, seq := .idle, call := none,
                                      failedWrites := s.failedWrites + 1 } ∧
        (∀ f, fileAt st s.arg0.toNat = some f → allows s.caps.capFile f.length = true) ∧
        ∀ q, q ≠ s.arg0.toNat → fileAt st q = fileAt s.store q)

/-- R116, R117, R115, R125: the failures of LOAD, in the order of the checks; each leaves the empty container. -/
def Obligations.LoadFailuresClearTheContainer : Prop :=
  ∀ s : State,
    (fileAt s.store s.arg0.toNat = none →
      exec .load s = .next { s with ct := ⟨[], ⟨[0], 64⟩⟩, err := .notFound, seq := .idle, call := none }) ∧
    (∀ f, fileAt s.store s.arg0.toNat = some f →
      (f.length < 16 ∨ f.length < declaredBytes f →
        exec .load s = .next { s with ct := ⟨[], ⟨[0], 64⟩⟩, err := .truncatedCorrupt, seq := .idle, call := none }) ∧
      (16 ≤ f.length → declaredBytes f ≤ f.length →
        allows s.caps.capPairs (memRead f 0 8) = false ∨ s.caps.capWords < max 1 (ceil64 (memRead f 8 8)) →
        exec .load s = .next { s with ct := ⟨[], ⟨[0], 64⟩⟩, err := .capacityExceeded, seq := .idle, call := none }))

/-- R115, R116, R61: a file long enough for its header loads: the pairs in file order, `totalBits` payload bits, each
at its place in the file; bytes beyond the declared ones and the unused positions of the last word do not matter. -/
def Obligations.LoadReadsPairsAndPayload : Prop :=
  decode 0x00000004 = .ok .load ∧
  ∀ (s : State) (f : File), s.caps.wf = true → fileAt s.store s.arg0.toNat = some f →
    16 ≤ f.length → declaredBytes f ≤ f.length →
    allows s.caps.capPairs (memRead f 0 8) = true → max 1 (ceil64 (memRead f 8 8)) ≤ s.caps.capWords →
    ∃ c : Container,
      exec .load s = .next { s with ct := c, err := .none, seq := .idle, call := none } ∧
      c.freq.length = memRead f 0 8 ∧
      (∀ k, k < memRead f 0 8 →
        ∃ e, c.freq[k]? = some e ∧ e.sym.toNat = memRead f (16 + 5 * k) 1 ∧ e.count.toNat = memRead f (17 + 5 * k) 4) ∧
      c.bits.wf s.caps.capWords ∧ c.bits.canonical ∧ c.bits.bits.length = memRead f 8 8 ∧
      (∀ i, i < memRead f 8 8 →
        ∃ y : Byte, f[16 + 5 * memRead f 0 8 + 8 * (i / 64) + 7 - (i % 64) / 8]? = some y ∧
          c.bits.bits[i]? = some (y.getLsbD (7 - i % 8)))

/-- R119: a container saved and loaded again is the same, words and freeBits included. -/
def Obligations.SaveThenLoadGivesTheContainer : Prop :=
  ∀ s t : State, s.DataInv → s.ct.freq.length < 2 ^ 64 →
    exec .save s = .next t → t.err = .none →
    ∃ u : State, exec .load t = .next u ∧ u.err = .none ∧ u.ct = s.ct

/-- R119, R109: the round trip through storage. -/
def Obligations.RoundTripThroughStorageGivesTheInput : Prop :=
  ∀ s a b c d : State, s.DataInv →
    exec .compress s = .next a → a.err = .none → exec .save a = .next b → b.err = .none →
    exec .load b = .next c → c.err = .none → exec .decompress c = .next d → d.err = .none →
    d.outBuf = s.inBuf

/-! ## The whole machine -/

/-- R145: every command ends, in every state. -/
def Obligations.EveryCommandEnds : Prop :=
  ∀ (i : Instr) (s : State), ∃ t : State, exec i s = .next t ∧ t.seq = .idle ∧ t.call = none

/-- R122: the error matrix. -/
def Obligations.CommandsRaiseOnlyTheirOwnKinds : Prop :=
  ∀ (i : Instr) (s t : State), exec i s = .next t → mayEndWith i t.err = true

/-- R130: the state after an error: `CMD` is the word written, `ERR` the code, all else as before, but for `CT` after a
failed LOAD and the file named by `ARG0` after WriteFailed. -/
def Obligations.ErrorsLeaveTheStateAlone : Prop :=
  ∀ (i : Instr) (s t : State), exec i s = .next t → t.err ≠ .none →
    t.cmd = s.cmd ∧ t.res = s.res ∧ t.arg0 = s.arg0 ∧ t.arg1 = s.arg1 ∧ t.inBuf = s.inBuf ∧ t.outBuf = s.outBuf ∧
    t.bv = s.bv ∧ t.call = none ∧ t.status.getLsbD 1 = true ∧
    (if i = .load then t.ct = ⟨[], ⟨[0], 64⟩⟩ else t.ct = s.ct) ∧
    (t.err ≠ .writeFailed → t.store = s.store) ∧
    (Memory.wf s.store → ∀ q, q ≠ s.arg0.toNat → fileAt t.store q = fileAt s.store q)

/-- R51: the frame of every command: each writes, beside `ERR`, only the state its row names. -/
def Obligations.CommandsWriteOnlyTheirOwnState : Prop :=
  ∀ (i : Instr) (s t : State), Memory.wf s.store → exec i s = .next t →
    t.inBuf = s.inBuf ∧ t.arg0 = s.arg0 ∧ t.arg1 = s.arg1 ∧ t.cmd = s.cmd ∧
    t.caps = s.caps ∧ t.wrOk = s.wrOk ∧ t.pending = s.pending ∧
    (i ≠ .decompress → t.outBuf = s.outBuf) ∧
    (i.signature.writesRes = false → t.res = s.res) ∧
    (i ≠ .compress → i ≠ .load → t.ct = s.ct) ∧
    (i ≠ .pbvClear → i ≠ .pbvPushBit → i ≠ .pbvPushBits → i ≠ .pbvPushVec → i ≠ .pbvPop → i ≠ .pbvSet →
      i ≠ .pbvResize → t.bv = s.bv) ∧
    (i ≠ .save → t.store = s.store) ∧
    (∀ q, q ≠ s.arg0.toNat → fileAt t.store q = fileAt s.store q)

/-- R18, R51: a command ignores an operand register it does not name. -/
def Obligations.CommandsIgnoreOperandsTheyDoNotName : Prop :=
  ∀ (i : Instr) (s t : State) (a b : Word), exec i s = .next t →
    (i.signature.usesArg0 = false → exec i { s with arg0 := a } = .next { t with arg0 := a }) ∧
    (i.signature.usesArg1 = false → exec i { s with arg1 := b } = .next { t with arg1 := b })

/-- R124, R27, R31: an earlier command's error and call-scoped state have no effect on the next command. -/
def Obligations.EarlierErrorsAndCallStateDoNotMatter : Prop :=
  ∀ (i : Instr) (s : State) (e : ErrKind) (c : Option Call), exec i { s with err := e, call := c } = exec i s

/-- R143: the premises hold after reset. -/
def Obligations.ResetStateMeetsThePremises : Prop := State.reset.Inv

/-- R143: every step keeps the premises. -/
def Obligations.EveryStepKeepsThePremises : Prop :=
  ∀ s t : State, s.Inv → step s = .next t → t.Inv

/-- R137, R148: a step stops only where the host breaks a duty, and no step is refused. -/
def Obligations.StepsStopOnlyOnABrokenHostDuty : Prop :=
  ∀ s : State,
    (∀ r, step s ≠ .refused r) ∧
    (step s = .fault .moveWhileRunning ↔ s.seq = .run ∧ s.pending ≠ []) ∧
    (step s = .fault .noSuchInElement ↔
      s.seq = .idle ∧ ∃ i v rest, s.pending = .writeInAt i v :: rest ∧ s.inBuf.length ≤ i) ∧
    (step s = .fault .fileTooLong ↔
      s.seq = .idle ∧ ∃ p f rest, s.pending = .putFile p f :: rest ∧ allows s.caps.capFile f.length = false)

/-- R144: with no host move left a step changes nothing. -/
def Obligations.IdleBlockStaysAsItIs : Prop :=
  ∀ s : State, s.pending = [] → step s = .next s

/-- R145, R143: however many host writes of commands, operands and input are pending, that many steps run them all to
the end, and the premises hold then. -/
def Obligations.HostWritesAllRunToTheirEnd : Prop :=
  ∀ s : State, s.Inv →
    (∀ m ∈ s.pending, (∃ w, m = .writeCmd w) ∨ (∃ v, m = .writeArg0 v) ∨ (∃ v, m = .writeArg1 v) ∨
      ∃ v, m = .writeIn v) →
    ∃ t : State, Host.Core.run Sys2Proof.core s.pending.length s = .next t ∧ t.pending = [] ∧ t.Inv

/-- R64, R63: each pseudo-instruction is its expansion, and the line of each of the 18 commands is the writes of the operands
R51 names for it, then the write of its command word. -/
def Obligations.PseudoInstructionsAreTheirExpansions : Prop :=
  (∀ p : Path,
    (Line.compressTo p).moves = programMoves [.command .compress 0 0, .command .save p 0] ∧
    (Line.decompressFrom p).moves = programMoves [.command .load p 0, .command .decompress 0 0] ∧
    (Line.roundtrip p).moves =
      programMoves [.command .compress 0 0, .command .save p 0, .command .load p 0, .command .decompress 0 0]) ∧
  (∀ v : Word,
    (Line.pbvPushByte v).moves = (Line.command .pbvPushBits v 8).moves ∧
    (Line.pbvPushWord v).moves = (Line.command .pbvPushBits v 64).moves) ∧
  (∀ (i : Instr) (a b : Word),
    (Line.command i a b).moves =
      (if i.signature.usesArg0 then [.writeArg0 a] else []) ++ (if i.signature.usesArg1 then [.writeArg1 b] else []) ++
        [.writeCmd (encode i)]) ∧
  (∀ i ∈ [Instr.compress, .decompress, .isEmpty, .isFull, .pbvClear, .pbvSize, .pbvPushVec, .pbvPop, .pbvPopcount],
    ∀ a b : Word, (Line.command i a b).moves = [.writeCmd (encode i)]) ∧
  (∀ i ∈ [Instr.save, .load, .pbvPushBit, .pbvGet, .pbvAt, .pbvResize, .pbvWord],
    ∀ a b : Word, (Line.command i a b).moves = [.writeArg0 a, .writeCmd (encode i)]) ∧
  (∀ i ∈ [Instr.pbvPushBits, .pbvSet],
    ∀ a b : Word, (Line.command i a b).moves = [.writeArg0 a, .writeArg1 b, .writeCmd (encode i)])

/-- R119, R109, R64, R144: a ROUNDTRIP line whose commands all end with `ERR` = 0 leaves the input in `OUT`. -/
def Obligations.RoundtripLineGivesTheInput : Prop :=
  ∀ (s t : State) (p : Path), s.Inv → s.pending = (Line.roundtrip p).moves →
    succeedsFor s.pending.length s = true → Host.Core.run Sys2Proof.core s.pending.length s = .next t →
    t.outBuf = s.inBuf ∧ t.err = .none

/-- R34, R24 to R26: what a host read returns between commands: the last word written to `CMD`; `STATUS` with BUSY 0 and
FAULT 1 exactly when `ERR` is not 0; the code in `ERR`; each other state's value; a path's file, or absent. The reading
itself changes nothing. -/
def Obligations.HostReadsReturnTheState : Prop :=
  ∀ s : State, s.seq = .idle →
    s.hostRead .cmd = .word32 s.cmd ∧
    s.hostRead .status = .word32 (if s.err = .none then 0 else 2) ∧
    s.hostRead .err = .word32 (BitVec.ofNat 32 s.err.code) ∧
    s.hostRead .arg0 = .word64 s.arg0 ∧ s.hostRead .arg1 = .word64 s.arg1 ∧ s.hostRead .res = .word64 s.res ∧
    s.hostRead .inBuf = .symbols s.inBuf ∧ s.hostRead .outBuf = .symbols s.outBuf ∧
    s.hostRead .ctFreq = .entries s.ct.freq ∧ s.hostRead .ctBits = .vector s.ct.bits ∧
    s.hostRead .bv = .vector s.bv ∧
    (∀ p : Path, s.hostRead (.file p) = .file (fileAt s.store p.toNat)) ∧
    (∀ (what : Readable) (rest : List HostMove), s.pending = .read what :: rest →
      step s = .next { s with pending := rest } ∧
      ∀ what', ({ s with pending := rest } : State).hostRead what' = s.hostRead what') ∧
    (∀ (w : Word32) (rest : List HostMove) (t : State), s.pending = .writeCmd w :: rest → step s = .next t →
      t.hostRead .cmd = .word32 w)

/-- R87, R89, R28: the order of the priority structure, as numbers; `remove_lowest` gives the member lower than every other
and leaves the others; the node made of two has their summed count, the smaller key, the first as left and the second as
right child; a leaf has its entry's count, and its symbol as key. -/
def Obligations.RemoveLowestAndMergeFollowTheOrder : Prop :=
  (∀ x y : PqNode, lower x y = true ↔
    x.node.count < y.node.count ∨
      (x.node.count = y.node.count ∧
        (x.node.key.toNat < y.node.key.toNat ∨ (x.node.key.toNat = y.node.key.toNat ∧ x.index < y.index)))) ∧
  (∀ pq : List PqNode, pq ≠ [] → (pq.map PqNode.index).Nodup →
    ∃ (m : PqNode) (rest : List PqNode), removeLowest pq = some (m, rest) ∧ pq.Perm (m :: rest) ∧
      ∀ x ∈ rest, lower m x = true) ∧
  (∀ a b : Machine.Tree, mergeNodes a b =
    .node (a.count + b.count) (if a.key.toNat ≤ b.key.toNat then a.key else b.key) a b) ∧
  (∀ (s : Symbol) (c : BitVec 32), (Machine.Tree.leaf s c).count = c.toNat ∧ (Machine.Tree.leaf s c).key = s) ∧
  (∀ (c : Nat) (k : Symbol) (l r : Machine.Tree),
    (Machine.Tree.node c k l r).count = c ∧ (Machine.Tree.node c k l r).key = k)

/-- R86, R88, R89, R91, R98: `tree_build` gives a tree exactly when the merge loop does: leaf `j` for entry `j`, numbered
`j`, then the two lowest nodes in the order of R87 become left and right child of the node numbered next, until one is
left; for every table, symbols that are not unique included. -/
def Obligations.TreeBuildMergesTheTwoLowest : Prop :=
  ∀ (f : List FreqEntry) (root : Machine.Tree), f ≠ [] →
    (treeBuild f = some root ↔
      MergesTo f.length (f.mapIdx fun j e => ⟨j, .leaf e.sym e.count⟩) root)
end

