-- ==== Sys2Proof/Laws/FrequencyCounter.lean ====
section
/-! SUPPORT. The laws of the frequency counter: one entry per distinct symbol, in the order of first occurrence. -/

namespace Sys2Proof.Machine

theorem freqCount_append (l : List Symbol) (s : Symbol) : freqCount (l ++ [s]) = countSymbol (freqCount l) s := by
  simp [freqCount]

theorem countSymbol_syms (ft : List FreqEntry) (s : Symbol) :
    (countSymbol ft s).map FreqEntry.sym =
      if s ∈ ft.map FreqEntry.sym then ft.map FreqEntry.sym else ft.map FreqEntry.sym ++ [s] := by
  induction ft with
  | nil => simp [countSymbol]
  | cons e rest ih =>
    unfold countSymbol
    by_cases h : e.sym = s
    · simp [h]
    · have h2 : s ≠ e.sym := fun x => h x.symm
      rw [if_neg h, List.map_cons, ih]
      simp only [List.map_cons, List.mem_cons, h2, false_or]
      split <;> simp

/-- The count of a symbol in a table, 0 where it has no entry. -/
def countIn (ft : List FreqEntry) (s : Symbol) : Nat :=
  match ft with
  | [] => 0
  | e :: rest => if e.sym = s then e.count.toNat else countIn rest s

theorem countIn_of_mem (ft : List FreqEntry) (h : (ft.map FreqEntry.sym).Nodup) (e : FreqEntry) (he : e ∈ ft) :
    countIn ft e.sym = e.count.toNat := by
  induction ft with
  | nil => simp at he
  | cons d rest ih =>
    simp only [List.map_cons, List.nodup_cons] at h
    unfold countIn
    rcases List.mem_cons.mp he with he | he
    · subst he; simp
    · have : d.sym ≠ e.sym := by
        intro x
        exact h.1 (x ▸ List.mem_map_of_mem he)
      rw [if_neg this]
      exact ih h.2 he

theorem countIn_countSymbol (ft : List FreqEntry) (s r : Symbol) (h : countIn ft s < 2 ^ 32 - 1) :
    countIn (countSymbol ft s) r = countIn ft r + if r = s then 1 else 0 := by
  induction ft with
  | nil =>
    simp only [countSymbol, countIn]
    by_cases hr : r = s
    · subst hr; simp
    · simp [hr, Ne.symm hr]
  | cons e rest ih =>
    simp only [countIn] at h
    unfold countSymbol
    by_cases he : e.sym = s
    · rw [if_pos he] at h
      rw [if_pos he]
      simp only [countIn]
      by_cases hr : e.sym = r
      · have : r = s := hr ▸ he
        rw [if_pos hr, if_pos hr, if_pos this, BitVec.toNat_add]
        simp only [BitVec.ofNat_eq_ofNat, BitVec.toNat_ofNat]
        omega
      · have : r ≠ s := fun x => hr (x ▸ he)
        rw [if_neg hr, if_neg hr, if_neg this, Nat.add_zero]
    · rw [if_neg he] at h
      rw [if_neg he]
      simp only [countIn]
      by_cases hr : e.sym = r
      · have : r ≠ s := fun x => he (x ▸ hr)
        rw [if_pos hr, if_pos hr, if_neg this, Nat.add_zero]
      · rw [if_neg hr, if_neg hr]
        exact ih h

/-- What the scan leaves for a prefix of the input (R81, R82). -/
structure Counted (l : List Symbol) (ft : List FreqEntry) : Prop where
  nodup : (ft.map FreqEntry.sym).Nodup
  mem   : ∀ s, s ∈ ft.map FreqEntry.sym ↔ s ∈ l
  order : (ft.map FreqEntry.sym).Pairwise fun a b => l.idxOf a < l.idxOf b

theorem freqCount_counted (l : List Symbol) : Counted l (freqCount l) := by
  induction l using List.reverseRecOn with
  | nil => exact ⟨by simp [freqCount], by simp [freqCount], by simp [freqCount]⟩
  | append_singleton l s ih =>
    have hs := countSymbol_syms (freqCount l) s
    rw [← freqCount_append] at hs
    have hmem := ih.mem
    have hidx : ∀ a, a ∈ l → (l ++ [s]).idxOf a = l.idxOf a := fun a ha => List.idxOf_append_of_mem ha
    have hord : ((freqCount l).map FreqEntry.sym).Pairwise
        fun a b => (l ++ [s]).idxOf a < (l ++ [s]).idxOf b := by
      refine ih.order.imp_of_mem ?_
      intro a b ha hb hab
      rw [hidx a ((hmem a).mp ha), hidx b ((hmem b).mp hb)]
      exact hab
    by_cases h : s ∈ (freqCount l).map FreqEntry.sym
    · rw [if_pos h] at hs
      refine ⟨hs ▸ ih.nodup, ?_, hs ▸ hord⟩
      intro r
      rw [hs, hmem]
      have := (hmem s).mp h
      simp only [List.mem_append, List.mem_singleton]
      exact ⟨Or.inl, fun x => x.elim id fun e => e ▸ this⟩
    · rw [if_neg h] at hs
      refine ⟨?_, ?_, ?_⟩
      · rw [hs, List.nodup_append]
        refine ⟨ih.nodup, by simp, ?_⟩
        intro a ha b hb e
        simp only [List.mem_singleton] at hb
        exact h (hb ▸ e ▸ ha)
      · intro r
        rw [hs]
        simp [hmem r]
      · rw [hs, List.pairwise_append]
        refine ⟨hord, by simp, ?_⟩
        intro a ha b hb
        simp only [List.mem_singleton] at hb
        subst hb
        have ha' := (hmem a).mp ha
        have hb' : b ∉ l := fun x => h ((hmem b).mpr x)
        rw [hidx a ha', List.idxOf_append_of_notMem hb']
        exact Nat.lt_of_lt_of_le (List.idxOf_lt_length_of_mem ha') (Nat.le_add_right _ _)

/-- The number of occurrences (R81), while it fits 32 bits (R83). -/
theorem countIn_freqCount (l : List Symbol) (h : l.length ≤ 2 ^ 32 - 1) (s : Symbol) :
    countIn (freqCount l) s = l.count s := by
  induction l using List.reverseRecOn generalizing s with
  | nil => rfl
  | append_singleton l a ih =>
    rw [List.length_append, List.length_singleton] at h
    have ih := ih (by omega)
    have hlt : countIn (freqCount l) a < 2 ^ 32 - 1 := by
      have := List.count_le_length (a := a) (l := l)
      rw [ih a]
      omega
    rw [freqCount_append, countIn_countSymbol _ _ _ hlt, ih s, List.count_append, List.count_singleton]
    by_cases e : s = a
    · subst e; simp
    · have : ¬ a = s := fun x => e x.symm
      simp [e, this]

theorem freqCount_ne_nil (l : List Symbol) (h : l ≠ []) : freqCount l ≠ [] := by
  intro hn
  obtain ⟨a, ha⟩ := List.exists_mem_of_ne_nil l h
  have := ((freqCount_counted l).mem a).mpr ha
  simp [hn] at this

/-- At most one entry per 8-bit symbol. -/
theorem freqCount_length_le (l : List Symbol) : (freqCount l).length ≤ 256 := by
  have h := (freqCount_counted l).nodup
  have h2 : (((freqCount l).map FreqEntry.sym).map BitVec.toNat).Nodup :=
    List.Nodup.map (fun a b => BitVec.eq_of_toNat_eq) h
  have h3 : ((freqCount l).map FreqEntry.sym).map BitVec.toNat ⊆ List.range 256 := by
    intro x hx
    obtain ⟨s, -, rfl⟩ := List.mem_map.mp hx
    have := s.isLt
    simpa using this
  have := (List.subperm_of_subset h2 h3).length_le
  simpa using this

end Sys2Proof.Machine
end

