-- ==== Sys2Proof/Laws/PackedBitVector.lean ====
section
/-! SUPPORT. The laws of the packed bit vector unit, all through `getBit`: a vector is its word count, its freeBits and
its bits. -/

namespace Sys2Proof.Machine

/-! ## Words -/

theorem getLsbD_putBit (w : Word) (p : Nat) (hp : p < 64) (b : Bool) (q : Nat) :
    (putBit w p b).getLsbD q = if q = p then b else w.getLsbD q := by
  unfold putBit
  cases b
  · by_cases hq : q = p
    · subst hq; simp [hp]
    · by_cases h64 : q < 64
      · simp [hq, h64]
      · simp [BitVec.getLsbD_of_ge _ _ (Nat.le_of_not_lt h64), hq]
  · by_cases hq : q = p
    · subst hq; simp [hp]
    · simp [BitVec.getLsbD_twoPow, hq, Ne.symm hq]

theorem getLsbD_zeroLow (w : Word) (k q : Nat) :
    (zeroLow w k).getLsbD q = (decide (k ≤ q) && w.getLsbD q) := by
  unfold zeroLow
  by_cases hq : q < 64
  · by_cases hk : k ≤ q
    · simp [hq, hk, Nat.not_lt.mpr hk, Nat.add_sub_cancel' hk]
    · simp [hq, hk, Nat.lt_of_not_le hk]
  · simp [BitVec.getLsbD_of_ge _ _ (Nat.le_of_not_lt hq)]

theorem getLsbD_lowBits (w : Word) (n q : Nat) (hn : n ≤ 64) :
    (lowBits w n).getLsbD q = (decide (q < n) && w.getLsbD q) := by
  unfold lowBits
  by_cases hq : q < n
  · simp [hq]; omega
  · simp [hq]

/-! ## Vectors as bits -/

theorem Pbv.getBit_of_ge (v : Pbv) (i : Nat) (h : 64 * v.words.length ≤ i) : v.getBit i = false := by
  have : v.words.length ≤ i / 64 := by omega
  simp [Pbv.getBit, Pbv.wordAt, List.getElem?_eq_none this]

/-- A vector is its word count, its freeBits and its bits. -/
theorem Pbv.ext_getBit (u v : Pbv) (hw : u.words.length = v.words.length) (hf : u.freeBits = v.freeBits)
    (hb : ∀ i, u.getBit i = v.getBit i) : u = v := by
  obtain ⟨uw, uf⟩ := u
  obtain ⟨vw, vf⟩ := v
  simp only at hw hf
  subst hf
  congr 1
  apply List.ext_getElem hw
  intro k h1 h2
  apply BitVec.eq_of_getLsbD_eq
  intro p hp
  have := hb (64 * k + (63 - p))
  have e1 : (64 * k + (63 - p)) / 64 = k := by omega
  have e2 : 63 - (64 * k + (63 - p)) % 64 = p := by omega
  simp only [Pbv.getBit, Pbv.wordAt, e1, e2] at this
  simpa [List.getD_eq_getElem, h1, h2] using this

@[simp] theorem Pbv.length_bits (v : Pbv) : v.bits.length = v.size := by simp [Pbv.bits]

theorem Pbv.getElem_bits (v : Pbv) (i : Nat) (h : i < v.bits.length) : v.bits[i] = v.getBit i := by
  simp [Pbv.bits]

theorem Pbv.getElem?_bits (v : Pbv) (i : Nat) :
    v.bits[i]? = if i < v.size then some (v.getBit i) else none := by
  by_cases h : i < v.size
  · simp [h, Pbv.bits]
  · simp [h, Pbv.bits]

/-- A bit string is a vector's as soon as the length and every bit agree. -/
theorem Pbv.bits_eq (v : Pbv) (l : List Bool) (hl : v.size = l.length)
    (hb : ∀ i (h : i < l.length), v.getBit i = l[i]) : v.bits = l := by
  apply List.ext_getElem (by simp [hl])
  intro i h1 h2
  rw [Pbv.getElem_bits]
  exact hb i h2

theorem Pbv.getBit_putWord (v : Pbv) (k : Nat) (w : Word) (hk : k < v.words.length) (i : Nat) :
    (v.putWord k w).getBit i = if i / 64 = k then w.getLsbD (63 - i % 64) else v.getBit i := by
  unfold Pbv.getBit Pbv.putWord Pbv.wordAt
  by_cases h : i / 64 = k
  · simp [h, List.getD_eq_getElem?_getD, hk]
  · simp [h, List.getD_eq_getElem?_getD, Ne.symm h]

@[simp] theorem Pbv.length_putWord (v : Pbv) (k : Nat) (w : Word) : (v.putWord k w).words.length = v.words.length := by
  simp [Pbv.putWord]

@[simp] theorem Pbv.freeBits_putWord (v : Pbv) (k : Nat) (w : Word) : (v.putWord k w).freeBits = v.freeBits := rfl

theorem Pbv.getBit_putBit (v : Pbv) (k p : Nat) (b : Bool) (hk : k < v.words.length) (hp : p < 64) (i : Nat) :
    (v.putWord k (putBit (v.wordAt k) p b)).getBit i = if i = 64 * k + (63 - p) then b else v.getBit i := by
  rw [Pbv.getBit_putWord _ _ _ hk]
  by_cases h : i / 64 = k
  · rw [if_pos h, getLsbD_putBit _ _ hp]
    have : (63 - i % 64 = p) ↔ (i = 64 * k + (63 - p)) := by omega
    simp only [this]
    split
    · rfl
    · simp [Pbv.getBit, h]
  · rw [if_neg h, if_neg (by omega)]

/-- `getBit` looks at the words only. -/
theorem Pbv.getBit_words (u : Pbv) (f i : Nat) : (Pbv.mk u.words f).getBit i = u.getBit i := rfl

theorem Pbv.getBit_congr (u v : Pbv) (h : u.words = v.words) (i : Nat) : u.getBit i = v.getBit i := by
  simp [Pbv.getBit, Pbv.wordAt, h]

theorem Pbv.getBit_append (ws : List Word) (w : Word) (f g : Nat) (i : Nat) :
    (Pbv.mk (ws ++ [w]) f).getBit i =
      if i / 64 = ws.length then w.getLsbD (63 - i % 64) else (Pbv.mk ws g).getBit i := by
  unfold Pbv.getBit Pbv.wordAt
  by_cases h : i / 64 = ws.length
  · simp [h, List.getD_eq_getElem?_getD]
  · simp only [h, if_false, List.getD_eq_getElem?_getD]
    by_cases h2 : i / 64 < ws.length
    · simp [List.getElem?_append_left h2]
    · rw [List.getElem?_eq_none (by simp; omega), List.getElem?_eq_none (by omega)]

/-! ## Well-formedness as a fact about bits -/

/-- The shape part of R21: at least one word, freeBits at most 64. -/
structure Pbv.Shape (v : Pbv) : Prop where
  pos  : 1 ≤ v.words.length
  free : v.freeBits ≤ 64
  zero : ∀ i, v.size ≤ i → v.getBit i = false

theorem Pbv.zeroFill_iff (v : Pbv) (h1 : 1 ≤ v.words.length) (h2 : v.freeBits ≤ 64) :
    zeroLow (v.wordAt (v.words.length - 1)) v.freeBits = v.wordAt (v.words.length - 1) ↔
      ∀ i, v.size ≤ i → v.getBit i = false := by
  constructor
  · intro h i hi
    by_cases hl : 64 * v.words.length ≤ i
    · exact Pbv.getBit_of_ge v i hl
    · unfold Pbv.size at hi
      have e : i / 64 = v.words.length - 1 := by omega
      unfold Pbv.getBit
      rw [e, ← h, getLsbD_zeroLow]
      have : ¬ v.freeBits ≤ 63 - i % 64 := by omega
      simp [this]
  · intro h
    apply BitVec.eq_of_getLsbD_eq
    intro p hp
    rw [getLsbD_zeroLow]
    by_cases hk : v.freeBits ≤ p
    · simp [hk]
    · have := h (64 * (v.words.length - 1) + (63 - p)) (by unfold Pbv.size; omega)
      unfold Pbv.getBit at this
      have e1 : (64 * (v.words.length - 1) + (63 - p)) / 64 = v.words.length - 1 := by omega
      have e2 : 63 - (64 * (v.words.length - 1) + (63 - p)) % 64 = p := by omega
      rw [e1, e2] at this
      simp [hk, this]

theorem Pbv.wf_iff (v : Pbv) (cap : Nat) : v.wf cap ↔ v.Shape ∧ v.words.length ≤ cap := by
  constructor
  · rintro ⟨h1, h2, h3, h4⟩
    exact ⟨⟨h1, h3, (Pbv.zeroFill_iff v h1 h3).mp h4⟩, h2⟩
  · rintro ⟨⟨h1, h3, h4⟩, h2⟩
    exact ⟨h1, h2, h3, (Pbv.zeroFill_iff v h1 h3).mpr h4⟩

theorem Pbv.wf.shape {v : Pbv} {cap : Nat} (h : v.wf cap) : v.Shape := ((Pbv.wf_iff v cap).mp h).1

theorem Pbv.shape_empty : Pbv.empty.Shape := by
  refine ⟨by decide, by decide, ?_⟩
  exact (Pbv.zeroFill_iff Pbv.empty (by decide) (by decide)).mp (by decide)

/-- Two well-formed vectors with the same bits and the same number of words are equal. -/
theorem Pbv.Shape.ext {u v : Pbv} (hu : u.Shape) (hv : v.Shape) (hl : u.words.length = v.words.length)
    (hb : u.bits = v.bits) : u = v := by
  have hs : u.size = v.size := by simpa using congrArg List.length hb
  have hf : u.freeBits = v.freeBits := by
    have := hu.pos; have := hu.free; have := hv.free
    unfold Pbv.size at hs; omega
  apply Pbv.ext_getBit _ _ hl hf
  intro i
  by_cases hi : i < u.size
  · have h := congrArg (fun l => l[i]?) hb
    simp only [Pbv.getElem?_bits, hi, ← hs, if_true] at h
    exact Option.some.inj h
  · rw [hu.zero i (by omega), hv.zero i (by omega)]

/-- The two forms of one bit sequence (R21, R150). -/
theorem Pbv.Shape.length_cases {u v : Pbv} (hu : u.Shape) (hv : v.Shape) (hs : u.size = v.size) :
    u.words.length = v.words.length ∨
    (u.words.length = v.words.length + 1 ∧ u.freeBits = 64 ∧ v.freeBits = 0) ∨
    (v.words.length = u.words.length + 1 ∧ v.freeBits = 64 ∧ u.freeBits = 0) := by
  have := hu.pos; have := hu.free; have := hv.free; have := hv.pos
  unfold Pbv.size at hs; omega

/-! ## Push -/

/-- The vector PBV_PUSH_BIT writes into: a zero word is appended when the last one is full. -/
theorem pbvPushBit_getBit (v : Pbv) (b : Bool) (hv : v.Shape) (i : Nat) :
    (pbvPushBit v b).getBit i = if i = v.size then b else v.getBit i := by
  unfold pbvPushBit
  have hp := hv.pos
  have hf := hv.free
  by_cases h0 : v.freeBits = 0
  · simp only [h0, if_true]
    rw [Pbv.getBit_words]
    rw [Pbv.getBit_putBit _ _ _ _ (by simp) (by omega)]
    have e : 64 * ((v.words ++ [0]).length - 1) + (63 - (64 - 1)) = v.size := by
      simp [Pbv.size, h0]
    rw [e]
    split
    · rfl
    · rw [Pbv.getBit_append _ _ _ v.freeBits]
      split
      · rename_i h
        rw [Pbv.getBit_of_ge v i (by omega)]; simp
      · rfl
  · simp only [h0, if_false]
    rw [Pbv.getBit_words]
    rw [Pbv.getBit_putBit _ _ _ _ (by omega) (by omega)]
    have e : 64 * (v.words.length - 1) + (63 - (v.freeBits - 1)) = v.size := by
      unfold Pbv.size; omega
    rw [e]

theorem pbvPushBit_length (v : Pbv) (b : Bool) :
    (pbvPushBit v b).words.length = v.words.length + (if v.freeBits = 0 then 1 else 0) := by
  unfold pbvPushBit
  by_cases h0 : v.freeBits = 0
  · simp [h0]
  · simp [h0]

theorem pbvPushBit_freeBits (v : Pbv) (b : Bool) :
    (pbvPushBit v b).freeBits = if v.freeBits = 0 then 63 else v.freeBits - 1 := by
  unfold pbvPushBit
  by_cases h0 : v.freeBits = 0
  · simp [h0]
  · simp [h0]

theorem pbvPushBit_size (v : Pbv) (b : Bool) (hv : v.Shape) : (pbvPushBit v b).size = v.size + 1 := by
  unfold Pbv.size
  rw [pbvPushBit_length, pbvPushBit_freeBits]
  have := hv.pos; have := hv.free
  split <;> omega

theorem Pbv.Shape.pushBit {v : Pbv} (hv : v.Shape) (b : Bool) : (pbvPushBit v b).Shape := by
  refine ⟨?_, ?_, ?_⟩
  · rw [pbvPushBit_length]; have := hv.pos; omega
  · rw [pbvPushBit_freeBits]; have := hv.free; split <;> omega
  · intro i hi
    rw [pbvPushBit_size _ _ hv] at hi
    rw [pbvPushBit_getBit _ _ hv, if_neg (by omega)]
    exact hv.zero i (by omega)

theorem pbvPushBit_bits (v : Pbv) (b : Bool) (hv : v.Shape) : (pbvPushBit v b).bits = v.bits ++ [b] := by
  apply Pbv.bits_eq
  · simp [pbvPushBit_size _ _ hv]
  · intro i h
    rw [pbvPushBit_getBit _ _ hv]
    simp only [List.length_append, Pbv.length_bits, List.length_singleton] at h
    by_cases hi : i = v.size
    · subst hi
      rw [List.getElem_append_right (by simp)]
      simp
    · rw [if_neg hi, List.getElem_append_left (by simp; omega), Pbv.getElem_bits]

/-- The new last word is never empty after a push. -/
theorem pbvPushBit_freeBits_lt (v : Pbv) (b : Bool) (hv : v.Shape) : (pbvPushBit v b).freeBits < 64 := by
  rw [pbvPushBit_freeBits]; have := hv.free; split <;> omega

/-- A vector is in the form with the fewest words unless its last word is empty beside others. -/
theorem Pbv.Shape.canonical_iff {v : Pbv} (hv : v.Shape) :
    v.canonical ↔ v.freeBits < 64 ∨ v.words.length = 1 := by
  have := hv.pos; have := hv.free
  unfold Pbv.canonical fewestWords ceil64 Pbv.size
  omega

/-! ## Folding pushes -/

theorem foldl_pushBit_shape (l : List Bool) (v : Pbv) (hv : v.Shape) : (l.foldl pbvPushBit v).Shape := by
  induction l generalizing v with
  | nil => exact hv
  | cons b l ih => exact ih _ (hv.pushBit b)

theorem foldl_pushBit_bits (l : List Bool) (v : Pbv) (hv : v.Shape) :
    (l.foldl pbvPushBit v).bits = v.bits ++ l := by
  induction l generalizing v with
  | nil => simp
  | cons b l ih => rw [List.foldl_cons, ih _ (hv.pushBit b), pbvPushBit_bits _ _ hv]; simp

theorem foldl_pushBit_freeBits (l : List Bool) (v : Pbv) (hv : v.Shape) (hl : l ≠ []) :
    (l.foldl pbvPushBit v).freeBits < 64 := by
  induction l generalizing v with
  | nil => exact absurd rfl hl
  | cons b l ih =>
    by_cases h : l = []
    · subst h; exact pbvPushBit_freeBits_lt v b hv
    · exact ih _ (hv.pushBit b) h

theorem foldl_pushBit_canonical (l : List Bool) (v : Pbv) (hv : v.Shape) (hc : v.canonical) :
    (l.foldl pbvPushBit v).canonical := by
  by_cases hl : l = []
  · subst hl; exact hc
  · exact (foldl_pushBit_shape l v hv).canonical_iff.mpr (Or.inl (foldl_pushBit_freeBits l v hv hl))

/-- The number of words after pushing `l`. -/
theorem foldl_pushBit_length (l : List Bool) (v : Pbv) (hv : v.Shape) :
    (l.foldl pbvPushBit v).words.length = max v.words.length (ceil64 (v.size + l.length)) := by
  by_cases hl : l = []
  · subst hl
    have := hv.pos; have := hv.free
    simp only [List.foldl_nil, List.length_nil, Nat.add_zero, ceil64, Pbv.size]
    omega
  · have hs := foldl_pushBit_shape l v hv
    have hf := foldl_pushBit_freeBits l v hv hl
    have hb : (l.foldl pbvPushBit v).size = v.size + l.length := by
      have := congrArg List.length (foldl_pushBit_bits l v hv)
      simpa using this
    have hlen : l.length ≠ 0 := by simpa using hl
    have := hs.pos; have := hv.pos; have := hv.free
    unfold Pbv.size at hb
    simp only [ceil64, Pbv.size]
    omega

theorem Pbv.shape_ofBits (l : List Bool) : (Pbv.ofBits l).Shape := foldl_pushBit_shape l _ Pbv.shape_empty

@[simp] theorem Pbv.bits_ofBits (l : List Bool) : (Pbv.ofBits l).bits = l := by
  have h : Pbv.empty.bits = [] := rfl
  unfold Pbv.ofBits
  rw [foldl_pushBit_bits l _ Pbv.shape_empty, h, List.nil_append]

@[simp] theorem Pbv.size_ofBits (l : List Bool) : (Pbv.ofBits l).size = l.length := by
  rw [← Pbv.length_bits, Pbv.bits_ofBits]

theorem Pbv.canonical_ofBits (l : List Bool) : (Pbv.ofBits l).canonical :=
  foldl_pushBit_canonical l _ Pbv.shape_empty rfl

/-- A canonical vector is made by pushing its bits. -/
theorem Pbv.Shape.eq_ofBits {v : Pbv} (hv : v.Shape) (hc : v.canonical) : v = Pbv.ofBits v.bits := by
  apply hv.ext (Pbv.shape_ofBits _)
  · have h2 := Pbv.canonical_ofBits v.bits
    unfold Pbv.canonical at hc h2
    rw [hc, h2]; simp
  · simp

/-- A vector that is the result of pushing `l` on `v`, by its bits and its word count. -/
theorem eq_foldl_pushBit {u v : Pbv} (l : List Bool) (hu : u.Shape) (hv : v.Shape)
    (hl : u.words.length = max v.words.length (ceil64 (v.size + l.length))) (hb : u.bits = v.bits ++ l) :
    u = l.foldl pbvPushBit v :=
  hu.ext (foldl_pushBit_shape l v hv) (hl.trans (foldl_pushBit_length l v hv).symm)
    (hb.trans (foldl_pushBit_bits l v hv).symm)

/-! ## Several bits at once -/

theorem length_msbFirst (w : Word) (n : Nat) : (msbFirst w n).length = n := by simp [msbFirst]

theorem pbvPushBits_length (v : Pbv) (w : Word) (n : Nat) :
    (pbvPushBits v w n).words.length = v.words.length + (if v.freeBits < n then 1 else 0) := by
  unfold pbvPushBits
  by_cases h : n ≤ v.freeBits
  · simp [h, Nat.not_lt.mpr h]
  · simp [h, Nat.lt_of_not_le h]

theorem pbvPushBits_freeBits (v : Pbv) (w : Word) (n : Nat) :
    (pbvPushBits v w n).freeBits = if n ≤ v.freeBits then v.freeBits - n else 64 - (n - v.freeBits) := by
  unfold pbvPushBits
  by_cases h : n ≤ v.freeBits
  · simp [h]
  · simp [h]

theorem pbvPushBits_size (v : Pbv) (w : Word) (n : Nat) (hv : v.Shape) (hn : n ≤ 64) :
    (pbvPushBits v w n).size = v.size + n := by
  unfold Pbv.size
  rw [pbvPushBits_length, pbvPushBits_freeBits]
  have := hv.pos; have := hv.free
  by_cases h : n ≤ v.freeBits
  · simp [h, Nat.not_lt.mpr h]; omega
  · simp [h, Nat.lt_of_not_le h]; omega

theorem pbvPushBits_getBit (v : Pbv) (w : Word) (n : Nat) (hv : v.Shape) (hn : n ≤ 64) (i : Nat) :
    (pbvPushBits v w n).getBit i =
      if i < v.size then v.getBit i else if i < v.size + n then w.getLsbD (n - 1 - (i - v.size)) else false := by
  have hp := hv.pos
  have hf := hv.free
  have hz := hv.zero i
  unfold pbvPushBits
  by_cases h : n ≤ v.freeBits
  · simp only [h, if_true]
    rw [Pbv.getBit_words]
    rw [Pbv.getBit_putWord _ _ _ (by omega)]
    by_cases hi : i / 64 = v.words.length - 1
    · rw [if_pos hi, BitVec.getLsbD_or]
      have e : (v.wordAt (v.words.length - 1)).getLsbD (63 - i % 64) = v.getBit i := by
        simp [Pbv.getBit, hi]
      rw [e, BitVec.getLsbD_shiftLeft, getLsbD_lowBits _ _ _ hn]
      unfold Pbv.size at *
      by_cases h1 : i < 64 * v.words.length - v.freeBits
      · have : ¬ (63 - i % 64 - (v.freeBits - n) < n) := by omega
        simp [h1, this]
      · rw [hz (by omega), if_neg h1]
        by_cases h2 : i < 64 * v.words.length - v.freeBits + n
        · have e3 : 63 - i % 64 - (v.freeBits - n) = n - 1 - (i - (64 * v.words.length - v.freeBits)) := by omega
          have e4 : ¬ (63 - i % 64 < v.freeBits - n) := by omega
          have e5 : n - 1 - (i - (64 * v.words.length - v.freeBits)) < n := by omega
          have e6 : 63 - i % 64 < 64 := by omega
          simp [h2, e3, e4, e5, e6]
        · have e4 : 63 - i % 64 < v.freeBits - n := by omega
          simp [h2, e4]
    · rw [if_neg hi]
      unfold Pbv.size at *
      by_cases h1 : i < 64 * v.words.length - v.freeBits
      · rw [if_pos h1]
      · rw [if_neg h1, if_neg (by omega), hz (by omega)]
  · simp only [h, if_false]
    rw [Pbv.getBit_append _ _ _ v.freeBits]
    simp only [Pbv.length_putWord]
    by_cases hi : i / 64 = v.words.length
    · rw [if_pos hi, BitVec.getLsbD_shiftLeft, getLsbD_lowBits _ _ _ hn]
      unfold Pbv.size at *
      rw [if_neg (by omega)]
      by_cases h2 : i < 64 * v.words.length - v.freeBits + n
      · have e3 : 63 - i % 64 - (64 - (n - v.freeBits)) = n - 1 - (i - (64 * v.words.length - v.freeBits)) := by omega
        have e4 : ¬ (63 - i % 64 < 64 - (n - v.freeBits)) := by omega
        have e5 : n - 1 - (i - (64 * v.words.length - v.freeBits)) < n := by omega
        have e6 : 63 - i % 64 < 64 := by omega
        simp [h2, e3, e4, e5, e6]
      · have e4 : 63 - i % 64 < 64 - (n - v.freeBits) := by omega
        simp [h2, e4]
    · rw [if_neg hi]
      rw [Pbv.getBit_words]
      rw [Pbv.getBit_putWord _ _ _ (by omega)]
      by_cases hi2 : i / 64 = v.words.length - 1
      · rw [if_pos hi2, BitVec.getLsbD_or, BitVec.getLsbD_ushiftRight, getLsbD_lowBits _ _ _ hn]
        have e : (v.wordAt (v.words.length - 1)).getLsbD (63 - i % 64) = v.getBit i := by
          simp [Pbv.getBit, hi2]
        rw [e]
        unfold Pbv.size at *
        by_cases h1 : i < 64 * v.words.length - v.freeBits
        · have : ¬ (n - v.freeBits + (63 - i % 64) < n) := by omega
          simp [h1, this]
        · have e3 : n - v.freeBits + (63 - i % 64) = n - 1 - (i - (64 * v.words.length - v.freeBits)) := by omega
          have e5 : n - 1 - (i - (64 * v.words.length - v.freeBits)) < n := by omega
          rw [hz (by omega), if_neg h1, if_pos (by omega), e3]
          simp [e5]
      · rw [if_neg hi2]
        unfold Pbv.size at *
        by_cases h1 : i < 64 * v.words.length - v.freeBits
        · rw [if_pos h1]
        · rw [if_neg h1, if_neg (by omega), hz (by omega)]

theorem Pbv.Shape.pushBits {v : Pbv} (hv : v.Shape) (w : Word) (n : Nat) (hn : n ≤ 64) :
    (pbvPushBits v w n).Shape := by
  refine ⟨?_, ?_, ?_⟩
  · rw [pbvPushBits_length]; have := hv.pos; omega
  · rw [pbvPushBits_freeBits]; have := hv.free; split <;> omega
  · intro i hi
    rw [pbvPushBits_size _ _ _ hv hn] at hi
    rw [pbvPushBits_getBit _ _ _ hv hn, if_neg (by omega), if_neg (by omega)]

theorem pbvPushBits_bits (v : Pbv) (w : Word) (n : Nat) (hv : v.Shape) (hn : n ≤ 64) :
    (pbvPushBits v w n).bits = v.bits ++ msbFirst w n := by
  apply Pbv.bits_eq
  · simp [pbvPushBits_size _ _ _ hv hn, length_msbFirst]
  · intro i h
    simp only [List.length_append, Pbv.length_bits, length_msbFirst] at h
    rw [pbvPushBits_getBit _ _ _ hv hn]
    by_cases hi : i < v.size
    · rw [if_pos hi, List.getElem_append_left (by simpa using hi), Pbv.getElem_bits]
    · rw [if_neg hi, if_pos h, List.getElem_append_right (by simp; omega)]
      simp [msbFirst]

/-- R80, first half, as a law of the unit. -/
theorem pbvPushBits_eq_foldl (v : Pbv) (w : Word) (n : Nat) (hv : v.Shape) (h1 : 1 ≤ n) (hn : n ≤ 64) :
    pbvPushBits v w n = (msbFirst w n).foldl pbvPushBit v := by
  apply eq_foldl_pushBit _ (hv.pushBits w n hn) hv _ (pbvPushBits_bits v w n hv hn)
  rw [pbvPushBits_length, length_msbFirst]
  have := hv.pos; have := hv.free
  simp only [ceil64, Pbv.size]
  split <;> omega

/-! ## A whole vector at once -/

theorem bits_eq_words (v : Pbv) (hv : v.Shape) :
    v.bits = (v.words.take (v.words.length - 1)).flatMap (fun w => msbFirst w 64) ++
      msbFirst (v.wordAt (v.words.length - 1) >>> v.freeBits) (64 - v.freeBits) := by
  have hp := hv.pos
  have hf := hv.free
  have hlen : ∀ l : List Word, (l.flatMap fun w => msbFirst w 64).length = 64 * l.length := by
    intro l
    induction l with
    | nil => rfl
    | cons a l ih => simp [length_msbFirst, ih]; omega
  have hget : ∀ (l : List Word) (i : Nat) (h : i < (l.flatMap fun w => msbFirst w 64).length)
      (h2 : i / 64 < l.length), (l.flatMap fun w => msbFirst w 64)[i] = (l[i / 64]).getLsbD (63 - i % 64) := by
    intro l
    induction l with
    | nil => intro i h h2; simp at h2
    | cons a l ih =>
      intro i h h2
      simp only [List.flatMap_cons] at h ⊢
      by_cases hi : i < 64
      · rw [List.getElem_append_left (by simpa [length_msbFirst] using hi)]
        have e : i / 64 = 0 := by omega
        have e2 : i % 64 = i := by omega
        simp [msbFirst, e, e2]
      · have e1 : (i - 64) / 64 = i / 64 - 1 := by omega
        have e2 : (i - 64) % 64 = i % 64 := by omega
        rw [List.getElem_append_right (by simp [length_msbFirst]; omega)]
        simp only [length_msbFirst]
        have h3 : i - 64 < (l.flatMap fun w => msbFirst w 64).length := by
          simp only [List.length_append, length_msbFirst] at h; omega
        have h4 : (i - 64) / 64 < l.length := by simp at h2; omega
        rw [ih (i - 64) h3 h4]
        have e3 : i / 64 = (i - 64) / 64 + 1 := by omega
        simp only [e3, List.getElem_cons_succ, e2]
  apply Pbv.bits_eq
  · simp only [List.length_append, hlen, length_msbFirst, List.length_take, Pbv.size]; omega
  · intro i h
    simp only [List.length_append, hlen, length_msbFirst, List.length_take] at h
    by_cases hi : i < 64 * (v.words.length - 1)
    · rw [List.getElem_append_left (by rw [hlen]; simp; omega),
        hget _ _ _ (by simp; omega)]
      have : i / 64 < v.words.length := by omega
      simp [Pbv.getBit, Pbv.wordAt, this]
    · rw [List.getElem_append_right (by rw [hlen]; simp; omega)]
      have e1 : i / 64 = v.words.length - 1 := by omega
      simp only [msbFirst, List.getElem_map, List.getElem_range, BitVec.getLsbD_ushiftRight, Pbv.getBit, e1]
      congr 1
      have hl := hlen (v.words.take (v.words.length - 1))
      simp only [msbFirst, List.length_take] at hl
      rw [hl]
      omega

theorem foldl_pushBits64 (ws : List Word) (v : Pbv) (hv : v.Shape) :
    ws.foldl (fun u w => pbvPushBits u w 64) v =
      (ws.flatMap fun w => msbFirst w 64).foldl pbvPushBit v := by
  induction ws generalizing v with
  | nil => rfl
  | cons w ws ih =>
    rw [List.foldl_cons, ih _ (hv.pushBits w 64 (Nat.le_refl _)), List.flatMap_cons, List.foldl_append,
      pbvPushBits_eq_foldl v w 64 hv (by omega) (Nat.le_refl _)]

/-- R80, second half, as a law of the unit. -/
theorem pbvPushVec_eq_foldl (v o : Pbv) (hv : v.Shape) (ho : o.Shape) :
    pbvPushVec v o = o.bits.foldl pbvPushBit v := by
  rw [bits_eq_words o ho, List.foldl_append]
  rw [show pbvPushVec v o = if 0 < 64 - o.freeBits then
      pbvPushBits ((o.words.take (o.words.length - 1)).foldl (fun u w => pbvPushBits u w 64) v)
        (o.wordAt (o.words.length - 1) >>> o.freeBits) (64 - o.freeBits)
      else (o.words.take (o.words.length - 1)).foldl (fun u w => pbvPushBits u w 64) v from rfl]
  rw [foldl_pushBits64 _ _ hv]
  have hs := foldl_pushBit_shape ((o.words.take (o.words.length - 1)).flatMap fun w => msbFirst w 64) v hv
  by_cases ht : 0 < 64 - o.freeBits
  · simp only [ht, if_true]
    exact pbvPushBits_eq_foldl _ _ _ hs ht (by omega)
  · simp only [ht, if_false]
    have : 64 - o.freeBits = 0 := by omega
    simp [this, msbFirst]

theorem Pbv.Shape.pushVec {v o : Pbv} (hv : v.Shape) (ho : o.Shape) : (pbvPushVec v o).Shape := by
  rw [pbvPushVec_eq_foldl v o hv ho]; exact foldl_pushBit_shape _ _ hv

theorem pbvPushVec_bits (v o : Pbv) (hv : v.Shape) (ho : o.Shape) :
    (pbvPushVec v o).bits = v.bits ++ o.bits := by
  rw [pbvPushVec_eq_foldl v o hv ho]; exact foldl_pushBit_bits _ _ hv

theorem pbvPushVec_length (v o : Pbv) (hv : v.Shape) (ho : o.Shape) :
    (pbvPushVec v o).words.length = pushVecWords v o := by
  rw [pbvPushVec_eq_foldl v o hv ho, foldl_pushBit_length _ _ hv]; simp [pushVecWords]

/-! ## Pop -/

theorem pbvPopBit_length (v : Pbv) :
    (pbvPopBit v).words.length = if v.freeBits = 64 then v.words.length - 1 else v.words.length := by
  unfold pbvPopBit
  by_cases h : v.freeBits = 64
  · simp [h]
  · simp [h]

theorem pbvPopBit_freeBits (v : Pbv) :
    (pbvPopBit v).freeBits = if v.freeBits = 64 then 1 else v.freeBits + 1 := by
  unfold pbvPopBit
  by_cases h : v.freeBits = 64
  · simp [h]
  · simp [h]

theorem pbvPopBit_getBit (v : Pbv) (hv : v.Shape) (hs : v.size ≠ 0) (i : Nat) :
    (pbvPopBit v).getBit i = if i + 1 = v.size then false else v.getBit i := by
  have hp := hv.pos
  have hf := hv.free
  unfold pbvPopBit
  by_cases h : v.freeBits = 64
  · simp only [h, if_true]
    have h2 : 2 ≤ v.words.length := by unfold Pbv.size at hs; omega
    rw [Pbv.getBit_words]
    rw [Pbv.getBit_putBit _ _ _ _ (by simp; omega) (by omega)]
    simp only [List.length_dropLast]
    have e : (i = 64 * (v.words.length - 1 - 1) + (63 - 0)) ↔ i + 1 = v.size := by
      unfold Pbv.size; omega
    simp only [e]
    split
    · rfl
    · have hd : v.words = v.words.dropLast ++ [v.words.getLast (by intro hn; simp [hn] at hp)] :=
        (List.dropLast_concat_getLast _).symm
      by_cases hi : i / 64 = v.words.length - 1
      · rw [Pbv.getBit_of_ge _ _ (by simp; omega), hv.zero i (by unfold Pbv.size; omega)]
      · rw [Pbv.getBit_congr v ⟨v.words.dropLast ++ [v.words.getLast (by intro hn; simp [hn] at hp)], v.freeBits⟩ hd,
          Pbv.getBit_append _ _ _ 0, if_neg (by simpa using hi)]
  · simp only [h, if_false]
    rw [Pbv.getBit_words]
    rw [Pbv.getBit_putBit _ _ _ _ (by omega) (by omega)]
    have e : (i = 64 * (v.words.length - 1) + (63 - v.freeBits)) ↔ i + 1 = v.size := by
      unfold Pbv.size; omega
    simp only [e]

theorem pbvPopBit_size (v : Pbv) (hv : v.Shape) (hs : v.size ≠ 0) : (pbvPopBit v).size + 1 = v.size := by
  have := hv.pos; have := hv.free
  unfold Pbv.size at *
  rw [pbvPopBit_length, pbvPopBit_freeBits]
  split <;> omega

theorem Pbv.Shape.popBit {v : Pbv} (hv : v.Shape) (hs : v.size ≠ 0) : (pbvPopBit v).Shape := by
  have := hv.pos; have := hv.free
  refine ⟨?_, ?_, ?_⟩
  · rw [pbvPopBit_length]; unfold Pbv.size at hs; split <;> omega
  · rw [pbvPopBit_freeBits]; split <;> omega
  · intro i hi
    have hz := pbvPopBit_size v hv hs
    rw [pbvPopBit_getBit v hv hs]
    split
    · rfl
    · exact hv.zero i (by omega)

theorem pbvPopBit_bits (v : Pbv) (hv : v.Shape) (hs : v.size ≠ 0) : (pbvPopBit v).bits = v.bits.dropLast := by
  have hz := pbvPopBit_size v hv hs
  apply Pbv.bits_eq
  · simp; omega
  · intro i h
    simp only [List.length_dropLast, Pbv.length_bits] at h
    rw [pbvPopBit_getBit v hv hs, if_neg (by omega), List.getElem_dropLast, Pbv.getElem_bits]

/-! ## Set, resize, popcount -/

theorem pbvSet_getBit (v : Pbv) (k : Nat) (b : Bool) (h : k < v.size) (i : Nat) :
    (v.putWord (k / 64) (putBit (v.wordAt (k / 64)) (63 - k % 64) b)).getBit i = if i = k then b else v.getBit i := by
  rw [Pbv.getBit_putBit _ _ _ _ (by unfold Pbv.size at h; omega) (by omega)]
  have : 64 * (k / 64) + (63 - (63 - k % 64)) = k := by omega
  rw [this]

theorem Pbv.Shape.setBit {v : Pbv} (hv : v.Shape) (k : Nat) (b : Bool) (h : k < v.size) :
    (v.putWord (k / 64) (putBit (v.wordAt (k / 64)) (63 - k % 64) b)).Shape := by
  refine ⟨by simpa using hv.pos, by simpa using hv.free, ?_⟩
  intro i hi
  have e : (v.putWord (k / 64) (putBit (v.wordAt (k / 64)) (63 - k % 64) b)).size = v.size := by simp [Pbv.size]
  rw [e] at hi
  rw [pbvSet_getBit v k b h, if_neg (by omega)]
  exact hv.zero i hi

theorem pbvSet_bits (v : Pbv) (k : Nat) (b : Bool) (h : k < v.size) :
    (v.putWord (k / 64) (putBit (v.wordAt (k / 64)) (63 - k % 64) b)).bits = v.bits.set k b := by
  apply Pbv.bits_eq
  · simp [Pbv.size]
  · intro i hi
    rw [pbvSet_getBit v k b h, List.getElem_set]
    by_cases e : i = k
    · simp [e]
    · rw [if_neg e, if_neg (Ne.symm e), Pbv.getElem_bits]

/-- The vector PBV_RESIZE makes, without its capacity check. -/
def resized (v : Pbv) (n : Nat) : Pbv :=
  let l := fewestWords n
  let ws := v.words.take l ++ List.replicate (l - v.words.length) 0
  let free := 64 * l - n
  ⟨ws.set (l - 1) (zeroLow (ws.getD (l - 1) 0) free), free⟩

theorem pbvResize_eq (cap : Nat) (v : Pbv) (n : Nat) :
    pbvResize cap v n = if cap < fewestWords n then .error .capacityExceeded else .ok (resized v n) := rfl

theorem resized_length (v : Pbv) (n : Nat) : (resized v n).words.length = fewestWords n := by
  simp [resized]; omega

theorem resized_freeBits (v : Pbv) (n : Nat) : (resized v n).freeBits = 64 * fewestWords n - n := rfl

theorem fewestWords_bounds (n : Nat) : n ≤ 64 * fewestWords n ∧ 1 ≤ fewestWords n ∧ 64 * fewestWords n ≤ n + 64 := by
  unfold fewestWords ceil64; omega

theorem resized_size (v : Pbv) (n : Nat) : (resized v n).size = n := by
  have := fewestWords_bounds n
  unfold Pbv.size
  rw [resized_length, resized_freeBits]; omega

theorem resized_getBit (v : Pbv) (n : Nat) (i : Nat) :
    (resized v n).getBit i = (decide (i < n) && v.getBit i) := by
  have hb := fewestWords_bounds n
  have hl := resized_length v n
  by_cases hbig : 64 * fewestWords n ≤ i
  · rw [Pbv.getBit_of_ge _ _ (by rw [hl]; exact hbig)]
    have : ¬ i < n := by omega
    simp [this]
  · have hw : (Pbv.mk (v.words.take (fewestWords n) ++ List.replicate (fewestWords n - v.words.length) 0)
        v.freeBits).getBit i = v.getBit i := by
      unfold Pbv.getBit Pbv.wordAt
      simp only [List.getD_eq_getElem?_getD]
      by_cases h : i / 64 < v.words.length
      · rw [List.getElem?_append_left (by simp; omega), List.getElem?_take, if_pos (by omega)]
      · rw [List.getElem?_append_right (by simp; omega), List.getElem?_eq_none (by omega : v.words.length ≤ i / 64)]
        rw [List.getElem?_replicate]
        split <;> simp
    rw [← hw]
    have e : resized v n = { (Pbv.mk (v.words.take (fewestWords n) ++ List.replicate (fewestWords n - v.words.length) 0)
        v.freeBits).putWord (fewestWords n - 1) (zeroLow
          ((v.words.take (fewestWords n) ++ List.replicate (fewestWords n - v.words.length) 0).getD (fewestWords n - 1) 0)
          (64 * fewestWords n - n)) with freeBits := 64 * fewestWords n - n } := rfl
    rw [e, Pbv.getBit_words]
    rw [Pbv.getBit_putWord _ _ _ (by simp; omega)]
    by_cases hi : i / 64 = fewestWords n - 1
    · rw [if_pos hi, getLsbD_zeroLow]
      have : (64 * fewestWords n - n ≤ 63 - i % 64) ↔ i < n := by omega
      simp only [this, Pbv.getBit, Pbv.wordAt, hi]
    · rw [if_neg hi]
      have : i < n := by omega
      simp [this]

theorem resized_shape (v : Pbv) (n : Nat) : (resized v n).Shape := by
  have hb := fewestWords_bounds n
  refine ⟨by rw [resized_length]; omega, by rw [resized_freeBits]; omega, ?_⟩
  intro i hi
  rw [resized_size] at hi
  rw [resized_getBit]
  have : ¬ i < n := by omega
  simp [this]

theorem resized_bits (v : Pbv) (n : Nat) (hv : v.Shape) :
    (resized v n).bits = v.bits.take n ++ List.replicate (n - v.bits.length) false := by
  apply Pbv.bits_eq
  · rw [resized_size]; simp; omega
  · intro i h
    simp only [List.length_append, List.length_take, Pbv.length_bits, List.length_replicate] at h
    rw [resized_getBit]
    by_cases hi : i < v.size
    · rw [List.getElem_append_left (by simp; omega), List.getElem_take, Pbv.getElem_bits]
      have : i < n := by omega
      simp [this]
    · rw [List.getElem_append_right (by simp; omega), hv.zero i (by omega)]
      simp

theorem onesIn_eq_count (w : Word) : onesIn w = (msbFirst w 64).count true := by
  have h : msbFirst w 64 = ((List.range 64).map w.getLsbD).reverse := by
    apply List.ext_getElem (by simp [msbFirst])
    intro i h1 h2
    simp [msbFirst]
  rw [h, List.count_reverse]
  unfold onesIn
  rw [List.count_eq_countP, List.countP_map]
  congr 1
  funext p
  simp

theorem pbvPopcount_eq_count (v : Pbv) (hv : v.Shape) : pbvPopcount v = v.bits.count true := by
  have hp := hv.pos
  have hf := hv.free
  have hne : v.words ≠ [] := by intro h; simp [h] at hp
  have hsplit : v.words = v.words.take (v.words.length - 1) ++ [v.wordAt (v.words.length - 1)] := by
    have h1 : v.words.take (v.words.length - 1) = v.words.dropLast := List.dropLast_eq_take.symm
    have h2 : v.wordAt (v.words.length - 1) = v.words.getLast hne := by
      simp [Pbv.wordAt, List.getLast_eq_getElem, List.length_pos_iff.mpr hne]
    rw [h1, h2, List.dropLast_concat_getLast]
  have hlast : onesIn (v.wordAt (v.words.length - 1)) =
      (msbFirst (v.wordAt (v.words.length - 1) >>> v.freeBits) (64 - v.freeBits)).count true := by
    rw [onesIn_eq_count]
    have : msbFirst (v.wordAt (v.words.length - 1)) 64 =
        msbFirst (v.wordAt (v.words.length - 1) >>> v.freeBits) (64 - v.freeBits) ++ List.replicate v.freeBits false := by
      apply List.ext_getElem (by simp [msbFirst]; omega)
      intro i h1 h2
      simp only [length_msbFirst] at h1
      by_cases hi : i < 64 - v.freeBits
      · rw [List.getElem_append_left (by simpa [length_msbFirst] using hi)]
        have : v.freeBits + (64 - v.freeBits - 1 - i) = 63 - i := by omega
        simp [msbFirst, this]
      · rw [List.getElem_append_right (by simp [length_msbFirst]; omega)]
        have hz := hv.zero (64 * (v.words.length - 1) + i) (by unfold Pbv.size; omega)
        have e1 : (64 * (v.words.length - 1) + i) / 64 = v.words.length - 1 := by omega
        have e2 : (64 * (v.words.length - 1) + i) % 64 = i := by omega
        simp only [Pbv.getBit, e1, e2] at hz
        simp [msbFirst, hz]
    rw [this, List.count_append, List.count_replicate]
    simp
  rw [bits_eq_words v hv, List.count_append, ← hlast]
  have hsum : ∀ l : List Word, (l.map onesIn).sum = (l.flatMap fun w => msbFirst w 64).count true := by
    intro l
    induction l with
    | nil => rfl
    | cons a l ih => simp [ih, onesIn_eq_count, List.count_append]
  rw [← hsum]
  unfold pbvPopcount
  conv_lhs => rw [hsplit]
  simp

/-! ## The appends as one operation -/

/-- An append keeps the shape and adds its bits. -/
theorem PushOp.applyTo_spec (v : Pbv) (hv : v.Shape) (cap : Nat) (op : PushOp) (h : op.wf cap) :
    (op.applyTo v).Shape ∧ (op.applyTo v).bits = v.bits ++ op.bits := by
  cases op with
  | bit b => exact ⟨hv.pushBit b, pbvPushBit_bits v b hv⟩
  | low w n => exact ⟨hv.pushBits w n h.2, pbvPushBits_bits v w n hv h.2⟩
  | vec o => exact ⟨hv.pushVec (Pbv.wf.shape h), pbvPushVec_bits v o hv (Pbv.wf.shape h)⟩

end Sys2Proof.Machine
end

