-- ==== Sys2Proof/Laws/TreeBuilder.lean ====
section
/-! SUPPORT. The laws of the tree builder and of the dictionary. -/

namespace Sys2Proof.Machine

/-! ## Fields of a node -/

@[simp] theorem Tree.count_leaf (s : Symbol) (c : BitVec 32) : (Tree.leaf s c).count = c.toNat := rfl
@[simp] theorem Tree.count_node (c : Nat) (k : Symbol) (l r : Tree) : (Tree.node c k l r).count = c := rfl
@[simp] theorem Tree.key_leaf (s : Symbol) (c : BitVec 32) : (Tree.leaf s c).key = s := rfl
@[simp] theorem Tree.key_node (c : Nat) (k : Symbol) (l r : Tree) : (Tree.node c k l r).key = k := rfl

@[simp] theorem Tree.leaves_leaf (s : Symbol) (c : BitVec 32) : (Tree.leaf s c).leaves = [⟨s, c⟩] := rfl
@[simp] theorem Tree.leaves_node (c : Nat) (k : Symbol) (l r : Tree) :
    (Tree.node c k l r).leaves = l.leaves ++ r.leaves := rfl
@[simp] theorem Tree.paths_leaf (s : Symbol) (c : BitVec 32) : (Tree.leaf s c).paths = [(s, [])] := rfl
@[simp] theorem Tree.isLeaf_leaf (s : Symbol) (c : BitVec 32) : (Tree.leaf s c).isLeaf = true := rfl
@[simp] theorem Tree.isLeaf_node (c : Nat) (k : Symbol) (l r : Tree) : (Tree.node c k l r).isLeaf = false := rfl

theorem key_mergeNodes (a b : Tree) : (mergeNodes a b).key = if a.key ≤ b.key then a.key else b.key := rfl

/-! ## The priority structure -/

theorem removeLowest_eq_none (pq : List PqNode) : removeLowest pq = none ↔ pq = [] := by
  cases pq with
  | nil => simp [removeLowest]
  | cons x xs =>
    simp only [removeLowest]
    cases removeLowest xs with
    | none => simp
    | some m => simp; split <;> simp

/-- `remove_lowest` removes one member and keeps the others. -/
theorem removeLowest_perm (pq : List PqNode) (m : PqNode) (rest : List PqNode)
    (h : removeLowest pq = some (m, rest)) : pq.Perm (m :: rest) := by
  induction pq generalizing m rest with
  | nil => simp [removeLowest] at h
  | cons x xs ih =>
    simp only [removeLowest] at h
    cases hx : removeLowest xs with
    | none =>
      rw [hx] at h
      have : xs = [] := (removeLowest_eq_none xs).mp hx
      simp only [Option.some.injEq, Prod.mk.injEq] at h
      rw [this, ← h.1, ← h.2]
    | some p =>
      obtain ⟨m', rest'⟩ := p
      rw [hx] at h
      simp only at h
      have hp := ih m' rest' hx
      split at h
      · simp only [Option.some.injEq, Prod.mk.injEq] at h
        rw [← h.1, ← h.2]
      · simp only [Option.some.injEq, Prod.mk.injEq] at h
        rw [← h.1, ← h.2]
        exact (hp.cons x).trans (List.Perm.swap m' x rest')

theorem lower_iff (x y : PqNode) :
    lower x y = true ↔ x.node.count < y.node.count ∨ (x.node.count = y.node.count ∧
      (x.node.key < y.node.key ∨ (x.node.key = y.node.key ∧ x.index < y.index))) := by
  simp [lower]

theorem lower_trans (x y z : PqNode) (h1 : lower x y = true) (h2 : lower y z = true) : lower x z = true := by
  rw [lower_iff, BitVec.lt_def] at *
  rcases h1 with h1 | ⟨c1, h1⟩ <;> rcases h2 with h2 | ⟨c2, h2⟩
  · left; omega
  · left; omega
  · left; omega
  · right
    refine ⟨by omega, ?_⟩
    rcases h1 with h1 | ⟨k1, h1⟩ <;> rcases h2 with h2 | ⟨k2, h2⟩
    · left; omega
    · left; rw [← k2]; exact h1
    · left; rw [k1]; exact h2
    · right; exact ⟨k1.trans k2, by omega⟩

theorem lower_asymm (x y : PqNode) (h1 : lower x y = true) : lower y x = false := by
  by_contra h
  have h2 : lower y x = true := by simpa using h
  rw [lower_iff, BitVec.lt_def] at h1 h2
  rcases h1 with h1 | ⟨c1, h1⟩ <;> rcases h2 with h2 | ⟨c2, h2⟩
  · omega
  · omega
  · omega
  · rcases h1 with h1 | ⟨k1, h1⟩ <;> rcases h2 with h2 | ⟨k2, h2⟩
    · omega
    · rw [k2] at h1; omega
    · rw [k1] at h2; omega
    · omega

/-- `lower` is the order of R87. -/
theorem lower_iff_below (x y : PqNode) : lower x y = true ↔ x.Below y := by
  rw [lower_iff, BitVec.lt_def, ← BitVec.toNat_inj]
  rfl

/-- Of two nodes with different numbers one is lower. -/
theorem lower_total (x y : PqNode) (h : x.index ≠ y.index) : lower x y = true ∨ lower y x = true := by
  rw [lower_iff_below, lower_iff_below]
  unfold PqNode.Below
  omega

/-- The member removed is the lowest: no member left is lower (R87). -/
theorem removeLowest_lowest (pq : List PqNode) (m : PqNode) (rest : List PqNode)
    (h : removeLowest pq = some (m, rest)) : ∀ x ∈ rest, lower x m = false := by
  induction pq generalizing m rest with
  | nil => simp [removeLowest] at h
  | cons y xs ih =>
    simp only [removeLowest] at h
    cases hx : removeLowest xs with
    | none =>
      rw [hx] at h
      simp only [Option.some.injEq, Prod.mk.injEq] at h
      rw [← h.2]; simp
    | some p =>
      obtain ⟨m', rest'⟩ := p
      rw [hx] at h
      simp only at h
      have hm := ih m' rest' hx
      split at h
      · rename_i hl
        simp only [Option.some.injEq, Prod.mk.injEq] at h
        rw [← h.1, ← h.2]
        intro z hz
        rcases List.mem_cons.mp ((removeLowest_perm xs m' rest' hx).mem_iff.mp hz) with hz | hz
        · rw [hz]; exact lower_asymm _ _ hl
        · by_contra hc
          have hc : lower z y = true := by simpa using hc
          have := lower_trans z y m' hc hl
          rw [hm z hz] at this
          exact absurd this (by simp)
      · rename_i hl
        simp only [Option.some.injEq, Prod.mk.injEq] at h
        rw [← h.1, ← h.2]
        intro z hz
        rcases List.mem_cons.mp hz with hz | hz
        · rw [hz]; simpa using hl
        · exact hm z hz

/-! ## What a tree holds -/

/-- Every internal node holds the sum of its children's counts and the smaller of their keys (R89). -/
def Tree.Summed : Tree → Prop
  | .leaf _ _ => True
  | .node c k l r => c = l.count + r.count ∧ k = (if l.key ≤ r.key then l.key else r.key) ∧ l.Summed ∧ r.Summed

theorem Tree.Summed.count_eq {t : Tree} (h : t.Summed) : t.count = (t.leaves.map fun e => e.count.toNat).sum := by
  induction t with
  | leaf s c => simp [Tree.leaves]
  | node c k l r ihl ihr =>
    obtain ⟨hc, -, hl, hr⟩ := h
    simp [Tree.leaves, hc, ihl hl, ihr hr]

theorem paths_syms (t : Tree) : t.paths.map Prod.fst = t.leaves.map FreqEntry.sym := by
  induction t with
  | leaf s c => rfl
  | node c k l r ihl ihr =>
    simp only [Tree.paths, Tree.leaves, List.map_append, List.map_map, ← ihl, ← ihr]
    rfl

theorem leaves_length (t : Tree) : t.leaves.length = t.internalNodes + 1 := by
  induction t with
  | leaf s c => rfl
  | node c k l r ihl ihr => simp [Tree.leaves, Tree.internalNodes, ihl, ihr]; omega

/-- The forest of a priority structure: all leaves of all its nodes. -/
def forestLeaves (pq : List PqNode) : List FreqEntry := pq.flatMap fun x => x.node.leaves

theorem forestLeaves_perm {p q : List PqNode} (h : p.Perm q) : (forestLeaves p).Perm (forestLeaves q) :=
  h.flatMap_right _

/-- The merge loop ends with one tree over the same leaves (R88, R90). -/
theorem mergeLoop_spec (fuel nxt : Nat) (pq : List PqNode) (hl : pq.length = fuel) (h0 : pq ≠ [])
    (hs : ∀ x ∈ pq, x.node.Summed) :
    ∃ root, mergeLoop fuel nxt pq = some root ∧ root.leaves.Perm (forestLeaves pq) ∧ root.Summed := by
  induction fuel generalizing nxt pq with
  | zero => exact absurd (List.length_eq_zero_iff.mp hl) h0
  | succ fuel ih =>
    simp only [mergeLoop]
    cases h1 : removeLowest pq with
    | none => exact absurd ((removeLowest_eq_none pq).mp h1) h0
    | some p =>
      obtain ⟨a, pq1⟩ := p
      have p1 := removeLowest_perm pq a pq1 h1
      simp only
      cases h2 : removeLowest pq1 with
      | none =>
        have e := (removeLowest_eq_none pq1).mp h2
        refine ⟨a.node, rfl, ?_, hs a (p1.mem_iff.mpr (by simp))⟩
        have := forestLeaves_perm p1
        rw [e] at this
        simpa [forestLeaves] using this.symm
      | some q =>
        obtain ⟨b, pq2⟩ := q
        have p2 := removeLowest_perm pq1 b pq2 h2
        simp only
        have hab : pq.Perm (a :: b :: pq2) := p1.trans (p2.cons a)
        have hlen := hab.length_eq
        have ha := hs a (hab.mem_iff.mpr (by simp))
        have hb := hs b (hab.mem_iff.mpr (by simp))
        obtain ⟨root, hr, hp, hsum⟩ := ih (nxt + 1) (⟨nxt, mergeNodes a.node b.node⟩ :: pq2)
          (by simp only [List.length_cons] at hlen ⊢; omega) (by simp) (by
            intro x hx
            rcases List.mem_cons.mp hx with hx | hx
            · rw [hx]; exact ⟨rfl, rfl, ha, hb⟩
            · exact hs x (hab.mem_iff.mpr (by simp [hx])))
        refine ⟨root, hr, hp.trans ?_, hsum⟩
        have := forestLeaves_perm hab
        simp only [forestLeaves, List.flatMap_cons, mergeNodes, Tree.leaves, List.append_assoc] at this ⊢
        exact this.symm

theorem forestLeaves_leavesFrom (j : Nat) (f : List FreqEntry) : forestLeaves (leavesFrom j f) = f := by
  induction f generalizing j with
  | nil => rfl
  | cons e rest ih =>
    have := ih (j + 1)
    simp only [forestLeaves] at this
    simp [leavesFrom, forestLeaves, Tree.leaves, this]

theorem length_leavesFrom (j : Nat) (f : List FreqEntry) : (leavesFrom j f).length = f.length := by
  induction f generalizing j with
  | nil => rfl
  | cons e rest ih => simp [leavesFrom, ih]

theorem summed_leavesFrom (j : Nat) (f : List FreqEntry) : ∀ x ∈ leavesFrom j f, x.node.Summed := by
  induction f generalizing j with
  | nil => simp [leavesFrom]
  | cons e rest ih =>
    intro x hx
    rcases List.mem_cons.mp hx with hx | hx
    · rw [hx]; trivial
    · exact ih (j + 1) x hx

/-- `tree_build` of a non-empty table gives a tree whose leaves are the table's entries (R86, R90). -/
theorem treeBuild_spec (f : List FreqEntry) (h : f ≠ []) :
    ∃ root, treeBuild f = some root ∧ root.leaves.Perm f ∧ root.Summed := by
  obtain ⟨root, h1, h2, h3⟩ := mergeLoop_spec f.length f.length (leavesFrom 0 f) (length_leavesFrom 0 f)
    (by cases f <;> simp_all [leavesFrom]) (summed_leavesFrom 0 f)
  rw [forestLeaves_leavesFrom] at h2
  exact ⟨root, h1, h2, h3⟩

theorem treeBuild_some (f : List FreqEntry) (root : Tree) (h : treeBuild f = some root) :
    f ≠ [] ∧ root.leaves.Perm f ∧ root.Summed := by
  have h0 : f ≠ [] := by
    intro e; subst e; simp [treeBuild, mergeLoop] at h
  obtain ⟨r, h1, h2, h3⟩ := treeBuild_spec f h0
  rw [h] at h1
  exact Option.some.inj h1 ▸ ⟨h0, h2, h3⟩

/-- With two or more entries the root is internal (R90). -/
theorem treeBuild_internal (f : List FreqEntry) (root : Tree) (h : treeBuild f = some root) (h2 : 2 ≤ f.length) :
    root.isLeaf = false := by
  obtain ⟨-, hp, -⟩ := treeBuild_some f root h
  cases root with
  | leaf s c =>
    have := hp.length_eq
    simp [Tree.leaves] at this
    omega
  | node c k l r => rfl

/-- With one entry the root is its leaf (R91). -/
theorem treeBuild_single (e : FreqEntry) : treeBuild [e] = some (.leaf e.sym e.count) := rfl

/-! ## The tree does not depend on the order of the table -/

theorem eq_of_key_eq (pq : List PqNode) (h : (pq.map fun x => x.node.key).Nodup) (x y : PqNode)
    (hx : x ∈ pq) (hy : y ∈ pq) (hk : x.node.key = y.node.key) : x = y := by
  induction pq with
  | nil => simp at hx
  | cons z rest ih =>
    simp only [List.map_cons, List.nodup_cons, List.mem_map, not_exists, not_and] at h
    rcases List.mem_cons.mp hx with hx | hx <;> rcases List.mem_cons.mp hy with hy | hy
    · rw [hx, hy]
    · exact absurd (hx ▸ hk).symm (h.1 y hy)
    · exact absurd (hy ▸ hk) (h.1 x hx)
    · exact ih h.2 hx hy

/-- The lowest node is the same in every enumeration, when all keys differ (R87, R93). -/
theorem removeLowest_congr (p q : List PqNode) (hpq : (p.map PqNode.node).Perm (q.map PqNode.node))
    (hk : (p.map fun x => x.node.key).Nodup) (a b : PqNode) (p1 q1 : List PqNode)
    (ha : removeLowest p = some (a, p1)) (hb : removeLowest q = some (b, q1)) :
    a.node = b.node ∧ (p1.map PqNode.node).Perm (q1.map PqNode.node) := by
  have hp := removeLowest_perm p a p1 ha
  have hq := removeLowest_perm q b q1 hb
  have hla := removeLowest_lowest p a p1 ha
  have hlb := removeLowest_lowest q b q1 hb
  have hkq : (q.map fun x => x.node.key).Nodup := by
    have := (hpq.map Tree.key).nodup_iff.mp (by simpa [List.map_map, Function.comp_def] using hk)
    simpa [List.map_map, Function.comp_def] using this
  have hnode : a.node = b.node := by
    have hbp : b.node ∈ p.map PqNode.node := hpq.mem_iff.mpr (List.mem_map_of_mem (hq.mem_iff.mpr (by simp)))
    have haq : a.node ∈ q.map PqNode.node := hpq.mem_iff.mp (List.mem_map_of_mem (hp.mem_iff.mpr (by simp)))
    obtain ⟨x, hx, hxb⟩ := List.mem_map.mp hbp
    obtain ⟨y, hy, hya⟩ := List.mem_map.mp haq
    rcases List.mem_cons.mp (hp.mem_iff.mp hx) with hx1 | hx1
    · rw [← hx1, hxb]
    · rcases List.mem_cons.mp (hq.mem_iff.mp hy) with hy1 | hy1
      · rw [← hy1, hya]
      · have h1 := hla x hx1
        have h2 := hlb y hy1
        rw [← Bool.not_eq_true, lower_iff] at h1 h2
        rw [hxb] at h1
        rw [hya] at h2
        have hkey : a.node.key = b.node.key := by
          rw [BitVec.lt_def] at h1 h2
          apply BitVec.eq_of_toNat_eq
          have := not_or.mp h1
          have := not_or.mp h2
          omega
        have := eq_of_key_eq p hk x a hx (hp.mem_iff.mpr (by simp)) (by rw [hxb, hkey])
        rw [← this, hxb]
  refine ⟨hnode, ?_⟩
  have h1 := (hp.map PqNode.node).symm.trans (hpq.trans (hq.map PqNode.node))
  rw [List.map_cons, List.map_cons, hnode] at h1
  exact List.Perm.cons_inv h1

theorem mergeLoop_congr (fuel : Nat) (n m : Nat) (p q : List PqNode)
    (hpq : (p.map PqNode.node).Perm (q.map PqNode.node)) (hk : (p.map fun x => x.node.key).Nodup) :
    mergeLoop fuel n p = mergeLoop fuel m q := by
  induction fuel generalizing n m p q with
  | zero => rfl
  | succ fuel ih =>
    simp only [mergeLoop]
    have hnil : ∀ p q : List PqNode, (p.map PqNode.node).Perm (q.map PqNode.node) → (p = [] ↔ q = []) := by
      intro p q h
      have := h.length_eq
      simp only [List.length_map] at this
      rw [← List.length_eq_zero_iff, ← List.length_eq_zero_iff, this]
    cases h1 : removeLowest p with
    | none =>
      have : removeLowest q = none := (removeLowest_eq_none q).mpr ((hnil p q hpq).mp ((removeLowest_eq_none p).mp h1))
      rw [this]
    | some x =>
      obtain ⟨a, p1⟩ := x
      cases h2 : removeLowest q with
      | none =>
        have := (hnil p q hpq).mpr ((removeLowest_eq_none q).mp h2)
        rw [this] at h1; simp [removeLowest] at h1
      | some y =>
        obtain ⟨b, q1⟩ := y
        obtain ⟨hab, h11⟩ := removeLowest_congr p q hpq hk a b p1 q1 h1 h2
        have hpp := removeLowest_perm p a p1 h1
        have hk1 : ((a :: p1).map fun x => x.node.key).Nodup := (hpp.map _).nodup_iff.mp hk
        simp only
        cases h3 : removeLowest p1 with
        | none =>
          have : removeLowest q1 = none :=
            (removeLowest_eq_none q1).mpr ((hnil p1 q1 h11).mp ((removeLowest_eq_none p1).mp h3))
          rw [this]; simp [hab]
        | some z =>
          obtain ⟨c, p2⟩ := z
          cases h4 : removeLowest q1 with
          | none =>
            have := (hnil p1 q1 h11).mpr ((removeLowest_eq_none q1).mp h4)
            rw [this] at h3; simp [removeLowest] at h3
          | some w =>
            obtain ⟨d, q2⟩ := w
            have hk2 : (p1.map fun x => x.node.key).Nodup := (List.nodup_cons.mp hk1).2
            obtain ⟨hcd, h22⟩ := removeLowest_congr p1 q1 h11 hk2 c d p2 q2 h3 h4
            have hpp2 := removeLowest_perm p1 c p2 h3
            have hk3 : ((a :: c :: p2).map fun x => x.node.key).Nodup :=
              ((hpp2.cons a).map _).nodup_iff.mp hk1
            simp only
            apply ih
            · simp only [List.map_cons, hab, hcd]
              exact h22.cons _
            · simp only [List.map_cons, List.nodup_cons, List.mem_cons, not_or] at hk3 ⊢
              refine ⟨?_, hk3.2.2⟩
              rw [key_mergeNodes]
              by_cases hle : a.node.key ≤ c.node.key
              · rw [if_pos hle]; exact hk3.1.2
              · rw [if_neg hle]; exact hk3.2.1

theorem leavesFrom_nodes (j : Nat) (f : List FreqEntry) :
    (leavesFrom j f).map PqNode.node = f.map fun e => Tree.leaf e.sym e.count := by
  induction f generalizing j with
  | nil => rfl
  | cons e rest ih => simp [leavesFrom, ih]

theorem leavesFrom_keys (j : Nat) (f : List FreqEntry) :
    ((leavesFrom j f).map fun x => x.node.key) = f.map FreqEntry.sym := by
  induction f generalizing j with
  | nil => rfl
  | cons e rest ih => simp [leavesFrom, ih]

/-! ## Paths -/

theorem path_length_le (t : Tree) : ∀ e ∈ t.paths, e.2.length ≤ t.internalNodes := by
  induction t with
  | leaf s c => simp [Tree.paths]
  | node c k l r ihl ihr =>
    intro e he
    simp only [Tree.paths, List.mem_append, List.mem_map] at he
    simp only [Tree.internalNodes]
    rcases he with ⟨x, hx, rfl⟩ | ⟨x, hx, rfl⟩
    · have := ihl x hx; simp; omega
    · have := ihr x hx; simp; omega

theorem path_ne_nil (t : Tree) (h : t.isLeaf = false) : ∀ e ∈ t.paths, e.2 ≠ [] := by
  cases t with
  | leaf s c => simp [Tree.isLeaf] at h
  | node c k l r =>
    intro e he
    simp only [Tree.paths, List.mem_append, List.mem_map] at he
    rcases he with ⟨x, -, rfl⟩ | ⟨x, -, rfl⟩ <;> simp

/-- No path is a prefix of another leaf's (R96). -/
theorem paths_prefix_free (t : Tree) : ∀ e ∈ t.paths, ∀ e' ∈ t.paths, e.2 <+: e'.2 → e = e' := by
  induction t with
  | leaf s c => simp [Tree.paths]
  | node c k l r ihl ihr =>
    intro e he e' he' hp
    simp only [Tree.paths, List.mem_append, List.mem_map] at he he'
    rcases he with ⟨x, hx, rfl⟩ | ⟨x, hx, rfl⟩ <;> rcases he' with ⟨y, hy, rfl⟩ | ⟨y, hy, rfl⟩ <;>
      simp only [List.cons_prefix_cons] at hp
    · rw [ihl x hx y hy hp.2]
    · exact absurd hp.1 (by simp)
    · exact absurd hp.1 (by simp)
    · rw [ihr x hx y hy hp.2]

/-! ## The dictionary -/

theorem codeOf_bindCode (d : Dict) (s r : Symbol) (p : Pbv) :
    codeOf (bindCode d s p) r = if r = s then some p else codeOf d r := by
  unfold codeOf bindCode
  by_cases h : r = s
  · subst h; simp
  · rw [List.lookup_cons, if_neg h]
    have hb : (r == s) = false := by simpa using h
    rw [hb]
    simp only
    induction d with
    | nil => rfl
    | cons e d ih =>
      obtain ⟨q, v⟩ := e
      by_cases hq : q = s
      · subst hq
        have : (r == q) = false := by simpa using h
        simp [List.lookup_cons, this, ih]
      · have : (q != s) = true := by simpa using hq
        rw [List.filter_cons, if_pos this]
        simp only [List.lookup_cons, ih]

/-- What `visit` does to PREFIX and DICT (R94): PREFIX comes back with its bits, and each leaf below is bound to
PREFIX and the path. -/
theorem visit_spec (t : Tree) (p : Pbv) (d : Dict) (hp : p.Shape) (hc : p.canonical) :
    (visit t (p, d)).1.Shape ∧ (visit t (p, d)).1.bits = p.bits ∧
    (∀ s, s ∉ t.paths.map Prod.fst → codeOf (visit t (p, d)).2 s = codeOf d s) ∧
    ((t.paths.map Prod.fst).Nodup → ∀ s q, (s, q) ∈ t.paths →
      codeOf (visit t (p, d)).2 s = some (Pbv.ofBits (p.bits ++ q))) := by
  induction t generalizing p d with
  | leaf s c =>
    refine ⟨hp, rfl, ?_, ?_⟩
    · intro r hr
      simp only [Tree.paths, List.map_cons, List.map_nil, List.mem_singleton] at hr
      simp [visit, codeOf_bindCode, hr]
    · intro _ r q hq
      simp only [Tree.paths, List.mem_singleton, Prod.mk.injEq] at hq
      obtain ⟨rfl, rfl⟩ := hq
      simp only [visit, codeOf_bindCode, if_true, List.append_nil]
      rw [← hp.eq_ofBits hc]
  | node c k l r ihl ihr =>
    have hcan : ∀ (v : Pbv) (b : Bool), v.Shape → (pbvPushBit v b).canonical := fun v b hv =>
      (hv.pushBit b).canonical_iff.mpr (Or.inl (pbvPushBit_freeBits_lt v b hv))
    obtain ⟨l1, l2, l3, l4⟩ := ihl (pbvPushBit p false) d (hp.pushBit false) (hcan p false hp)
    have l2' : (visit l (pbvPushBit p false, d)).1.bits = p.bits ++ [false] := by
      rw [l2, pbvPushBit_bits _ _ hp]
    have ls : (visit l (pbvPushBit p false, d)).1.size ≠ 0 := by
      rw [← Pbv.length_bits, l2']; simp
    have m1 := l1.popBit ls
    have m2 : (pbvPopBit (visit l (pbvPushBit p false, d)).1).bits = p.bits := by
      rw [pbvPopBit_bits _ l1 ls, l2']; simp
    obtain ⟨r1, r2, r3, r4⟩ := ihr (pbvPushBit (pbvPopBit (visit l (pbvPushBit p false, d)).1) true)
      (visit l (pbvPushBit p false, d)).2 (m1.pushBit true) (hcan _ true m1)
    have r2' := r2
    rw [pbvPushBit_bits _ _ m1, m2] at r2'
    have rs : (visit r (pbvPushBit (pbvPopBit (visit l (pbvPushBit p false, d)).1) true,
        (visit l (pbvPushBit p false, d)).2)).1.size ≠ 0 := by
      rw [← Pbv.length_bits, r2']; simp
    have hfst : (Tree.node c k l r).paths.map Prod.fst = l.paths.map Prod.fst ++ r.paths.map Prod.fst := by
      simp [Tree.paths, List.map_map, Function.comp_def]
    refine ⟨r1.popBit rs, ?_, ?_, ?_⟩
    · show (pbvPopBit _).bits = _
      rw [pbvPopBit_bits _ r1 rs, r2']; simp
    · intro s hs
      rw [hfst, List.mem_append, not_or] at hs
      show codeOf (visit r _).2 s = _
      rw [r3 s hs.2, l3 s hs.1]
    · intro hn s q hq
      rw [hfst, List.nodup_append] at hn
      obtain ⟨nl, nr, ndis⟩ := hn
      simp only [Tree.paths, List.mem_append, List.mem_map, Prod.mk.injEq] at hq
      show codeOf (visit r _).2 s = _
      rcases hq with ⟨x, hx, rfl, rfl⟩ | ⟨x, hx, rfl, rfl⟩
      · have hnot : x.1 ∉ r.paths.map Prod.fst := fun h => ndis _ (List.mem_map_of_mem hx) _ h rfl
        rw [r3 _ hnot, l4 nl x.1 x.2 hx, pbvPushBit_bits _ _ hp]
        simp
      · rw [r4 nr x.1 x.2 hx, pbvPushBit_bits _ _ m1, m2]
        simp

/-- The dictionary of an internal root holds the path of each leaf (R94), and nothing else. -/
theorem codeOf_dictBuild (root : Tree) (h : root.isLeaf = false) (hn : (root.paths.map Prod.fst).Nodup)
    (s : Symbol) (q : List Bool) (hq : (s, q) ∈ root.paths) :
    codeOf (dictBuild root).2 s = some (Pbv.ofBits q) := by
  cases root with
  | leaf s c => simp [Tree.isLeaf] at h
  | node c k l r =>
    have := (visit_spec (.node c k l r) Pbv.empty [] Pbv.shape_empty rfl).2.2.2 hn s q hq
    have he : Pbv.empty.bits = [] := rfl
    simpa [dictBuild, he] using this

theorem codeOf_dictBuild_none (root : Tree) (s : Symbol) (hs : s ∉ root.paths.map Prod.fst) :
    codeOf (dictBuild root).2 s = none := by
  cases root with
  | leaf r c =>
    have h : s ≠ r := by simpa [Tree.paths] using hs
    have hb : (s == r) = false := by simpa using h
    simp [dictBuild, codeOf, List.lookup_cons, hb]
  | node c k l r =>
    have := (visit_spec (.node c k l r) Pbv.empty [] Pbv.shape_empty rfl).2.2.1 s hs
    simpa [dictBuild, codeOf] using this

/-- Every symbol of the tree has a code (R96 a, d), made of pushes. -/
theorem codeOf_isSome (root : Tree) (hn : (root.paths.map Prod.fst).Nodup) (s : Symbol)
    (hs : s ∈ root.paths.map Prod.fst) :
    codeOf (dictBuild root).2 s = some (Pbv.ofBits (root.codeBits s)) := by
  obtain ⟨⟨s', q⟩, hq, rfl⟩ := List.mem_map.mp hs
  cases hl : root.isLeaf with
  | true =>
    cases root with
    | leaf r c =>
      simp only [Tree.paths, List.mem_singleton, Prod.mk.injEq] at hq
      obtain ⟨rfl, rfl⟩ := hq
      have h1 : codeOf (dictBuild (.leaf s' c)).2 s' = some singleCode := by
        simp [dictBuild, codeOf]
      have h2 : singleCode = Pbv.ofBits [false] := rfl
      simp only [Tree.codeBits, h1]
      rw [h2, Pbv.bits_ofBits]
    | node c k l r => simp [Tree.isLeaf] at hl
  | false =>
    have h1 := codeOf_dictBuild root hl hn s' q hq
    simp only [Tree.codeBits, h1, Pbv.bits_ofBits]

/-- The code bits of a symbol of an internal root are its path (R56). -/
theorem codeBits_eq_path (root : Tree) (h : root.isLeaf = false) (hn : (root.paths.map Prod.fst).Nodup)
    (s : Symbol) (q : List Bool) (hq : (s, q) ∈ root.paths) : root.codeBits s = q := by
  simp only [Tree.codeBits, codeOf_dictBuild root h hn s q hq, Pbv.bits_ofBits]

theorem codeBits_leaf (s : Symbol) (c : BitVec 32) : (Tree.leaf s c).codeBits s = [false] := by
  have h1 : codeOf (dictBuild (.leaf s c)).2 s = some singleCode := by simp [dictBuild, codeOf]
  simp only [Tree.codeBits, h1]
  rfl

end Sys2Proof.Machine
end

