-- ==== Sys2Proof/Laws/Codec.lean ====
section
/-! SUPPORT. The laws of the encoder and of the decoder. -/

namespace Sys2Proof.Machine

/-! ## The encoder -/

theorem encodeFrom_eq (root : Tree) (hn : (root.paths.map Prod.fst).Nodup) (l : List Symbol)
    (hl : ∀ s ∈ l, s ∈ root.paths.map Prod.fst) (v : Pbv) (hv : v.Shape) :
    encodeFrom (dictBuild root).2 l v = some ((l.flatMap root.codeBits).foldl pbvPushBit v) := by
  induction l generalizing v with
  | nil => rfl
  | cons s rest ih =>
    have hs := codeOf_isSome root hn s (hl s (by simp))
    simp only [encodeFrom, hs]
    have ho := Pbv.shape_ofBits (root.codeBits s)
    rw [ih (fun r hr => hl r (by simp [hr])) _ (hv.pushVec ho), List.flatMap_cons, List.foldl_append,
      pbvPushVec_eq_foldl v _ hv ho, Pbv.bits_ofBits]

/-- `encode` appends the codes back to back (R100). -/
theorem encodeStream_eq (root : Tree) (hn : (root.paths.map Prod.fst).Nodup) (l : List Symbol)
    (hl : ∀ s ∈ l, s ∈ root.paths.map Prod.fst) :
    encodeStream (dictBuild root).2 l = some (Pbv.ofBits (l.flatMap root.codeBits)) :=
  encodeFrom_eq root hn l hl Pbv.empty Pbv.shape_empty

/-- The tree of the counted input has unique symbols, those of the input. -/
theorem freqCount_root (l : List Symbol) (root : Tree) (h : treeBuild (freqCount l) = some root) :
    (root.paths.map Prod.fst).Nodup ∧ ∀ s, s ∈ root.paths.map Prod.fst ↔ s ∈ l := by
  obtain ⟨-, hp, -⟩ := treeBuild_some _ _ h
  have hc := freqCount_counted l
  rw [paths_syms]
  exact ⟨(hp.map _).nodup_iff.mpr hc.nodup, fun s => (hp.map _).mem_iff.trans (hc.mem s)⟩

/-! ## The decoder -/

theorem child_of_node (t : Tree) (h : t.isLeaf = false) (b : Bool) : ∃ x, t.child b = some x := by
  cases t with
  | leaf s c => simp [Tree.isLeaf] at h
  | node c k l r => exact ⟨_, rfl⟩

/-- The walk can not get stuck (R107). -/
theorem decodeFrom_total (root : Tree) (hr : root.isLeaf = false) (bits : List Bool) (cur : Walk)
    (hc : (cur.node root).isLeaf = false) :
    ∃ o last, decodeFrom root cur bits = some (o, last) ∧ o.length ≤ bits.length := by
  induction bits generalizing cur with
  | nil => exact ⟨[], cur, rfl, by simp⟩
  | cons b rest ih =>
    obtain ⟨x, hx⟩ := child_of_node _ hc b
    cases x with
    | leaf s c =>
      obtain ⟨o, last, h1, h2⟩ := ih .atRoot hr
      exact ⟨s :: o, last, by simp [decodeFrom, walkStep, hx, h1], by simp; omega⟩
    | node c k l r =>
      obtain ⟨o, last, h1, h2⟩ := ih (.atInternal (.node c k l r)) rfl
      exact ⟨o, last, by simp [decodeFrom, walkStep, hx, h1], by simp; omega⟩

/-- The child a path starts with. -/
theorem path_step (t : Tree) (s : Symbol) (b : Bool) (q : List Bool) (h : (s, b :: q) ∈ t.paths) :
    ∃ x, t.child b = some x ∧ (s, q) ∈ x.paths := by
  cases t with
  | leaf r c => simp [Tree.paths] at h
  | node c k l r =>
    simp only [Tree.paths, List.mem_append, List.mem_map, Prod.mk.injEq, List.cons.injEq] at h
    rcases h with ⟨x, hx, rfl, rfl, rfl⟩ | ⟨x, hx, rfl, rfl, rfl⟩
    · exact ⟨l, rfl, hx⟩
    · exact ⟨r, rfl, hx⟩

/-- Walking the rest of a path emits its symbol and returns to the root (R103). -/
theorem decodeFrom_path (root : Tree) (s : Symbol) (q rest : List Bool) (cur : Walk) (hq : q ≠ [])
    (h : (s, q) ∈ (cur.node root).paths) :
    decodeFrom root cur (q ++ rest) =
      (decodeFrom root .atRoot rest).map fun x => (s :: x.1, x.2) := by
  induction q generalizing cur with
  | nil => exact absurd rfl hq
  | cons b q ih =>
    obtain ⟨x, hx, hp⟩ := path_step _ s b q h
    cases x with
    | leaf r c =>
      simp only [Tree.paths, List.mem_singleton, Prod.mk.injEq] at hp
      obtain ⟨rfl, rfl⟩ := hp
      simp only [List.cons_append, List.nil_append, decodeFrom, walkStep, hx]
      cases decodeFrom root .atRoot rest <;> rfl
    | node c k l r =>
      have hne : q ≠ [] := by
        intro e; subst e
        exact path_ne_nil (.node c k l r) rfl _ hp rfl
      have := ih (.atInternal (.node c k l r)) hne hp
      simp only [List.cons_append, decodeFrom, walkStep, hx]
      rw [this]
      cases decodeFrom root .atRoot rest <;> rfl

/-- Walking a beginning of a path emits nothing (R107). -/
theorem decodeFrom_partial (root : Tree) (s : Symbol) (q more : List Bool) (cur : Walk) (hm : more ≠ [])
    (h : (s, q ++ more) ∈ (cur.node root).paths) : ∃ last, decodeFrom root cur q = some ([], last) := by
  induction q generalizing cur with
  | nil => exact ⟨cur, rfl⟩
  | cons b q ih =>
    obtain ⟨x, hx, hp⟩ := path_step _ s b (q ++ more) h
    cases x with
    | leaf r c =>
      simp only [Tree.paths, List.mem_singleton, Prod.mk.injEq, List.append_eq_nil_iff] at hp
      exact absurd hp.2.2 hm
    | node c k l r =>
      obtain ⟨last, hl⟩ := ih (.atInternal (.node c k l r)) hp
      exact ⟨last, by simp [decodeFrom, walkStep, hx, hl]⟩

/-- A stream of paths, then a beginning of one more, decodes to the paths' symbols (R104, R107). -/
theorem decodeFrom_stream (root : Tree) (hr : root.isLeaf = false) (codes : List (Symbol × List Bool))
    (hc : ∀ e ∈ codes, e ∈ root.paths) (tail : List Bool)
    (ht : ∃ last, decodeFrom root .atRoot tail = some ([], last)) :
    ∃ last, decodeFrom root .atRoot (codes.flatMap Prod.snd ++ tail) = some (codes.map Prod.fst, last) := by
  induction codes with
  | nil => simpa using ht
  | cons e codes ih =>
    obtain ⟨last, h⟩ := ih fun x hx => hc x (by simp [hx])
    refine ⟨last, ?_⟩
    rw [List.flatMap_cons, List.append_assoc,
      decodeFrom_path root e.1 e.2 _ .atRoot (path_ne_nil root hr e (hc e (by simp))) (hc e (by simp)), h]
    rfl

end Sys2Proof.Machine
end

