-- ==== Sys2Proof/Laws/Ops.lean ====
section
/-! SUPPORT. The laws of the shared operations: the file storage, little-endian integers, reads of an image. -/

namespace Sys2Proof.Machine

/-! ## The file storage -/

/-- A path below every listed one is absent. -/
theorem fileAt_eq_none (st : List (Nat × File)) (k : Nat) (h : ∀ e ∈ st, k < e.1) : fileAt st k = none := by
  induction st with
  | nil => rfl
  | cons e rest ih =>
    have h1 := h e (by simp)
    simp only [fileAt]
    rw [if_neg (by omega)]
    exact ih fun x hx => h x (by simp [hx])

theorem fileAt_storeRemove (st : List (Nat × File)) (h : Memory.wf st) (p q : Nat) :
    fileAt (storeRemove st p) q = if q = p then none else fileAt st q := by
  obtain ⟨h, -⟩ := h
  induction st with
  | nil => simp [storeRemove, fileAt]
  | cons e rest ih =>
    obtain ⟨r, f⟩ := e
    rw [List.pairwise_cons] at h
    have ih := ih h.2
    have hr : fileAt rest r = none := fileAt_eq_none rest r h.1
    simp only [storeRemove, fileAt]
    by_cases hp : p = r
    · subst hp
      by_cases hq : q = p
      · subst hq; simp [hr]
      · simp [hq]
    · by_cases hq : q = r
      · subst hq; simp [hp, fileAt, Ne.symm hp]
      · simp [hp, fileAt, hq, ih]

theorem fileAt_storePut (st : List (Nat × File)) (p q : Nat) (f : File) :
    fileAt (storePut st p f) q = if q = p then some f else fileAt st q := by
  induction st with
  | nil => simp [storePut, fileAt]
  | cons e rest ih =>
    obtain ⟨r, g⟩ := e
    simp only [storePut]
    split
    · simp [fileAt]
    · split
      · rename_i h1 h2
        subst h2
        by_cases hq : q = p <;> simp [fileAt, hq]
      · rename_i h1 h2
        by_cases hq : q = r
        · subst hq; simp [fileAt, Ne.symm h2]
        · simp [fileAt, hq, ih]

/-- `STORE[p] <- o` sets `p` and no other path. -/
theorem fileAt_storeAssign (st : List (Nat × File)) (h : Memory.wf st) (p q : Nat) (o : Option File) :
    fileAt (storeAssign st p o) q = if q = p then o else fileAt st q := by
  cases o with
  | none => exact fileAt_storeRemove st h p q
  | some f => exact fileAt_storePut st p q f

theorem mem_storeRemove (st : List (Nat × File)) (p : Nat) (e : Nat × File) (h : e ∈ storeRemove st p) : e ∈ st := by
  induction st with
  | nil => exact h
  | cons d rest ih =>
    obtain ⟨r, g⟩ := d
    simp only [storeRemove] at h
    split at h
    · simp [h]
    · rcases List.mem_cons.mp h with h | h
      · simp [h]
      · simp [ih h]

theorem mem_storePut (st : List (Nat × File)) (p : Nat) (f : File) (e : Nat × File) (h : e ∈ storePut st p f) :
    e = (p, f) ∨ e ∈ st := by
  induction st with
  | nil => simpa [storePut] using h
  | cons d rest ih =>
    obtain ⟨r, g⟩ := d
    simp only [storePut] at h
    split at h
    · simpa using h
    · split at h
      · rcases List.mem_cons.mp h with h | h
        · simp [h]
        · simp [h]
      · rcases List.mem_cons.mp h with h | h
        · simp [h]
        · rcases ih h with h | h <;> simp [h]

/-- Every operation on `STORE` keeps its canonical form. -/
theorem Memory.wf.storeRemove {st : List (Nat × File)} (h : Memory.wf st) (p : Nat) : Memory.wf (storeRemove st p) := by
  refine ⟨?_, fun e he => h.2 e (mem_storeRemove st p e he)⟩
  have h1 := h.1
  clear h
  induction st with
  | nil => exact h1
  | cons d rest ih =>
    obtain ⟨r, g⟩ := d
    rw [List.pairwise_cons] at h1
    simp only [Machine.storeRemove]
    split
    · exact h1.2
    · rw [List.pairwise_cons]
      exact ⟨fun e he => h1.1 e (mem_storeRemove rest p e he), ih h1.2⟩

theorem Memory.wf.storePut {st : List (Nat × File)} (h : Memory.wf st) (p : Nat) (hp : p < 2 ^ 64) (f : File) :
    Memory.wf (storePut st p f) := by
  refine ⟨?_, fun e he => ?_⟩
  · have h1 := h.1
    clear h
    induction st with
    | nil => simp [Machine.storePut]
    | cons d rest ih =>
      obtain ⟨r, g⟩ := d
      rw [List.pairwise_cons] at h1
      simp only [Machine.storePut]
      split
      · rename_i hlt
        rw [List.pairwise_cons]
        refine ⟨fun e he => ?_, List.pairwise_cons.mpr h1⟩
        rcases List.mem_cons.mp he with he | he
        · rw [he]; exact hlt
        · exact Nat.lt_trans hlt (h1.1 e he)
      · split
        · rename_i heq
          subst heq
          exact List.pairwise_cons.mpr h1
        · rename_i h2 h3
          rw [List.pairwise_cons]
          refine ⟨fun e he => ?_, ih h1.2⟩
          rcases mem_storePut rest p f e he with he | he
          · rw [he]; simp only; omega
          · exact h1.1 e he
  · rcases mem_storePut st p f e he with he | he
    · rw [he]; exact hp
    · exact h.2 e he

theorem Memory.wf.storeAssign {st : List (Nat × File)} (h : Memory.wf st) (p : Nat) (hp : p < 2 ^ 64)
    (o : Option File) : Memory.wf (storeAssign st p o) := by
  cases o with
  | none => exact h.storeRemove p
  | some f => exact h.storePut p hp f

theorem Memory.wf.ofReset : Memory.wf State.reset.store := by decide

/-- The files of `STORE` after an assignment are old ones or the new one. -/
theorem mem_storeAssign (st : List (Nat × File)) (p : Nat) (o : Option File) (e : Nat × File)
    (h : e ∈ storeAssign st p o) : o = some e.2 ∨ e ∈ st := by
  cases o with
  | none => exact Or.inr (mem_storeRemove st p e h)
  | some f =>
    rcases mem_storePut st p f e h with h | h
    · rw [h]; exact Or.inl rfl
    · exact Or.inr h

theorem allows_mono (cap : Option Nat) (m n : Nat) (h : m ≤ n) (ha : allows cap n = true) : allows cap m = true := by
  cases cap with
  | none => rfl
  | some c => simp only [allows, decide_eq_true_eq] at ha ⊢; omega

/-- What a clipped file holds fits the capacity. -/
theorem allows_clipFile (cap : Option Nat) (o : Option File) (f : File) (h : clipFile cap o = some f) :
    allows cap f.length = true := by
  cases o with
  | none => simp [clipFile] at h
  | some g =>
    cases cap with
    | none => rfl
    | some n =>
      simp only [clipFile, Option.some.injEq] at h
      subst h
      simp [allows]

/-! ## Little-endian integers -/

@[simp] theorem length_leBytes (v n : Nat) : (leBytes v n).length = n := by simp [leBytes]

theorem leBytes_succ (v n : Nat) : leBytes v (n + 1) = BitVec.ofNat 8 v :: leBytes (v / 256) n := by
  unfold leBytes
  rw [List.range_succ_eq_map, List.map_cons, List.map_map]
  congr 1
  · simp
  · apply List.map_congr_left
    intro j _
    simp [Nat.pow_succ, Nat.div_div_eq_div_mul, Nat.mul_comm]

/-- The integer of `le(v, n)` is `v` reduced to `n` bytes. -/
theorem leValue_leBytes (v n : Nat) : leValue (leBytes v n) = v % 256 ^ n := by
  induction n generalizing v with
  | zero => simp [leBytes, leValue, Nat.mod_one]
  | succ n ih =>
    rw [leBytes_succ, leValue, ih, Nat.pow_succ, Nat.mul_comm (256 ^ n) 256, Nat.mod_mul]
    simp

theorem leValue_lt (bs : List Byte) : leValue bs < 256 ^ bs.length := by
  induction bs with
  | nil => simp [leValue]
  | cons b rest ih =>
    have hb := b.isLt
    simp only [leValue, List.length_cons, Nat.pow_succ]
    have : b.toNat < 256 := by simpa using hb
    omega

/-! ## Reads of an image made of parts -/

/-- A read inside the second of three parts. -/
theorem memRead_middle (a b c : File) (off n : Nat) (ho : a.length ≤ off) (hn : off + n ≤ a.length + b.length) :
    memRead (a ++ b ++ c) off n = memRead b (off - a.length) n := by
  unfold memRead
  congr 1
  rw [List.append_assoc, List.drop_append, List.drop_eq_nil_of_le ho, List.nil_append, List.drop_append,
    List.take_append, List.length_drop]
  have : n - (b.length - (off - a.length)) = 0 := by omega
  rw [this, List.take_zero, List.append_nil]

/-- A read of exactly a little-endian part gives its integer. -/
theorem memRead_leBytes (a c : File) (v n : Nat) (h : v < 256 ^ n) (off : Nat) (ho : off = a.length) :
    memRead (a ++ leBytes v n ++ c) off n = v := by
  rw [memRead_middle a (leBytes v n) c off n (by omega) (by simp; omega)]
  subst ho
  simp [memRead, List.take_of_length_le, leValue_leBytes, Nat.mod_eq_of_lt h]

theorem memRead_lt (f : File) (off n : Nat) : memRead f off n < 256 ^ n := by
  unfold memRead
  refine Nat.lt_of_lt_of_le (leValue_lt _) (Nat.pow_le_pow_right (by omega) ?_)
  simp

/-- A read after a write at the same place gives the value written (R40). -/
theorem memRead_memWrite (f : File) (off n v : Nat) (h : off ≤ f.length) (hv : v < 256 ^ n) :
    memRead (memWrite f off n v) off n = v := by
  unfold memWrite
  exact memRead_leBytes _ _ _ _ hv _ (by simp; omega)

end Sys2Proof.Machine
end

