-- ==== Sys2Proof/Laws/Container.lean ====
section
/-! SUPPORT. The laws of the container image: where each part of it stands, and what reading one back gives. -/

namespace Sys2Proof.Machine

/-! ## Bytes and bits of a little-endian integer -/

theorem testBit_leValue (bs : List Byte) (p : Nat) :
    (leValue bs).testBit p = match bs[p / 8]? with | some b => b.getLsbD (p % 8) | none => false := by
  induction bs generalizing p with
  | nil => simp [leValue]
  | cons b rest ih =>
    have hb : b.toNat < 2 ^ 8 := b.isLt
    have e : leValue (b :: rest) = 2 ^ 8 * leValue rest + b.toNat := by simp only [leValue]; omega
    rw [e, Nat.testBit_two_pow_mul_add _ hb]
    by_cases hp : p < 8
    · have e1 : p / 8 = 0 := by omega
      have e2 : p % 8 = p := by omega
      simp [hp, e1, e2, BitVec.getLsbD]
    · have e1 : p / 8 = (p - 8) / 8 + 1 := by omega
      have e2 : p % 8 = (p - 8) % 8 := by omega
      rw [if_neg hp, ih, e1, e2]
      simp

/-- Bit `p` of an `n`-byte integer of a file stands in byte `off + p div 8`, at position `p mod 8`. -/
theorem testBit_memRead (f : File) (off n p : Nat) (hp : p < 8 * n) :
    (memRead f off n).testBit p =
      match f[off + p / 8]? with | some b => b.getLsbD (p % 8) | none => false := by
  unfold memRead
  rw [testBit_leValue, List.getElem?_take, if_pos (by omega), List.getElem?_drop]

/-! ## Parts of equal size -/

theorem length_flatMap_const {α : Type} (l : List α) (g : α → File) (m : Nat) (h : ∀ a ∈ l, (g a).length = m) :
    (l.flatMap g).length = m * l.length := by
  induction l with
  | nil => simp
  | cons a l ih =>
    rw [List.flatMap_cons, List.length_append, h a (by simp), ih fun b hb => h b (by simp [hb]), List.length_cons,
      Nat.mul_succ]
    omega

/-- A read inside the `k`-th of many parts of `m` bytes each. -/
theorem memRead_flatMap {α : Type} (l : List α) (g : α → File) (m k off n : Nat) (a : α)
    (h : ∀ a ∈ l, (g a).length = m) (hk : l[k]? = some a) (hn : off + n ≤ m) :
    memRead (l.flatMap g) (m * k + off) n = memRead (g a) off n := by
  obtain ⟨hlt, hget⟩ := List.getElem?_eq_some_iff.mp hk
  have hsplit : l = l.take k ++ a :: l.drop (k + 1) := by
    rw [← hget, List.cons_getElem_drop_succ, List.take_append_drop]
  have hlen : ((l.take k).flatMap g).length = m * k := by
    rw [length_flatMap_const _ g m fun b hb => h b (List.mem_of_mem_take hb), List.length_take]
    rw [Nat.min_eq_left (by omega)]
  have ha : (g a).length = m := h a (by rw [← hget]; exact List.getElem_mem hlt)
  have e : l.flatMap g = (l.take k).flatMap g ++ g a ++ (l.drop (k + 1)).flatMap g := by
    conv_lhs => rw [hsplit]
    rw [List.flatMap_append, List.flatMap_cons, List.append_assoc]
  rw [e, memRead_middle _ _ _ _ _ (by omega) (by omega), hlen]
  congr 1
  omega

/-! ## The image -/

theorem length_pairBytesOf (e : FreqEntry) : (pairBytesOf e).length = 5 := by simp [pairBytesOf]

theorem length_serialize (c : Container) (h : ceil64 c.bits.size ≤ c.bits.words.length) :
    (serialize c).length = 16 + 5 * c.freq.length + 8 * ceil64 c.bits.size := by
  unfold serialize
  rw [List.length_append, List.length_append, List.length_append,
    length_flatMap_const _ pairBytesOf 5 fun e _ => length_pairBytesOf e,
    length_flatMap_const _ _ 8 fun w _ => by simp [wordBytes], List.length_take]
  simp only [length_leBytes, wordBytes]
  omega

theorem ceil64_size_le {v : Pbv} (hv : v.Shape) : ceil64 v.size ≤ v.words.length := by
  have := hv.pos
  unfold ceil64 Pbv.size
  omega

theorem size_lt (v : Pbv) (cap : Nat) (h : v.words.length ≤ cap) (hc : cap ≤ 2 ^ 58 - 1) : v.size < 2 ^ 64 := by
  unfold Pbv.size; omega

theorem memRead_numPairs (c : Container) (h : c.freq.length < 2 ^ 64) :
    memRead (serialize c) 0 8 = c.freq.length := by
  unfold serialize
  rw [List.append_assoc, List.append_assoc]
  exact memRead_leBytes [] _ _ _ (by simpa [wordBytes] using h) 0 rfl

theorem memRead_totalBits (c : Container) (h : c.bits.size < 2 ^ 64) :
    memRead (serialize c) 8 8 = c.bits.size := by
  unfold serialize
  rw [List.append_assoc]
  exact memRead_leBytes _ _ _ _ (by simpa [wordBytes] using h) 8 (by simp [wordBytes])

theorem memRead_pairs (c : Container) (k off n : Nat) (e : FreqEntry) (hk : c.freq[k]? = some e) (hn : off + n ≤ 5) :
    memRead (serialize c) (16 + (5 * k + off)) n = memRead (pairBytesOf e) off n := by
  obtain ⟨hlt, -⟩ := List.getElem?_eq_some_iff.mp hk
  unfold serialize
  rw [memRead_middle _ _ _ _ _ (by simp [wordBytes])
    (by simp only [List.length_append, length_leBytes, wordBytes,
          length_flatMap_const _ pairBytesOf 5 fun e _ => length_pairBytesOf e]; omega)]
  simp only [List.length_append, length_leBytes, wordBytes]
  rw [show 16 + (5 * k + off) - (8 + 8) = 5 * k + off by omega]
  exact memRead_flatMap _ _ _ _ _ _ _ (fun e _ => length_pairBytesOf e) hk hn

theorem memRead_sym (c : Container) (k : Nat) (e : FreqEntry) (hk : c.freq[k]? = some e) :
    memRead (serialize c) (16 + 5 * k) 1 = e.sym.toNat := by
  have := memRead_pairs c k 0 1 e hk (by omega)
  simpa [pairBytesOf, memRead, leValue] using this

theorem memRead_count (c : Container) (k : Nat) (e : FreqEntry) (hk : c.freq[k]? = some e) :
    memRead (serialize c) (17 + 5 * k) 4 = e.count.toNat := by
  have h := memRead_pairs c k 1 4 e hk (by omega)
  rw [show 16 + (5 * k + 1) = 17 + 5 * k by omega] at h
  rw [h]
  have := memRead_leBytes [e.sym] [] e.count.toNat 4 (by have := e.count.isLt; simpa using this) 1 rfl
  simpa [pairBytesOf] using this

theorem memRead_word (c : Container) (k : Nat) (w : Word) (h : k < ceil64 c.bits.size) (hk : c.bits.words[k]? = some w) :
    memRead (serialize c) (16 + 5 * c.freq.length + 8 * k) 8 = w.toNat := by
  have hl : (leBytes c.freq.length wordBytes ++ leBytes c.bits.size wordBytes ++
      c.freq.flatMap pairBytesOf).length = 16 + 5 * c.freq.length := by
    simp only [List.length_append, length_leBytes, wordBytes,
      length_flatMap_const _ pairBytesOf 5 fun e _ => length_pairBytesOf e]
  have hk2 : (c.bits.words.take (ceil64 c.bits.size))[k]? = some w := by
    rw [List.getElem?_take, if_pos h, hk]
  obtain ⟨hlt, -⟩ := List.getElem?_eq_some_iff.mp hk2
  have hw : ∀ x ∈ c.bits.words.take (ceil64 c.bits.size), (leBytes x.toNat wordBytes).length = 8 := by
    intro x _; simp [wordBytes]
  unfold serialize
  rw [← List.append_nil (_ ++ List.flatMap _ (List.take _ _)),
    memRead_middle _ _ _ _ _ (by omega) (by rw [hl, length_flatMap_const _ _ 8 hw]; omega), hl]
  have := memRead_flatMap _ (fun w : Word => leBytes w.toNat wordBytes) 8 k 0 8 w hw hk2 (by omega)
  rw [show 16 + 5 * c.freq.length + 8 * k - (16 + 5 * c.freq.length) = 8 * k + 0 by omega, this]
  have := memRead_leBytes [] [] w.toNat 8 (by have := w.isLt; simpa using this) 0 rfl
  simpa [wordBytes] using this

/-! ## Reading a payload -/

theorem length_readWords (f : File) (np nw : Nat) : (readWords f np nw).length = nw := by simp [readWords]

theorem length_readPairs (f : File) (np : Nat) : (readPairs f np).length = np := by simp [readPairs]

theorem payloadVector_length (ws : List Word) (tb : Nat) (h : ws.length = ceil64 tb) :
    (payloadVector ws tb).words.length = fewestWords tb := by
  unfold payloadVector fewestWords
  by_cases hw : ws = []
  · subst hw; simp at h; simp [← h]
  · have : ws.length ≠ 0 := by simpa using hw
    simp [hw]; omega

theorem payloadVector_freeBits (ws : List Word) (tb : Nat) (h : ws.length = ceil64 tb) :
    (payloadVector ws tb).freeBits = 64 * fewestWords tb - tb := by
  rw [← payloadVector_length ws tb h]
  simp [payloadVector]

theorem payloadVector_size (ws : List Word) (tb : Nat) (h : ws.length = ceil64 tb) :
    (payloadVector ws tb).size = tb := by
  have := fewestWords_bounds tb
  unfold Pbv.size
  rw [payloadVector_length ws tb h, payloadVector_freeBits ws tb h]; omega

theorem payloadVector_getBit (ws : List Word) (tb : Nat) (h : ws.length = ceil64 tb) (i : Nat) :
    (payloadVector ws tb).getBit i = (decide (i < tb) && (ws.getD (i / 64) 0).getLsbD (63 - i % 64)) := by
  have hb := fewestWords_bounds tb
  have hl := payloadVector_length ws tb h
  by_cases hbig : 64 * fewestWords tb ≤ i
  · rw [Pbv.getBit_of_ge _ _ (by rw [hl]; exact hbig)]
    have : ¬ i < tb := by omega
    simp [this]
  · by_cases hw : ws = []
    · subst hw
      have h0 : tb = 0 := by unfold ceil64 at h; simp at h; omega
      subst h0
      unfold fewestWords ceil64 at hbig
      have e1 : i / 64 = 0 := by omega
      simp [payloadVector, Pbv.getBit, Pbv.wordAt, e1, zeroLow]
    · have hlen : ws.length ≠ 0 := by simpa using hw
      have hfw : fewestWords tb = ws.length := by unfold fewestWords; omega
      have e : payloadVector ws tb = { (Pbv.mk ws 0).putWord (ws.length - 1)
          (zeroLow (ws.getD (ws.length - 1) 0) (64 * ws.length - tb)) with freeBits := 64 * ws.length - tb } := by
        simp [payloadVector, hw, Pbv.putWord]
      rw [e, Pbv.getBit_words, Pbv.getBit_putWord _ _ _ (by simp; omega)]
      by_cases hi : i / 64 = ws.length - 1
      · rw [if_pos hi, getLsbD_zeroLow]
        have : (64 * ws.length - tb ≤ 63 - i % 64) ↔ i < tb := by omega
        simp only [this, hi]
      · rw [if_neg hi]
        have : i < tb := by omega
        simp [this, Pbv.getBit, Pbv.wordAt]

theorem payloadVector_shape (ws : List Word) (tb : Nat) (h : ws.length = ceil64 tb) :
    (payloadVector ws tb).Shape := by
  have hb := fewestWords_bounds tb
  refine ⟨by rw [payloadVector_length ws tb h]; omega, by rw [payloadVector_freeBits ws tb h]; omega, ?_⟩
  intro i hi
  rw [payloadVector_size ws tb h] at hi
  rw [payloadVector_getBit ws tb h]
  have : ¬ i < tb := by omega
  simp [this]

theorem payloadVector_canonical (ws : List Word) (tb : Nat) (h : ws.length = ceil64 tb) :
    (payloadVector ws tb).canonical := by
  unfold Pbv.canonical
  rw [payloadVector_length ws tb h, payloadVector_size ws tb h]

/-- Reading back the words of an image gives the vector, when it is in the form with the fewest words. -/
theorem payloadVector_readBack (c : Container) (hv : c.bits.Shape) (hc : c.bits.canonical) :
    payloadVector (readWords (serialize c) c.freq.length (ceil64 c.bits.size)) c.bits.size = c.bits := by
  have hl := length_readWords (serialize c) c.freq.length (ceil64 c.bits.size)
  apply (payloadVector_shape _ _ hl).ext hv
  · rw [payloadVector_length _ _ hl]; exact hc.symm
  · apply Pbv.bits_eq
    · rw [payloadVector_size _ _ hl]; simp
    · intro i h
      simp only [Pbv.length_bits] at h
      rw [payloadVector_getBit _ _ hl, Pbv.getElem_bits]
      have hk : i / 64 < ceil64 c.bits.size := by unfold ceil64; omega
      have hk2 : i / 64 < c.bits.words.length := Nat.lt_of_lt_of_le hk (ceil64_size_le hv)
      have hr : (readWords (serialize c) c.freq.length (ceil64 c.bits.size)).getD (i / 64) 0 = c.bits.words[i / 64] := by
        rw [List.getD_eq_getElem?_getD, readWords, List.getElem?_map, List.getElem?_range hk]
        simp only [Option.map_some, Option.getD_some, headerBytes, pairBytes, wordBytes]
        rw [memRead_word c (i / 64) _ hk (List.getElem?_eq_getElem hk2)]
        simp
      rw [hr]
      simp [h, Pbv.getBit, Pbv.wordAt, hk2]

theorem readPairs_readBack (c : Container) : readPairs (serialize c) c.freq.length = c.freq := by
  apply List.ext_getElem (by simp [readPairs])
  intro k h1 h2
  have hk := List.getElem?_eq_getElem h2
  simp only [readPairs, List.getElem_map, List.getElem_range, headerBytes, pairBytes]
  rw [memRead_sym c k _ hk, show 16 + 1 + 5 * k = 17 + 5 * k by omega, memRead_count c k _ hk]
  simp

/-- LOAD of the image of a container gives the container, words and freeBits included (R119). -/
theorem deserialize_serialize (caps : Capacities) (c : Container) (hv : c.bits.Shape) (hc : c.bits.canonical)
    (hw : c.bits.words.length ≤ caps.capWords) (h58 : caps.capWords ≤ 2 ^ 58 - 1)
    (hp : allows caps.capPairs c.freq.length = true) (h64 : c.freq.length < 2 ^ 64) :
    deserialize caps (some (serialize c)) = .ok c := by
  have hs := size_lt c.bits caps.capWords hw h58
  have hlen := length_serialize c (ceil64_size_le hv)
  have h1 : ¬ (serialize c).length < 16 := by omega
  have h2 : ¬ (serialize c).length < 16 + 5 * c.freq.length + 8 * ceil64 c.bits.size := by omega
  have h3 : ¬ (allows caps.capPairs c.freq.length = false ∨ caps.capWords < max 1 (ceil64 c.bits.size)) := by
    rw [hp]
    unfold Pbv.canonical fewestWords at hc
    simp only [Bool.true_eq_false, false_or]
    omega
  simp only [deserialize, headerBytes, pairBytes, wordBytes, memRead_numPairs c h64, memRead_totalBits c hs, if_neg h1,
    if_neg h2, if_neg h3, payloadVector_readBack c hv hc, readPairs_readBack]

end Sys2Proof.Machine
end

