-- ==== Sys2Proof/Laws/Decode.lean ====
section
/-! SUPPORT. Laws of the decoder: what a decoded opcode says of the word, and which opcodes decode. -/

namespace Sys2Proof

/-- A word whose reserved field is zero is its opcode, zero-extended. -/
theorem word_of_reserved_zero (w : Word32) (h : reservedField w = 0) : w = (opcodeField w).setWidth 32 := by
  ext k hk
  have hb : k - 8 < 24 → w.getLsbD (8 + (k - 8)) = false := by
    simpa [reservedField] using congrArg (fun x => x.getLsbD (k - 8)) h
  by_cases h8 : k < 8
  · simp [opcodeField, h8, BitVec.getLsbD_eq_getElem hk]
  · have := hb (by omega)
    rw [show 8 + (k - 8) = k by omega, BitVec.getLsbD_eq_getElem hk] at this
    simp [opcodeField, h8, this]

/-- What decodeOpcode_table says of one opcode, as a test. -/
def opcodeRowOk (op : BitVec 8) : Bool :=
  match decodeOpcode op with
  | .ok i => encode i == op.setWidth 32 && opcodeListed (op.setWidth 32)
  | .error e => e == .unlistedOpcode op && !opcodeListed (op.setWidth 32)

/-- Over all 256 opcodes: a listed one decodes, to the command whose match word it is; the others do not. -/
theorem opcodeRowOk_all (op : BitVec 8) : opcodeRowOk op = true := by
  revert op
  decide

theorem decodeOpcode_ok (op : BitVec 8) (i : Instr) (h : decodeOpcode op = .ok i) :
    encode i = op.setWidth 32 ∧ opcodeListed (op.setWidth 32) = true := by
  simpa [opcodeRowOk, h] using opcodeRowOk_all op

theorem decodeOpcode_error (op : BitVec 8) (e : Illegal) (h : decodeOpcode op = .error e) :
    e = .unlistedOpcode op ∧ opcodeListed (op.setWidth 32) = false := by
  simpa [opcodeRowOk, h] using opcodeRowOk_all op

theorem encode_decodes (i : Instr) : reservedField (encode i) = 0 ∧ decodeOpcode (opcodeField (encode i)) = .ok i := by
  cases i <;> exact ⟨rfl, rfl⟩

theorem decode_error_of_reserved (w : Word32) (h : reservedField w ≠ 0) :
    decode w = .error (.reservedBitsSet (reservedField w)) := by
  exact if_neg h

theorem decode_of_reserved_zero (w : Word32) (h : reservedField w = 0) : decode w = decodeOpcode (opcodeField w) := by
  exact if_pos h

end Sys2Proof
end

