-- ==== Sys2Proof/Laws/State.lean ====
section
/-! SUPPORT. One lemma per field per update of State, each true by rfl, so that no proof unfolds a record update. -/

namespace Sys2Proof.Machine

/-! ## State.raise -/

@[simp] theorem State.raise_inBuf (s : State) (e : ErrKind) : (s.raise e).inBuf = s.inBuf := rfl
@[simp] theorem State.raise_outBuf (s : State) (e : ErrKind) : (s.raise e).outBuf = s.outBuf := rfl
@[simp] theorem State.raise_arg0 (s : State) (e : ErrKind) : (s.raise e).arg0 = s.arg0 := rfl
@[simp] theorem State.raise_arg1 (s : State) (e : ErrKind) : (s.raise e).arg1 = s.arg1 := rfl
@[simp] theorem State.raise_res (s : State) (e : ErrKind) : (s.raise e).res = s.res := rfl
@[simp] theorem State.raise_ct (s : State) (e : ErrKind) : (s.raise e).ct = s.ct := rfl
@[simp] theorem State.raise_bv (s : State) (e : ErrKind) : (s.raise e).bv = s.bv := rfl
@[simp] theorem State.raise_store (s : State) (e : ErrKind) : (s.raise e).store = s.store := rfl
@[simp] theorem State.raise_cmd (s : State) (e : ErrKind) : (s.raise e).cmd = s.cmd := rfl
@[simp] theorem State.raise_err (s : State) (e : ErrKind) : (s.raise e).err = e := rfl
@[simp] theorem State.raise_seq (s : State) (e : ErrKind) : (s.raise e).seq = .idle := rfl
@[simp] theorem State.raise_call (s : State) (e : ErrKind) : (s.raise e).call = none := rfl
@[simp] theorem State.raise_caps (s : State) (e : ErrKind) : (s.raise e).caps = s.caps := rfl
@[simp] theorem State.raise_wrOk (s : State) (e : ErrKind) : (s.raise e).wrOk = s.wrOk := rfl
@[simp] theorem State.raise_failedWrites (s : State) (e : ErrKind) : (s.raise e).failedWrites = s.failedWrites := rfl
@[simp] theorem State.raise_pending (s : State) (e : ErrKind) : (s.raise e).pending = s.pending := rfl

/-! ## State.finish -/

@[simp] theorem State.finish_inBuf (s : State) : (s.finish).inBuf = s.inBuf := rfl
@[simp] theorem State.finish_outBuf (s : State) : (s.finish).outBuf = s.outBuf := rfl
@[simp] theorem State.finish_arg0 (s : State) : (s.finish).arg0 = s.arg0 := rfl
@[simp] theorem State.finish_arg1 (s : State) : (s.finish).arg1 = s.arg1 := rfl
@[simp] theorem State.finish_res (s : State) : (s.finish).res = s.res := rfl
@[simp] theorem State.finish_ct (s : State) : (s.finish).ct = s.ct := rfl
@[simp] theorem State.finish_bv (s : State) : (s.finish).bv = s.bv := rfl
@[simp] theorem State.finish_store (s : State) : (s.finish).store = s.store := rfl
@[simp] theorem State.finish_cmd (s : State) : (s.finish).cmd = s.cmd := rfl
@[simp] theorem State.finish_err (s : State) : (s.finish).err = .none := rfl
@[simp] theorem State.finish_seq (s : State) : (s.finish).seq = .idle := rfl
@[simp] theorem State.finish_call (s : State) : (s.finish).call = none := rfl
@[simp] theorem State.finish_caps (s : State) : (s.finish).caps = s.caps := rfl
@[simp] theorem State.finish_wrOk (s : State) : (s.finish).wrOk = s.wrOk := rfl
@[simp] theorem State.finish_failedWrites (s : State) : (s.finish).failedWrites = s.failedWrites := rfl
@[simp] theorem State.finish_pending (s : State) : (s.finish).pending = s.pending := rfl

/-! ## State.issue -/

@[simp] theorem State.issue_inBuf (s : State) (w : Word32) : (s.issue w).inBuf = s.inBuf := rfl
@[simp] theorem State.issue_outBuf (s : State) (w : Word32) : (s.issue w).outBuf = s.outBuf := rfl
@[simp] theorem State.issue_arg0 (s : State) (w : Word32) : (s.issue w).arg0 = s.arg0 := rfl
@[simp] theorem State.issue_arg1 (s : State) (w : Word32) : (s.issue w).arg1 = s.arg1 := rfl
@[simp] theorem State.issue_res (s : State) (w : Word32) : (s.issue w).res = s.res := rfl
@[simp] theorem State.issue_ct (s : State) (w : Word32) : (s.issue w).ct = s.ct := rfl
@[simp] theorem State.issue_bv (s : State) (w : Word32) : (s.issue w).bv = s.bv := rfl
@[simp] theorem State.issue_store (s : State) (w : Word32) : (s.issue w).store = s.store := rfl
@[simp] theorem State.issue_cmd (s : State) (w : Word32) : (s.issue w).cmd = w := rfl
@[simp] theorem State.issue_err (s : State) (w : Word32) : (s.issue w).err = s.err := rfl
@[simp] theorem State.issue_seq (s : State) (w : Word32) : (s.issue w).seq = .run := rfl
@[simp] theorem State.issue_call (s : State) (w : Word32) : (s.issue w).call = s.call := rfl
@[simp] theorem State.issue_caps (s : State) (w : Word32) : (s.issue w).caps = s.caps := rfl
@[simp] theorem State.issue_wrOk (s : State) (w : Word32) : (s.issue w).wrOk = s.wrOk := rfl
@[simp] theorem State.issue_failedWrites (s : State) (w : Word32) : (s.issue w).failedWrites = s.failedWrites := rfl
@[simp] theorem State.issue_pending (s : State) (w : Word32) : (s.issue w).pending = s.pending := rfl

/-! ## State.setRes -/

@[simp] theorem State.setRes_inBuf (s : State) (v : Word) : (s.setRes v).inBuf = s.inBuf := rfl
@[simp] theorem State.setRes_outBuf (s : State) (v : Word) : (s.setRes v).outBuf = s.outBuf := rfl
@[simp] theorem State.setRes_arg0 (s : State) (v : Word) : (s.setRes v).arg0 = s.arg0 := rfl
@[simp] theorem State.setRes_arg1 (s : State) (v : Word) : (s.setRes v).arg1 = s.arg1 := rfl
@[simp] theorem State.setRes_res (s : State) (v : Word) : (s.setRes v).res = v := rfl
@[simp] theorem State.setRes_ct (s : State) (v : Word) : (s.setRes v).ct = s.ct := rfl
@[simp] theorem State.setRes_bv (s : State) (v : Word) : (s.setRes v).bv = s.bv := rfl
@[simp] theorem State.setRes_store (s : State) (v : Word) : (s.setRes v).store = s.store := rfl
@[simp] theorem State.setRes_cmd (s : State) (v : Word) : (s.setRes v).cmd = s.cmd := rfl
@[simp] theorem State.setRes_err (s : State) (v : Word) : (s.setRes v).err = s.err := rfl
@[simp] theorem State.setRes_seq (s : State) (v : Word) : (s.setRes v).seq = s.seq := rfl
@[simp] theorem State.setRes_call (s : State) (v : Word) : (s.setRes v).call = s.call := rfl
@[simp] theorem State.setRes_caps (s : State) (v : Word) : (s.setRes v).caps = s.caps := rfl
@[simp] theorem State.setRes_wrOk (s : State) (v : Word) : (s.setRes v).wrOk = s.wrOk := rfl
@[simp] theorem State.setRes_failedWrites (s : State) (v : Word) : (s.setRes v).failedWrites = s.failedWrites := rfl
@[simp] theorem State.setRes_pending (s : State) (v : Word) : (s.setRes v).pending = s.pending := rfl

/-! ## State.setCt -/

@[simp] theorem State.setCt_inBuf (s : State) (c : Container) : (s.setCt c).inBuf = s.inBuf := rfl
@[simp] theorem State.setCt_outBuf (s : State) (c : Container) : (s.setCt c).outBuf = s.outBuf := rfl
@[simp] theorem State.setCt_arg0 (s : State) (c : Container) : (s.setCt c).arg0 = s.arg0 := rfl
@[simp] theorem State.setCt_arg1 (s : State) (c : Container) : (s.setCt c).arg1 = s.arg1 := rfl
@[simp] theorem State.setCt_res (s : State) (c : Container) : (s.setCt c).res = s.res := rfl
@[simp] theorem State.setCt_ct (s : State) (c : Container) : (s.setCt c).ct = c := rfl
@[simp] theorem State.setCt_bv (s : State) (c : Container) : (s.setCt c).bv = s.bv := rfl
@[simp] theorem State.setCt_store (s : State) (c : Container) : (s.setCt c).store = s.store := rfl
@[simp] theorem State.setCt_cmd (s : State) (c : Container) : (s.setCt c).cmd = s.cmd := rfl
@[simp] theorem State.setCt_err (s : State) (c : Container) : (s.setCt c).err = s.err := rfl
@[simp] theorem State.setCt_seq (s : State) (c : Container) : (s.setCt c).seq = s.seq := rfl
@[simp] theorem State.setCt_call (s : State) (c : Container) : (s.setCt c).call = s.call := rfl
@[simp] theorem State.setCt_caps (s : State) (c : Container) : (s.setCt c).caps = s.caps := rfl
@[simp] theorem State.setCt_wrOk (s : State) (c : Container) : (s.setCt c).wrOk = s.wrOk := rfl
@[simp] theorem State.setCt_failedWrites (s : State) (c : Container) : (s.setCt c).failedWrites = s.failedWrites := rfl
@[simp] theorem State.setCt_pending (s : State) (c : Container) : (s.setCt c).pending = s.pending := rfl

/-! ## State.setBv -/

@[simp] theorem State.setBv_inBuf (s : State) (v : Pbv) : (s.setBv v).inBuf = s.inBuf := rfl
@[simp] theorem State.setBv_outBuf (s : State) (v : Pbv) : (s.setBv v).outBuf = s.outBuf := rfl
@[simp] theorem State.setBv_arg0 (s : State) (v : Pbv) : (s.setBv v).arg0 = s.arg0 := rfl
@[simp] theorem State.setBv_arg1 (s : State) (v : Pbv) : (s.setBv v).arg1 = s.arg1 := rfl
@[simp] theorem State.setBv_res (s : State) (v : Pbv) : (s.setBv v).res = s.res := rfl
@[simp] theorem State.setBv_ct (s : State) (v : Pbv) : (s.setBv v).ct = s.ct := rfl
@[simp] theorem State.setBv_bv (s : State) (v : Pbv) : (s.setBv v).bv = v := rfl
@[simp] theorem State.setBv_store (s : State) (v : Pbv) : (s.setBv v).store = s.store := rfl
@[simp] theorem State.setBv_cmd (s : State) (v : Pbv) : (s.setBv v).cmd = s.cmd := rfl
@[simp] theorem State.setBv_err (s : State) (v : Pbv) : (s.setBv v).err = s.err := rfl
@[simp] theorem State.setBv_seq (s : State) (v : Pbv) : (s.setBv v).seq = s.seq := rfl
@[simp] theorem State.setBv_call (s : State) (v : Pbv) : (s.setBv v).call = s.call := rfl
@[simp] theorem State.setBv_caps (s : State) (v : Pbv) : (s.setBv v).caps = s.caps := rfl
@[simp] theorem State.setBv_wrOk (s : State) (v : Pbv) : (s.setBv v).wrOk = s.wrOk := rfl
@[simp] theorem State.setBv_failedWrites (s : State) (v : Pbv) : (s.setBv v).failedWrites = s.failedWrites := rfl
@[simp] theorem State.setBv_pending (s : State) (v : Pbv) : (s.setBv v).pending = s.pending := rfl

/-! ## State.setOut -/

@[simp] theorem State.setOut_inBuf (s : State) (o : List Symbol) : (s.setOut o).inBuf = s.inBuf := rfl
@[simp] theorem State.setOut_outBuf (s : State) (o : List Symbol) : (s.setOut o).outBuf = o := rfl
@[simp] theorem State.setOut_arg0 (s : State) (o : List Symbol) : (s.setOut o).arg0 = s.arg0 := rfl
@[simp] theorem State.setOut_arg1 (s : State) (o : List Symbol) : (s.setOut o).arg1 = s.arg1 := rfl
@[simp] theorem State.setOut_res (s : State) (o : List Symbol) : (s.setOut o).res = s.res := rfl
@[simp] theorem State.setOut_ct (s : State) (o : List Symbol) : (s.setOut o).ct = s.ct := rfl
@[simp] theorem State.setOut_bv (s : State) (o : List Symbol) : (s.setOut o).bv = s.bv := rfl
@[simp] theorem State.setOut_store (s : State) (o : List Symbol) : (s.setOut o).store = s.store := rfl
@[simp] theorem State.setOut_cmd (s : State) (o : List Symbol) : (s.setOut o).cmd = s.cmd := rfl
@[simp] theorem State.setOut_err (s : State) (o : List Symbol) : (s.setOut o).err = s.err := rfl
@[simp] theorem State.setOut_seq (s : State) (o : List Symbol) : (s.setOut o).seq = s.seq := rfl
@[simp] theorem State.setOut_call (s : State) (o : List Symbol) : (s.setOut o).call = s.call := rfl
@[simp] theorem State.setOut_caps (s : State) (o : List Symbol) : (s.setOut o).caps = s.caps := rfl
@[simp] theorem State.setOut_wrOk (s : State) (o : List Symbol) : (s.setOut o).wrOk = s.wrOk := rfl
@[simp] theorem State.setOut_failedWrites (s : State) (o : List Symbol) : (s.setOut o).failedWrites = s.failedWrites := rfl
@[simp] theorem State.setOut_pending (s : State) (o : List Symbol) : (s.setOut o).pending = s.pending := rfl

/-! ## State.withCall -/

@[simp] theorem State.withCall_inBuf (s : State) (c : Call) : (s.withCall c).inBuf = s.inBuf := rfl
@[simp] theorem State.withCall_outBuf (s : State) (c : Call) : (s.withCall c).outBuf = s.outBuf := rfl
@[simp] theorem State.withCall_arg0 (s : State) (c : Call) : (s.withCall c).arg0 = s.arg0 := rfl
@[simp] theorem State.withCall_arg1 (s : State) (c : Call) : (s.withCall c).arg1 = s.arg1 := rfl
@[simp] theorem State.withCall_res (s : State) (c : Call) : (s.withCall c).res = s.res := rfl
@[simp] theorem State.withCall_ct (s : State) (c : Call) : (s.withCall c).ct = s.ct := rfl
@[simp] theorem State.withCall_bv (s : State) (c : Call) : (s.withCall c).bv = s.bv := rfl
@[simp] theorem State.withCall_store (s : State) (c : Call) : (s.withCall c).store = s.store := rfl
@[simp] theorem State.withCall_cmd (s : State) (c : Call) : (s.withCall c).cmd = s.cmd := rfl
@[simp] theorem State.withCall_err (s : State) (c : Call) : (s.withCall c).err = s.err := rfl
@[simp] theorem State.withCall_seq (s : State) (c : Call) : (s.withCall c).seq = s.seq := rfl
@[simp] theorem State.withCall_call (s : State) (c : Call) : (s.withCall c).call = some c := rfl
@[simp] theorem State.withCall_caps (s : State) (c : Call) : (s.withCall c).caps = s.caps := rfl
@[simp] theorem State.withCall_wrOk (s : State) (c : Call) : (s.withCall c).wrOk = s.wrOk := rfl
@[simp] theorem State.withCall_failedWrites (s : State) (c : Call) : (s.withCall c).failedWrites = s.failedWrites := rfl
@[simp] theorem State.withCall_pending (s : State) (c : Call) : (s.withCall c).pending = s.pending := rfl

/-! ## State.setFile -/

@[simp] theorem State.setFile_inBuf (s : State) (p : Path) (o : Option File) : (s.setFile p o).inBuf = s.inBuf := rfl
@[simp] theorem State.setFile_outBuf (s : State) (p : Path) (o : Option File) : (s.setFile p o).outBuf = s.outBuf := rfl
@[simp] theorem State.setFile_arg0 (s : State) (p : Path) (o : Option File) : (s.setFile p o).arg0 = s.arg0 := rfl
@[simp] theorem State.setFile_arg1 (s : State) (p : Path) (o : Option File) : (s.setFile p o).arg1 = s.arg1 := rfl
@[simp] theorem State.setFile_res (s : State) (p : Path) (o : Option File) : (s.setFile p o).res = s.res := rfl
@[simp] theorem State.setFile_ct (s : State) (p : Path) (o : Option File) : (s.setFile p o).ct = s.ct := rfl
@[simp] theorem State.setFile_bv (s : State) (p : Path) (o : Option File) : (s.setFile p o).bv = s.bv := rfl
@[simp] theorem State.setFile_store (s : State) (p : Path) (o : Option File) : (s.setFile p o).store = storeAssign s.store p.toNat o := rfl
@[simp] theorem State.setFile_cmd (s : State) (p : Path) (o : Option File) : (s.setFile p o).cmd = s.cmd := rfl
@[simp] theorem State.setFile_err (s : State) (p : Path) (o : Option File) : (s.setFile p o).err = s.err := rfl
@[simp] theorem State.setFile_seq (s : State) (p : Path) (o : Option File) : (s.setFile p o).seq = s.seq := rfl
@[simp] theorem State.setFile_call (s : State) (p : Path) (o : Option File) : (s.setFile p o).call = s.call := rfl
@[simp] theorem State.setFile_caps (s : State) (p : Path) (o : Option File) : (s.setFile p o).caps = s.caps := rfl
@[simp] theorem State.setFile_wrOk (s : State) (p : Path) (o : Option File) : (s.setFile p o).wrOk = s.wrOk := rfl
@[simp] theorem State.setFile_failedWrites (s : State) (p : Path) (o : Option File) : (s.setFile p o).failedWrites = s.failedWrites := rfl
@[simp] theorem State.setFile_pending (s : State) (p : Path) (o : Option File) : (s.setFile p o).pending = s.pending := rfl

/-! ## State.applyReset -/

@[simp] theorem State.applyReset_inBuf (s : State) : s.applyReset.inBuf = State.reset.inBuf := rfl
@[simp] theorem State.applyReset_outBuf (s : State) : s.applyReset.outBuf = State.reset.outBuf := rfl
@[simp] theorem State.applyReset_arg0 (s : State) : s.applyReset.arg0 = State.reset.arg0 := rfl
@[simp] theorem State.applyReset_arg1 (s : State) : s.applyReset.arg1 = State.reset.arg1 := rfl
@[simp] theorem State.applyReset_res (s : State) : s.applyReset.res = State.reset.res := rfl
@[simp] theorem State.applyReset_ct (s : State) : s.applyReset.ct = State.reset.ct := rfl
@[simp] theorem State.applyReset_bv (s : State) : s.applyReset.bv = State.reset.bv := rfl
@[simp] theorem State.applyReset_store (s : State) : s.applyReset.store = s.store := rfl
@[simp] theorem State.applyReset_cmd (s : State) : s.applyReset.cmd = State.reset.cmd := rfl
@[simp] theorem State.applyReset_err (s : State) : s.applyReset.err = State.reset.err := rfl
@[simp] theorem State.applyReset_seq (s : State) : s.applyReset.seq = State.reset.seq := rfl
@[simp] theorem State.applyReset_call (s : State) : s.applyReset.call = State.reset.call := rfl
@[simp] theorem State.applyReset_caps (s : State) : s.applyReset.caps = s.caps := rfl
@[simp] theorem State.applyReset_wrOk (s : State) : s.applyReset.wrOk = s.wrOk := rfl
@[simp] theorem State.applyReset_failedWrites (s : State) : s.applyReset.failedWrites = s.failedWrites := rfl
@[simp] theorem State.applyReset_pending (s : State) : s.applyReset.pending = s.pending := rfl

end Sys2Proof.Machine
end

