-- ==== Sys2Proof/Laws/Exec.lean ====
section
/-! SUPPORT. What each meaning and each step can do, said once: later proofs cite these and unfold no meaning. -/

namespace Sys2Proof.Machine

/-! ## The wrapper of R66 -/

@[simp] theorem endWithVector_ok (s : State) (v : Pbv) : endWithVector s (.ok v) = .next (s.setBv v).finish := rfl
@[simp] theorem endWithVector_error (s : State) (e : ErrKind) : endWithVector s (.error e) = .next (s.raise e) := rfl
@[simp] theorem endWithResult_ok (s : State) (x : Word) : endWithResult s (.ok x) = .next (s.setRes x).finish := rfl
@[simp] theorem endWithResult_error (s : State) (e : ErrKind) : endWithResult s (.error e) = .next (s.raise e) := rfl

theorem endWithVector_cases (s : State) (r : Except ErrKind Pbv) :
    (∃ v, r = .ok v ∧ endWithVector s r = .next (s.setBv v).finish) ∨
    (∃ e, r = .error e ∧ endWithVector s r = .next (s.raise e)) := by
  cases r with
  | ok v => exact .inl ⟨v, rfl, rfl⟩
  | error e => exact .inr ⟨e, rfl, rfl⟩

theorem endWithResult_cases (s : State) (r : Except ErrKind Word) :
    (∃ x, r = .ok x ∧ endWithResult s r = .next (s.setRes x).finish) ∨
    (∃ e, r = .error e ∧ endWithResult s r = .next (s.raise e)) := by
  cases r with
  | ok x => exact .inl ⟨x, rfl, rfl⟩
  | error e => exact .inr ⟨e, rfl, rfl⟩

/-- The capacity check on a result: which vector it lets through and which kind it raises. -/
theorem withinWords_cases (cap : Nat) (v : Pbv) :
    (v.words.length ≤ cap ∧ withinWords cap v = .ok v) ∨
    (cap < v.words.length ∧ withinWords cap v = .error .capacityExceeded) := by
  by_cases h : cap < v.words.length
  · exact .inr ⟨h, by simp [withinWords, h]⟩
  · exact .inl ⟨by omega, by simp [withinWords, h]⟩

theorem pbvPop_cases (v : Pbv) :
    (v.size = 0 ∧ pbvPop v = .error .underflow) ∨ (v.size ≠ 0 ∧ pbvPop v = .ok (pbvPopBit v)) := by
  by_cases h : v.size = 0 <;> simp [pbvPop, h]

theorem pbvAt_cases (v : Pbv) (i : Nat) :
    (v.size ≤ i ∧ pbvAt v i = .error .indexOutOfRange) ∨ (i < v.size ∧ pbvAt v i = .ok (v.getBit i)) := by
  by_cases h : v.size ≤ i
  · exact .inl ⟨h, by simp [pbvAt, h]⟩
  · exact .inr ⟨by omega, by simp [pbvAt, h]⟩

theorem pbvSet_cases (v : Pbv) (i : Nat) (b : Bool) :
    (v.size ≤ i ∧ pbvSet v i b = .error .indexOutOfRange) ∨
    (i < v.size ∧ pbvSet v i b = .ok (v.putWord (i / 64) (putBit (v.wordAt (i / 64)) (63 - i % 64) b))) := by
  by_cases h : v.size ≤ i
  · exact .inl ⟨h, by simp [pbvSet, h]⟩
  · exact .inr ⟨by omega, by simp [pbvSet, h]⟩

theorem pbvResize_cases (cap : Nat) (v : Pbv) (n : Nat) :
    (cap < fewestWords n ∧ pbvResize cap v n = .error .capacityExceeded) ∨
    (fewestWords n ≤ cap ∧ pbvResize cap v n = .ok (resized v n)) := by
  rw [pbvResize_eq]
  by_cases h : cap < fewestWords n
  · exact .inl ⟨h, by simp [h]⟩
  · exact .inr ⟨by omega, by simp [h]⟩

theorem pbvWord_cases (v : Pbv) (k : Nat) :
    (v.words.length ≤ k ∧ pbvWord v k = .error .indexOutOfRange) ∨
    (k < v.words.length ∧ pbvWord v k = .ok (v.wordAt k)) := by
  by_cases h : v.words.length ≤ k
  · exact .inl ⟨h, by simp [pbvWord, h]⟩
  · exact .inr ⟨by omega, by simp [pbvWord, h]⟩

/-! ## The PBV_* meanings over the operand registers -/

theorem execPbvPushBit_eq (s : State) :
    execPbvPushBit s = endWithVector s (withinWords s.caps.capWords (pbvPushBit s.bv (s.arg0.getLsbD 0))) := rfl

theorem execPbvPushBits_eq (s : State) :
    execPbvPushBits s =
      if s.arg1.toNat = 0 ∨ 64 < s.arg1.toNat then .next (s.raise .illegalCommand)
      else endWithVector s (withinWords s.caps.capWords (pbvPushBits s.bv s.arg0 s.arg1.toNat)) := rfl

theorem execPbvPushVec_eq (s : State) :
    execPbvPushVec s =
      if s.caps.capWords < max s.bv.words.length (ceil64 (s.bv.size + s.ct.bits.size)) then
        .next (s.raise .capacityExceeded)
      else .next (s.setBv (pbvPushVec s.bv s.ct.bits)).finish := rfl

theorem execPbvSet_eq (s : State) :
    execPbvSet s = endWithVector s (pbvSet s.bv s.arg0.toNat (s.arg1.getLsbD 0)) := rfl

theorem execPbvResize_eq (s : State) :
    execPbvResize s = endWithVector s (pbvResize s.caps.capWords s.bv s.arg0.toNat) := rfl

theorem execPbvWord_eq (s : State) : execPbvWord s = endWithResult s (pbvWord s.bv s.arg0.toNat) := rfl

theorem natWord_toNat (n : Nat) (h : n < 2 ^ 64) : (natWord n).toNat = n := by
  simpa [natWord] using h

/-! ## COMPRESS and DECOMPRESS -/

/-- The payload COMPRESS makes (R100), as the vector of its codes' bits. -/
def payloadOf (root : Tree) (input : List Symbol) : Pbv := Pbv.ofBits (input.flatMap root.codeBits)

/-- Everything COMPRESS can do. -/
theorem execCompress_cases (s : State) :
    (s.caps.capIn < s.inBuf.length ∧ execCompress s = .next (s.raise .capacityExceeded)) ∨
    (s.inBuf = [] ∧ execCompress s = .next (s.setCt Container.empty).finish) ∨
    (s.inBuf.length ≤ s.caps.capIn ∧ s.inBuf ≠ [] ∧
      ∃ root, treeBuild (freqCount s.inBuf) = some root ∧
        ((s.caps.capWords < (payloadOf root s.inBuf).words.length ∧
            execCompress s = .next (s.raise .capacityExceeded)) ∨
          ((payloadOf root s.inBuf).words.length ≤ s.caps.capWords ∧
            execCompress s = .next (s.setCt ⟨freqCount s.inBuf, payloadOf root s.inBuf⟩).finish))) := by
  by_cases h1 : s.caps.capIn < s.inBuf.length
  · exact .inl ⟨h1, by simp [execCompress, h1]⟩
  by_cases h2 : s.inBuf = []
  · exact .inr (.inl ⟨h2, by simp [execCompress, h2]⟩)
  obtain ⟨root, hr, -, -⟩ := treeBuild_spec _ (freqCount_ne_nil _ h2)
  obtain ⟨hn, hm⟩ := freqCount_root _ _ hr
  have he := encodeStream_eq root hn s.inBuf fun x hx => (hm x).2 hx
  refine .inr (.inr ⟨by omega, h2, root, hr, ?_⟩)
  rcases withinWords_cases s.caps.capWords (payloadOf root s.inBuf) with ⟨hl, hw⟩ | ⟨hl, hw⟩
  · refine .inr ⟨hl, ?_⟩
    simp only [payloadOf] at hw
    simp [execCompress, h1, h2, hr, he, hw, payloadOf, State.withCall, State.setCt, State.finish]
  · refine .inl ⟨hl, ?_⟩
    simp only [payloadOf] at hw
    simp [execCompress, h1, h2, hr, he, hw, State.withCall, State.raise]

/-- The stream DECOMPRESS emits exists for every nonempty table, and has at most one symbol per bit. -/
theorem decodeStream_total (f : List FreqEntry) (root : Tree) (h : treeBuild f = some root) (b : Pbv) :
    ∃ o last, decodeStream f root b = some (o, last) ∧ o.length ≤ b.size := by
  obtain ⟨hf, -, -⟩ := treeBuild_some _ _ h
  match f, hf, h with
  | [e], _, _ => exact ⟨_, _, rfl, by simp [singleDecode]⟩
  | e :: e' :: rest, _, h =>
    have hi := treeBuild_internal _ _ h (by simp)
    obtain ⟨o, last, ho, hl⟩ := decodeFrom_total root hi b.bits .atRoot hi
    exact ⟨o, last, ho, by simpa using hl⟩

/-- Everything DECOMPRESS can do. -/
theorem execDecompress_cases (s : State) :
    ((s.ct.freq = [] ∨ s.ct.bits.size = 0) ∧ execDecompress s = .next (s.setOut []).finish) ∨
    (s.ct.freq ≠ [] ∧ s.ct.bits.size ≠ 0 ∧
      ∃ root o last, treeBuild s.ct.freq = some root ∧ decodeStream s.ct.freq root s.ct.bits = some (o, last) ∧
        o.length ≤ s.ct.bits.size ∧
        ((allows s.caps.capOut o.length = true ∧ execDecompress s = .next (s.setOut o).finish) ∨
          (allows s.caps.capOut o.length = false ∧ execDecompress s = .next (s.raise .capacityExceeded)))) := by
  by_cases h : s.ct.freq = [] ∨ s.ct.bits.size = 0
  · exact .inl ⟨h, by simp [execDecompress, h]⟩
  obtain ⟨h1, h2⟩ := not_or.1 h
  obtain ⟨root, hr, -, -⟩ := treeBuild_spec _ h1
  obtain ⟨o, last, ho, hl⟩ := decodeStream_total _ _ hr s.ct.bits
  refine .inr ⟨h1, h2, root, o, last, hr, ho, hl, ?_⟩
  cases ha : allows s.caps.capOut o.length
  · exact .inr ⟨rfl, by simp [execDecompress, h, hr, ho, ha, State.withCall, State.raise]⟩
  · exact .inl ⟨rfl, by simp [execDecompress, h, hr, ho, ha, State.withCall, State.setOut, State.finish]⟩

/-! ## SAVE and LOAD -/

/-- What a failed SAVE leaves at its path: a free value within `CAP_FILE`. -/
def leftAfterFailure (s : State) : Option File :=
  clipFile s.caps.capFile (Config.fileAfterFailedWrite s.failedWrites)

/-- Everything SAVE can do. -/
theorem execSave_cases (s : State) :
    (allows s.caps.capFile (serialize s.ct).length = false ∧ execSave s = .next (s.raise .capacityExceeded)) ∨
    (allows s.caps.capFile (serialize s.ct).length = true ∧ s.wrOk = true ∧
      execSave s = .next (s.setFile s.arg0 (some (serialize s.ct))).finish) ∨
    (allows s.caps.capFile (serialize s.ct).length = true ∧ s.wrOk = false ∧
      execSave s =
        .next ({ s.setFile s.arg0 (leftAfterFailure s) with failedWrites := s.failedWrites + 1 }.raise .writeFailed)) := by
  cases ha : allows s.caps.capFile (serialize s.ct).length
  · exact .inl ⟨rfl, by simp [execSave, ha]⟩
  · cases hw : s.wrOk
    · exact .inr (.inr ⟨rfl, rfl, by simp [execSave, ha, hw, leftAfterFailure, State.pathOperand]⟩)
    · exact .inr (.inl ⟨rfl, rfl, by simp [execSave, ha, hw, State.pathOperand]⟩)

/-- Everything the reading of a file can answer (R115). -/
theorem deserialize_cases (caps : Capacities) (file : Option File) :
    (file = none ∧ deserialize caps file = .error .notFound) ∨
    ∃ f, file = some f ∧
      ((f.length < 16 ∧ deserialize caps file = .error .truncatedCorrupt) ∨
        (16 ≤ f.length ∧ f.length < declaredBytes f ∧ deserialize caps file = .error .truncatedCorrupt) ∨
        (16 ≤ f.length ∧ declaredBytes f ≤ f.length ∧
          (allows caps.capPairs (memRead f 0 8) = false ∨ caps.capWords < fewestWords (memRead f 8 8)) ∧
          deserialize caps file = .error .capacityExceeded) ∨
        (16 ≤ f.length ∧ declaredBytes f ≤ f.length ∧
          allows caps.capPairs (memRead f 0 8) = true ∧ fewestWords (memRead f 8 8) ≤ caps.capWords ∧
          deserialize caps file = .ok ⟨readPairs f (memRead f 0 8),
            payloadVector (readWords f (memRead f 0 8) (ceil64 (memRead f 8 8))) (memRead f 8 8)⟩)) := by
  cases file with
  | none => exact .inl ⟨rfl, rfl⟩
  | some f =>
    refine .inr ⟨f, rfl, ?_⟩
    by_cases h1 : f.length < 16
    · exact .inl ⟨h1, by simp [deserialize, headerBytes, h1]⟩
    by_cases h2 : f.length < declaredBytes f
    · refine .inr (.inl ⟨by omega, h2, ?_⟩)
      have h2' := h2
      simp only [declaredBytes, headerBytes, pairBytes, wordBytes] at h2'
      simp [deserialize, headerBytes, pairBytes, wordBytes, h1, h2']
    have h2' := h2
    simp only [declaredBytes, headerBytes, pairBytes, wordBytes] at h2'
    by_cases h3 : allows caps.capPairs (memRead f 0 8) = false ∨ caps.capWords < fewestWords (memRead f 8 8)
    · refine .inr (.inr (.inl ⟨by omega, by omega, h3, ?_⟩))
      simp only [fewestWords] at h3
      simp only [deserialize, headerBytes, pairBytes, wordBytes, h1, h2', h3, if_true, if_false]
    · refine .inr (.inr (.inr ⟨by omega, by omega, by simpa using (not_or.1 h3).1, by omega, ?_⟩))
      simp only [fewestWords] at h3
      simp only [deserialize, headerBytes, pairBytes, wordBytes, h1, h2', h3, if_false]

/-- Everything LOAD can do. -/
theorem execLoad_cases (s : State) :
    (∃ e, deserialize s.caps (fileAt s.store s.arg0.toNat) = .error e ∧
      execLoad s = .next ((s.setCt Container.empty).raise e)) ∨
    (∃ c, deserialize s.caps (fileAt s.store s.arg0.toNat) = .ok c ∧ execLoad s = .next (s.setCt c).finish) := by
  cases h : deserialize s.caps (fileAt s.store s.arg0.toNat) with
  | error e => exact .inl ⟨e, rfl, by simp [execLoad, State.pathOperand, h]⟩
  | ok c => exact .inr ⟨c, rfl, by simp [execLoad, State.pathOperand, h]⟩

/-! ## The step -/

theorem step_cons (s : State) (m : HostMove) (rest : List HostMove) (h : s.pending = m :: rest) (hi : s.seq = .idle) :
    step s = hostMove { s with pending := rest } m := by
  simp [step, nextMove, h, hi]

theorem step_cons_run (s : State) (m : HostMove) (rest : List HostMove) (h : s.pending = m :: rest)
    (hr : s.seq = .run) : step s = .fault .moveWhileRunning := by
  simp [step, nextMove, h, hr]

theorem writeCommand_cases (s : State) (w : Word32) :
    (∃ i, decode w = .ok i ∧ writeCommand s w = exec i (s.issue w)) ∨
    (∃ e, decode w = .error e ∧ writeCommand s w = .next ((s.issue w).raise .illegalCommand)) := by
  cases h : decode w with
  | ok i => exact .inl ⟨i, rfl, by simp [writeCommand, h]⟩
  | error e => exact .inr ⟨e, rfl, by simp [writeCommand, h]⟩

/-! ## The data premises of R143 under the updates -/

namespace State.DataInv

variable {s : State}

theorem raise (h : s.DataInv) (e : ErrKind) : (s.raise e).DataInv :=
  ⟨h.caps, h.bv, h.ctBits, h.canonical, h.ctFreq, h.outBuf, h.store, h.files⟩

theorem finish (h : s.DataInv) : s.finish.DataInv :=
  ⟨h.caps, h.bv, h.ctBits, h.canonical, h.ctFreq, h.outBuf, h.store, h.files⟩

theorem issue (h : s.DataInv) (w : Word32) : (s.issue w).DataInv :=
  ⟨h.caps, h.bv, h.ctBits, h.canonical, h.ctFreq, h.outBuf, h.store, h.files⟩

theorem setRes (h : s.DataInv) (v : Word) : (s.setRes v).DataInv :=
  ⟨h.caps, h.bv, h.ctBits, h.canonical, h.ctFreq, h.outBuf, h.store, h.files⟩

theorem setBv (h : s.DataInv) (v : Pbv) (hv : v.wf s.caps.capWords) : (s.setBv v).DataInv :=
  ⟨h.caps, hv, h.ctBits, h.canonical, h.ctFreq, h.outBuf, h.store, h.files⟩

theorem setCt (h : s.DataInv) (c : Container) (hb : c.bits.wf s.caps.capWords) (hc : c.bits.canonical)
    (hf : allows s.caps.capPairs c.freq.length = true) : (s.setCt c).DataInv :=
  ⟨h.caps, h.bv, hb, hc, hf, h.outBuf, h.store, h.files⟩

theorem setOut (h : s.DataInv) (o : List Symbol) (ho : allows s.caps.capOut o.length = true) : (s.setOut o).DataInv :=
  ⟨h.caps, h.bv, h.ctBits, h.canonical, h.ctFreq, ho, h.store, h.files⟩

theorem setFile (h : s.DataInv) (p : Path) (o : Option File)
    (ho : ∀ f, o = some f → allows s.caps.capFile f.length = true) : (s.setFile p o).DataInv := by
  refine ⟨h.caps, h.bv, h.ctBits, h.canonical, h.ctFreq, h.outBuf, h.store.storeAssign _ p.isLt o, ?_⟩
  intro e he
  rcases mem_storeAssign _ _ _ _ he with hf | hm
  · exact ho _ hf
  · exact h.files _ hm

end State.DataInv

/-- The empty vector meets every capacity in its range (R7, R21). -/
theorem Pbv.wf_empty (cap : Nat) (h : 1 ≤ cap) : Pbv.empty.wf cap := by
  rw [Pbv.wf_iff]
  exact ⟨Pbv.shape_empty, by simpa [Pbv.empty] using h⟩

theorem Pbv.canonical_empty : Pbv.empty.canonical := by decide

/-- What `Capacities.wf` says, as inequalities. -/
theorem Capacities.wf_iff (c : Capacities) :
    c.wf = true ↔ c.capIn ≤ 2 ^ 32 - 1 ∧ allows c.capPairs 256 = true ∧ (1 ≤ c.capWords ∧ c.capWords ≤ 2 ^ 58 - 1) ∧
      allows c.capFile 16 = true := by
  simp [Capacities.wf, Capacities.capInWf, Capacities.capPairsWf, Capacities.capWordsWf, Capacities.capFileWf, and_assoc]

theorem allows_zero (cap : Option Nat) : allows cap 0 = true := by
  cases cap <;> simp [allows]

end Sys2Proof.Machine
end

