-- ==== Sys2Proof/Laws/PerInstr.lean ====
section
/-! SUPPORT. The family Encoding: what the encoding of each command is, one lemma per constructor. -/

namespace Sys2Proof.Laws.Encoding

/-- The command's word is legal (R50, R53), its reserved field is zero, and the opcode selects the command (R52). -/
def Statement (i : Instr) : Prop :=
  commandWordWf (encode i) = true ∧ reservedField (encode i) = 0 ∧ decodeOpcode (opcodeField (encode i)) = .ok i

theorem compress : Statement .compress := ⟨rfl, rfl, rfl⟩
theorem decompress : Statement .decompress := ⟨rfl, rfl, rfl⟩
theorem save : Statement .save := ⟨rfl, rfl, rfl⟩
theorem load : Statement .load := ⟨rfl, rfl, rfl⟩
theorem isEmpty : Statement .isEmpty := ⟨rfl, rfl, rfl⟩
theorem isFull : Statement .isFull := ⟨rfl, rfl, rfl⟩
theorem pbvClear : Statement .pbvClear := ⟨rfl, rfl, rfl⟩
theorem pbvSize : Statement .pbvSize := ⟨rfl, rfl, rfl⟩
theorem pbvPushBit : Statement .pbvPushBit := ⟨rfl, rfl, rfl⟩
theorem pbvPushBits : Statement .pbvPushBits := ⟨rfl, rfl, rfl⟩
theorem pbvPushVec : Statement .pbvPushVec := ⟨rfl, rfl, rfl⟩
theorem pbvPop : Statement .pbvPop := ⟨rfl, rfl, rfl⟩
theorem pbvGet : Statement .pbvGet := ⟨rfl, rfl, rfl⟩
theorem pbvAt : Statement .pbvAt := ⟨rfl, rfl, rfl⟩
theorem pbvSet : Statement .pbvSet := ⟨rfl, rfl, rfl⟩
theorem pbvResize : Statement .pbvResize := ⟨rfl, rfl, rfl⟩
theorem pbvPopcount : Statement .pbvPopcount := ⟨rfl, rfl, rfl⟩
theorem pbvWord : Statement .pbvWord := ⟨rfl, rfl, rfl⟩

end Sys2Proof.Laws.Encoding
end

