-- ==== Sys2Proof/Tests/Slice0.lean ====
section
/-! SUPPORT. Tests: ill-formed terms refused, words decoded, one step per command, and for each statement with hypotheses a
state that meets them. Expected values are those of 95_test_vectors.md (the vector's name in each comment). -/

namespace Sys2Proof.Tests

open Sys2Proof.Machine

/-! ## Helpers -/

/-- The reset state of a small instance: `CAP_IN` 16, `CAP_OUT` 16, `CAP_PAIRS` 256, `CAP_WORDS` 2, `CAP_FILE` 64. -/
def small : State := { State.reset with caps := ⟨16, some 16, some 256, 2, some 64⟩ }

/-- The result is a next state of which `p` holds. -/
def next? (r : Result) (p : State → Bool) : Bool :=
  match r with
  | .next t => p t
  | .fault _ => false
  | .refused _ => false

/-- `small` with a vector in `BV` and operands. -/
def withBv (v : Pbv) (a0 a1 : Word) : State := { small with bv := v, arg0 := a0, arg1 := a1 }

/-- `small` with a container. -/
def withCt (c : Container) : State := { small with ct := c }

/-- `small` with one more host move to make. -/
def about (m : HostMove) : State := { small with pending := [m] }

/-- "abc" (T3). -/
def abc : List Symbol := [0x61, 0x62, 0x63]

/-- The container of "abc" (T3). -/
def ctAbc : Container := ⟨[⟨0x61, 1⟩, ⟨0x62, 1⟩, ⟨0x63, 1⟩], ⟨[0xB000000000000000], 59⟩⟩

/-- The tree of "ab" (T1). -/
def treeAb : Machine.Tree := .node 2 0x61 (.leaf 0x61 1) (.leaf 0x62 1)

/-- The file of "abc" (C6). -/
def fileAbc : File :=
  [3, 0, 0, 0, 0, 0, 0, 0] ++ [5, 0, 0, 0, 0, 0, 0, 0] ++ [0x61, 1, 0, 0, 0] ++ [0x62, 1, 0, 0, 0] ++
    [0x63, 1, 0, 0, 0] ++ [0, 0, 0, 0, 0, 0, 0, 0xB0]

/-- `small` with one file under path 1, and `ARG0` = 1. -/
def withFile (f : File) : State := { small with arg0 := 1, store := [(1, f)] }

/-- The lazy form of V38 (64 bits in two words). -/
def lazy64 : Pbv := ⟨[0xFFFFFFFFFFFFFFFF, 0], 64⟩

/-- The same bits in one word (V43). -/
def full64 : Pbv := ⟨[0xFFFFFFFFFFFFFFFF], 0⟩

/-! ## Well-formedness refuses -/

theorem test_wf_reserved_bits : commandWordWf 0x00000101 = false := by decide
theorem test_wf_unlisted_opcodes :
    commandWordWf 0x00000000 = false ∧ commandWordWf 0x00000007 = false ∧ commandWordWf 0x0000000F = false ∧
      commandWordWf 0x0000001C = false := by decide
theorem test_wf_capIn : (Capacities.mk (2 ^ 32) none none 1 none).capInWf = false := by decide
theorem test_wf_capPairs : (Capacities.mk 1 none (some 255) 1 none).capPairsWf = false := by decide
theorem test_wf_capWords :
    (Capacities.mk 1 none none 0 none).capWordsWf = false ∧ (Capacities.mk 1 none none (2 ^ 58) none).capWordsWf = false := by
  decide
theorem test_wf_capFile : (Capacities.mk 1 none none 1 (some 15)).capFileWf = false := by decide
theorem test_wf_capacities :
    (Capacities.mk 1 none none 0 none).wf = false ∧ small.caps.wf = true ∧ Capacities.largest.wf = true := by decide
theorem test_wf_store : ¬ Memory.wf [(2, []), (1, [])] ∧ ¬ Memory.wf [(1, []), (1, [])] ∧ ¬ Memory.wf [(2 ^ 64, [])] := by
  decide
theorem test_wf_vector :
    ¬ Pbv.wf ⟨[], 0⟩ 2 ∧ ¬ Pbv.wf ⟨[0], 65⟩ 2 ∧ ¬ Pbv.wf ⟨[1], 1⟩ 2 ∧ ¬ Pbv.wf ⟨[0, 0, 0], 64⟩ 2 := by decide

/-! ## Decoding (R52, E1 to E4): every row's word, bit by bit, and words of no row -/

theorem test_decode_compress : decode 0b00000000000000000000000000000001 = .ok .compress := by decide
theorem test_decode_decompress : decode 0b00000000000000000000000000000010 = .ok .decompress := by decide
theorem test_decode_save : decode 0b00000000000000000000000000000011 = .ok .save := by decide
theorem test_decode_load : decode 0b00000000000000000000000000000100 = .ok .load := by decide
theorem test_decode_isEmpty : decode 0b00000000000000000000000000000101 = .ok .isEmpty := by decide
theorem test_decode_isFull : decode 0b00000000000000000000000000000110 = .ok .isFull := by decide
theorem test_decode_pbvClear : decode 0b00000000000000000000000000010000 = .ok .pbvClear := by decide
theorem test_decode_pbvSize : decode 0b00000000000000000000000000010001 = .ok .pbvSize := by decide
theorem test_decode_pbvPushBit : decode 0b00000000000000000000000000010010 = .ok .pbvPushBit := by decide
theorem test_decode_pbvPushBits : decode 0b00000000000000000000000000010011 = .ok .pbvPushBits := by decide
theorem test_decode_pbvPushVec : decode 0b00000000000000000000000000010100 = .ok .pbvPushVec := by decide
theorem test_decode_pbvPop : decode 0b00000000000000000000000000010101 = .ok .pbvPop := by decide
theorem test_decode_pbvGet : decode 0b00000000000000000000000000010110 = .ok .pbvGet := by decide
theorem test_decode_pbvAt : decode 0b00000000000000000000000000010111 = .ok .pbvAt := by decide
theorem test_decode_pbvSet : decode 0b00000000000000000000000000011000 = .ok .pbvSet := by decide
theorem test_decode_pbvResize : decode 0b00000000000000000000000000011001 = .ok .pbvResize := by decide
theorem test_decode_pbvPopcount : decode 0b00000000000000000000000000011010 = .ok .pbvPopcount := by decide
theorem test_decode_pbvWord : decode 0b00000000000000000000000000011011 = .ok .pbvWord := by decide
theorem test_decode_illegal :
    decode 0x00000000 = .error (.unlistedOpcode 0) ∧ decode 0x0000001C = .error (.unlistedOpcode 0x1C) ∧
      decode 0x00000101 = .error (.reservedBitsSet 1) ∧ decode 0x80000015 = .error (.reservedBitsSet 0x800000) := by
  decide

/-! ## The step and the host -/

theorem test_first_step_after_reset :
    next? (step (State.reset.withFetchWord 32 0x11)) (fun t => t.cmd == 0x11 && t.err == .none && t.seq == .idle) = true := by
  decide
/-- E1. -/
theorem test_illegal_word_sets_err_6 :
    next? (step (State.reset.withFetchWord 32 0)) (fun t => t.errWord == 6 && t.status == 2) = true := by decide
theorem test_write_to_status_is_ignored :
    next? (step (about (.writeStatus 3))) (fun t => t.status == 0 && t.pending == []) = true := by decide
theorem test_reset_keeps_store :
    next? (step { withFile fileAbc with pending := [.reset] }) (fun t => t.arg0 == 0 && t.store == [(1, fileAbc)]) = true := by
  decide
theorem test_host_reads :
    (withFile fileAbc).hostRead (.file 1) = .file (some fileAbc) ∧ small.hostRead .status = .word32 0 := by decide
theorem test_line_moves :
    (Line.command .pbvPushBits 0x2B 6).moves = [.writeArg0 0x2B, .writeArg1 6, .writeCmd 0x13] := by decide

/-! ## One step per command -/

/-- T4: "aaabbc". -/
theorem test_compress :
    next? (exec .compress { small with inBuf := [0x61, 0x61, 0x61, 0x62, 0x62, 0x63] })
      (fun t => t.ct == ⟨[⟨0x61, 3⟩, ⟨0x62, 2⟩, ⟨0x63, 1⟩], ⟨[0x1F00000000000000], 55⟩⟩ && t.err == .none) = true := by
  decide
/-- T9: "aaaa", the lone leaf. -/
theorem test_compress_single_symbol :
    next? (exec .compress { small with inBuf := [0x61, 0x61, 0x61, 0x61] })
      (fun t => t.ct == ⟨[⟨0x61, 4⟩], ⟨[0], 60⟩⟩) = true := by decide
/-- D3: the table of S1, payload "0111": a partial code is dropped. -/
theorem test_decompress_partial_code :
    next? (exec .decompress (withCt ⟨[⟨0x61, 5⟩, ⟨0x62, 2⟩, ⟨0x72, 2⟩, ⟨0x63, 1⟩, ⟨0x64, 1⟩], ⟨[0x7000000000000000], 60⟩⟩))
      (fun t => t.outBuf == [0x61]) = true := by decide
/-- D12: a table with a symbol twice. -/
theorem test_decompress_duplicate_symbol :
    next? (exec .decompress (withCt ⟨[⟨0x61, 1⟩, ⟨0x61, 1⟩, ⟨0x62, 1⟩], ⟨[0x5800000000000000], 59⟩⟩))
      (fun t => t.outBuf == [0x62, 0x61, 0x61]) = true := by decide
/-- C6. -/
theorem test_save :
    next? (exec .save { withCt ctAbc with arg0 := 1 }) (fun t => t.store == [(1, fileAbc)] && t.err == .none) = true := by
  decide
/-- WriteFailed: `ERR` 3, `CT` unchanged; nothing is said of the file. -/
theorem test_save_write_failed :
    next? (exec .save { withCt ctAbc with wrOk := false }) (fun t => t.errWord == 3 && t.ct == ctAbc) = true := by rfl
/-- L10, on the file of "abc": unused positions are zeroed. -/
theorem test_load_zeroes_unused_positions :
    next? (exec .load (withFile (fileAbc.take 31 ++ [0xFF, 0xFF, 0xFF, 0xFF, 0xFF, 0xFF, 0xFF, 0xB7])))
      (fun t => t.ct == ctAbc && t.err == .none) = true := by decide
/-- L16: `numPairs` = 2^64 − 1 is no wrap-around. -/
theorem test_load_huge_header :
    next? (exec .load { withFile (List.replicate 8 0xFF ++ List.replicate 20 0) with ct := ctAbc })
      (fun t => t.errWord == 2 && t.ct == ⟨[], ⟨[0], 64⟩⟩) = true := by decide
/-- L14 and L15. -/
theorem test_isEmpty :
    next? (exec .isEmpty (withCt ⟨[⟨0x61, 4⟩], ⟨[0], 64⟩⟩)) (fun t => t.res == 1) = true ∧
      next? (exec .isEmpty (withCt ⟨[], ⟨[0xA000000000000000], 61⟩⟩)) (fun t => t.res == 0) = true := by decide
theorem test_isFull :
    next? (exec .isFull (withCt ⟨[⟨0x61, 4⟩], ⟨[0], 64⟩⟩)) (fun t => t.res == 0) = true ∧
      next? (exec .isFull (withCt ⟨[], ⟨[0xA000000000000000], 61⟩⟩)) (fun t => t.res == 1) = true := by decide
/-- V45. -/
theorem test_pbvClear :
    next? (exec .pbvClear (withBv ⟨[0xAA00000000000000], 57⟩ 0 0)) (fun t => t.bv == ⟨[0], 64⟩) = true := by decide
/-- V42, V5. -/
theorem test_pbvSize :
    next? (exec .pbvSize (withBv lazy64 0 0)) (fun t => t.res == 64) = true ∧
      next? (exec .pbvSize (withBv ⟨[0xAA00000000000000], 57⟩ 0 0)) (fun t => t.res == 7) = true := by decide
/-- V3. -/
theorem test_pbvPushBit :
    next? (exec .pbvPushBit (withBv ⟨[0x8000000000000000], 62⟩ 1 0)) (fun t => t.bv == ⟨[0xA000000000000000], 61⟩) = true := by
  decide
/-- V13 and V39. -/
theorem test_pbvPushBit_full_and_lazy :
    next? (exec .pbvPushBit (withBv full64 0 0)) (fun t => t.bv == ⟨[0xFFFFFFFFFFFFFFFF, 0], 63⟩) = true ∧
      next? (exec .pbvPushBit (withBv lazy64 0 0)) (fun t => t.bv == ⟨[0xFFFFFFFFFFFFFFFF, 0], 63⟩) = true := by decide
/-- V7: split over the word boundary. -/
theorem test_pbvPushBits_split :
    next? (exec .pbvPushBits (withBv ⟨[0xFFFFFFFFFFFFFFF0], 4⟩ 0x2B 6))
      (fun t => t.bv == ⟨[0xFFFFFFFFFFFFFFFA, 0xC000000000000000], 62⟩) = true := by decide
/-- V4: the bits of `ARG0` above `n` are ignored. -/
theorem test_pbvPushBits_ignores_high_bits :
    next? (exec .pbvPushBits (withBv ⟨[0xA000000000000000], 61⟩ 0xFFFFFFFFFFFFFFF5 4))
      (fun t => t.bv == ⟨[0xAA00000000000000], 57⟩) = true := by decide
/-- V46. -/
theorem test_pbvPushVec :
    next? (exec .pbvPushVec { withBv ⟨[0x8000000000000000], 63⟩ 0 0 with
        ct := ⟨[], ⟨[0xAAAAAAAAAAAAAAAA, 0xA000000000000000], 61⟩⟩ })
      (fun t => t.bv == ⟨[0xD555555555555555, 0x5000000000000000], 60⟩) = true := by decide
/-- V17: the lazy form. -/
theorem test_pbvPop_lazy :
    next? (exec .pbvPop (withBv ⟨[0xFFFFFFFFFFFFFFFA, 0x8000000000000000], 63⟩ 0 0))
      (fun t => t.bv == ⟨[0xFFFFFFFFFFFFFFFA, 0], 64⟩) = true := by decide
/-- V41: the word is dropped, freeBits is 1, position 0 is cleared. -/
theorem test_pbvPop_drops_word :
    next? (exec .pbvPop (withBv lazy64 0 0)) (fun t => t.bv == ⟨[0xFFFFFFFFFFFFFFFE], 1⟩) = true := by decide
/-- V22, V23. -/
theorem test_pbvGet :
    next? (exec .pbvGet (withBv ⟨[0xFFFFFFFFFFFFFFFA, 0xC000000000000000], 62⟩ 61 0)) (fun t => t.res == 0) = true ∧
      next? (exec .pbvGet { withBv ⟨[0xFFFFFFFFFFFFFFFA, 0xC000000000000000], 62⟩ 66 0 with res := 7 })
        (fun t => t.errWord == 4 && t.res == 7) = true := by decide
/-- V24. -/
theorem test_pbvAt :
    next? (exec .pbvAt (withBv ⟨[0xFFFFFFFFFFFFFFFA, 0xC000000000000000], 62⟩ 65 0)) (fun t => t.res == 1) = true := by decide
/-- V26. -/
theorem test_pbvSet :
    next? (exec .pbvSet (withBv ⟨[0], 56⟩ 3 1)) (fun t => t.bv == ⟨[0x1000000000000000], 56⟩) = true := by decide
/-- V29: only `ARG1[0]` is the bit. -/
theorem test_pbvSet_takes_bit_zero :
    next? (exec .pbvSet (withBv ⟨[0], 56⟩ 0 0xFFFFFFFFFFFFFFFE)) (fun t => t.bv == ⟨[0], 56⟩) = true := by decide
/-- V30. -/
theorem test_pbvResize_truncates :
    next? (exec .pbvResize (withBv ⟨[0xFFFFFFFFFFFFFFFF, 0xFF00000000000000], 56⟩ 70 0))
      (fun t => t.bv == ⟨[0xFFFFFFFFFFFFFFFF, 0xFC00000000000000], 58⟩) = true := by decide
/-- V38: the lazy form becomes the form with the fewest words. -/
theorem test_pbvResize_lazy :
    next? (exec .pbvResize (withBv lazy64 64 0)) (fun t => t.bv == full64) = true := by decide
/-- V5. -/
theorem test_pbvPopcount :
    next? (exec .pbvPopcount (withBv ⟨[0xAA00000000000000], 57⟩ 0 0)) (fun t => t.res == 4) = true := by decide
/-- V42, V43. -/
theorem test_pbvWord :
    next? (exec .pbvWord (withBv lazy64 1 0)) (fun t => t.res == 0 && t.err == .none) = true ∧
      next? (exec .pbvWord (withBv full64 1 0)) (fun t => t.errWord == 4) = true := by decide

/-! ## Witnesses: for each statement with hypotheses, states that meet them, each clause at its boundary -/

theorem test_witness_StepRunsTheDecodedCommand :
    (about (.writeCmd 0x15)).seq = .idle ∧ (about (.writeCmd 0x15)).pending = [.writeCmd 0x15] ∧
      decode 0x15 = .ok .pbvPop := by decide

theorem test_witness_IllegalWordChangesOnlyCmdAndErr :
    (about (.writeCmd 0x101)).seq = .idle ∧ (about (.writeCmd 0x101)).call = none ∧
      (about (.writeCmd 0x101)).pending = [.writeCmd 0x101] ∧ ∀ i : Instr, (0x101 : Word32) ≠ encode i :=
  ⟨rfl, rfl, rfl, fun i => by cases i <;> decide⟩

theorem test_witness_ReadOnlyStateIgnoresTheHost :
    ∀ m ∈ [HostMove.writeStatus 1, .writeErr 1, .writeRes 1, .writeOut [1], .writeCt ctAbc, .writeBv lazy64, .read .bv],
      (about m).seq = .idle ∧ (about m).pending = m :: [] := by decide

theorem test_witness_HostWritesTakeEffect :
    (∀ m ∈ [HostMove.writeArg0 1, .writeArg1 1, .writeIn abc, .drawWrOk false, .putFile 1 fileAbc, .removeFile 1],
      (about m).seq = .idle ∧ (about m).pending = m :: []) ∧
    allows small.caps.capFile 64 = true ∧ allows small.caps.capFile fileAbc.length = true ∧ Memory.wf small.store ∧
    2 < { about (.writeInAt 2 7) with inBuf := abc }.inBuf.length := by decide

theorem test_witness_ResetSignalAssignsEveryRow :
    (about .reset).seq = .idle ∧ (about .reset).pending = .reset :: [] := by decide

/-- A state with each kind, and its code read from the table of R121. -/
theorem test_witness_StatusIsTheCopyOfErrAndSeq :
    ([ErrKind.none, .notFound, .truncatedCorrupt, .writeFailed, .indexOutOfRange, .underflow, .illegalCommand,
      .capacityExceeded].map fun e => { small with err := e }.errWord.toNat) = [0, 1, 2, 3, 4, 5, 6, 7] := by decide

theorem test_witness_PbvSizeReturnsTheBitCount :
    (withBv lazy64 0 0).caps.wf = true ∧ (withBv lazy64 0 0).bv.wf (withBv lazy64 0 0).caps.capWords := by decide

/-- A full vector of `CAP_WORDS` words, and one with room. -/
theorem test_witness_PbvPushBitAppendsOneBit :
    (Pbv.wf ⟨[0, 0], 0⟩ small.caps.capWords ∧ (Pbv.mk [0, 0] 0).words.length = small.caps.capWords) ∧
    (full64.wf small.caps.capWords ∧ ¬ (full64.freeBits = 0 ∧ full64.words.length = small.caps.capWords)) ∧
    (Pbv.wf ⟨[0, 0], 1⟩ small.caps.capWords ∧ ¬ ((Pbv.mk [0, 0] 1).freeBits = 0)) := by decide

/-- Counts 0 and 65; 1 and 64 with room and without. -/
theorem test_witness_PbvPushBitsAppendsTheLowBits :
    ((withBv full64 0 0).arg1.toNat = 0 ∧ 64 < (withBv full64 0 65).arg1.toNat) ∧
    ((withBv ⟨[0, 0], 63⟩ 0 64).arg1.toNat = 64 ∧ Pbv.wf ⟨[0, 0], 63⟩ small.caps.capWords ∧ 63 < 64 ∧
      (Pbv.mk [0, 0] 63).words.length = small.caps.capWords) ∧
    ((withBv ⟨[0, 0], 64⟩ 0 64).arg1.toNat = 64 ∧ Pbv.wf ⟨[0, 0], 64⟩ small.caps.capWords ∧ ¬ 64 < 64) ∧
    ((withBv ⟨[0, 0], 0⟩ 0 1).arg1.toNat = 1 ∧ Pbv.wf ⟨[0, 0], 0⟩ small.caps.capWords ∧ 0 < 1) ∧
    (full64.wf small.caps.capWords ∧ ¬ full64.words.length = small.caps.capWords) := by decide

/-- 65 + 64 bits are more than two words hold, 64 + 64 bits fit. -/
theorem test_witness_PbvPushVecAppendsThePayload :
    (Pbv.wf ⟨[0, 0], 63⟩ small.caps.capWords ∧ full64.wf small.caps.capWords ∧
      small.caps.capWords < max 2 (ceil64 ((Pbv.mk [0, 0] 63).bits.length + full64.bits.length))) ∧
    (full64.wf small.caps.capWords ∧ max 1 (ceil64 (full64.bits.length + full64.bits.length)) ≤ small.caps.capWords) := by
  decide

theorem test_witness_PbvPopRemovesTheLastBit :
    (Pbv.empty.wf small.caps.capWords ∧ Pbv.empty.bits = []) ∧
    (lazy64.wf small.caps.capWords ∧ lazy64.bits ≠ [] ∧ lazy64.freeBits = 64) ∧
    (full64.wf small.caps.capWords ∧ full64.bits ≠ [] ∧ full64.freeBits ≠ 64) := by decide

theorem test_witness_PbvGetAndAtReadTheIndexedBit :
    (withBv full64 64 0).bv.bits.length ≤ (withBv full64 64 0).arg0.toNat ∧
    (withBv full64 63 0).arg0.toNat < (withBv full64 63 0).bv.bits.length := by decide

theorem test_witness_PbvSetWritesOneBit :
    full64.wf small.caps.capWords ∧ (withBv full64 64 0).bv.bits.length ≤ (withBv full64 64 0).arg0.toNat ∧
    (withBv full64 63 0).arg0.toNat < (withBv full64 63 0).bv.bits.length := by decide

/-- 129 bits do not fit two words, 128 do. -/
theorem test_witness_PbvResizeTruncatesOrZeroExtends :
    full64.wf small.caps.capWords ∧
    small.caps.capWords < max 1 (ceil64 (withBv full64 129 0).arg0.toNat) ∧
    max 1 (ceil64 (withBv full64 128 0).arg0.toNat) ≤ small.caps.capWords := by decide

theorem test_witness_PbvPopcountCountsTheOneBits :
    (withBv full64 0 0).caps.wf = true ∧ (withBv full64 0 0).bv.wf (withBv full64 0 0).caps.capWords := by decide

theorem test_witness_PbvWordReturnsTheWord :
    (withBv lazy64 2 0).bv.words.length ≤ (withBv lazy64 2 0).arg0.toNat ∧
    (withBv lazy64 1 0).bv.words[(withBv lazy64 1 0).arg0.toNat]? = some 0 := by decide

theorem test_witness_AppendsAreRepeatedSinglePushes : lazy64.wf 2 ∧ full64.wf 2 := by decide

theorem test_witness_PackedBitVectorLaws :
    (∀ op ∈ [PushOp.bit true, .low 5 64, .low 1 1, .vec lazy64, .vec full64], op.wf 2) ∧ lazy64.wf 2 ∧ full64.wf 1 ∧
    (pbvPop lazy64).toBool = true ∧ (pbvSet lazy64 63 true).toBool = true ∧ (pbvResize 2 lazy64 128).toBool = true := by
  refine ⟨?_, by decide⟩
  simp only [List.forall_mem_cons, PushOp.wf]
  exact ⟨trivial, by decide, by decide, by decide, by decide, by simp⟩

/-- By hand from R69 to R71: one bit, the eight bits of 0xAD, 64 ones over the word boundary. -/
theorem test_appends_in_sequence :
    ([PushOp.bit true, .low 0xAD 8, .vec full64].foldl PushOp.applyTo Pbv.empty).bits =
      [true] ++ [true, false, true, false, true, true, false, true] ++ List.replicate 64 true := by decide

/-- The two forms of V38 and V43. -/
theorem test_witness_TwoFormsOfBvGiveTheSameResults :
    Instr.pbvPop ≠ .pbvWord ∧ lazy64.wf small.caps.capWords ∧ full64.wf small.caps.capWords ∧
    small.ct.bits.wf small.caps.capWords ∧ full64.bits = lazy64.bits ∧
    next? (exec .pbvPop (withBv lazy64 0 0)) (fun _ => true) = true := by decide

theorem test_witness_FreqCountCountsInFirstOccurrenceOrder : abc.length ≤ 2 ^ 32 - 1 := by decide

theorem test_witness_TreeBuildGivesTheStatedShape : ctAbc.freq ≠ [] ∧ 2 ≤ ctAbc.freq.length := by decide

theorem test_witness_TreeDoesNotDependOnTableOrder :
    ctAbc.freq.Perm ctAbc.freq.reverse ∧ (ctAbc.freq.map FreqEntry.sym).Nodup := by decide

theorem test_witness_DictionaryHoldsThePaths :
    treeAb.isLeaf = false ∧
    (treeAb.paths.map Prod.fst).Nodup ∧
    (0x62, [true]) ∈ treeAb.paths := by decide

/-- The tree of "ab" (T1). -/
theorem test_witness_DictionaryIsPrefixFree :
    treeBuild [⟨0x61, 1⟩, ⟨0x62, 1⟩] = some treeAb ∧
    (([⟨0x61, 1⟩, ⟨0x62, 1⟩] : List FreqEntry).map FreqEntry.sym).Nodup ∧
    (codeOf (dictBuild treeAb).2 0x61).isSome = true := by decide

/-- Input of 17 and of 16 symbols; a payload of 5 bits; and one of more than 64 bits where `CAP_WORDS` is 1. -/
theorem test_witness_CompressBuildsTheContainer :
    small.caps.capIn < (List.replicate 17 (0x61 : Symbol)).length ∧
    (List.replicate 16 (0x61 : Symbol)).length ≤ small.caps.capIn ∧ abc ≠ [] ∧
    next? (exec .compress { small with inBuf := abc }) (fun t => t.ct == ctAbc) = true := by decide

theorem test_witness_CompressBuildsTheContainer_overflow :
    next? (exec .compress
        { small with inBuf := (List.range 17).map (BitVec.ofNat 8), caps := { small.caps with capIn := 17, capWords := 1 } })
      (fun t => t.errWord == 7 && t.ct == Container.empty) = true := by decide +kernel

theorem test_witness_DecompressOfAnEmptyPartGivesEmptyOutput :
    (withCt ⟨[], full64⟩).ct.freq = [] ∧ (withCt ⟨ctAbc.freq, Pbv.empty⟩).ct.bits.bits = [] := by decide

/-- 16 bits and 17 bits against `CAP_OUT` 16. -/
theorem test_witness_DecompressRepeatsASingleSymbol :
    (withCt ⟨[⟨0x61, 4⟩], ⟨[0xB000000000000000], 48⟩⟩).ct.freq = [⟨0x61, 4⟩] ∧
    allows small.caps.capOut (Pbv.mk [0xB000000000000000] 48).bits.length = true ∧
    allows small.caps.capOut (Pbv.mk [0xB000000000000000] 47).bits.length = false := by decide

/-- The table of S1. -/
def freqS1 : List FreqEntry := [⟨0x61, 5⟩, ⟨0x62, 2⟩, ⟨0x72, 2⟩, ⟨0x63, 1⟩, ⟨0x64, 1⟩]

/-- D3: "0111" is the path of `a`, then the beginning of the path of `d`. D6: "0000" is four times the path of `a`, then
nothing of the path of `d`, against `CAP_OUT` 4 and 3. -/
theorem test_witness_DecompressWalksTheTree :
    ∃ root, treeBuild freqS1 = some root ∧ 2 ≤ freqS1.length ∧ (0x61, [false]) ∈ root.paths ∧
      (0x64, [true, true, true] ++ [true]) ∈ root.paths ∧ (0x64, [] ++ [true, true, true, true]) ∈ root.paths ∧
      (Pbv.mk [0x7000000000000000] 60).bits = [((0x61 : Symbol), [false])].flatMap Prod.snd ++ [true, true, true] ∧
      (Pbv.mk [0] 60).bits = (List.replicate 4 ((0x61 : Symbol), [false])).flatMap Prod.snd ++ [] ∧
      allows (some 4) (List.replicate 4 ((0x61 : Symbol), [false])).length = true ∧
      allows (some 3) (List.replicate 4 ((0x61 : Symbol), [false])).length = false := by
  refine ⟨_, rfl, ?_⟩
  decide

/-- D6 with `CAP_OUT` = 3. -/
theorem test_decompress_over_capOut :
    next? (exec .decompress { withCt ⟨freqS1, ⟨[0], 60⟩⟩ with outBuf := abc, caps := { small.caps with capOut := some 3 } })
      (fun t => t.errWord == 7 && t.outBuf == abc) = true := by decide

theorem test_witness_CompressThenDecompressGivesTheInput :
    next? (exec .compress { small with inBuf := abc })
      (fun t => t.err == .none && next? (exec .decompress t) (fun u => u.err == .none)) = true := by decide

theorem test_witness_DecompressDoesNotDependOnPairOrder :
    ctAbc.freq.Perm ctAbc.freq.reverse ∧ (ctAbc.freq.map FreqEntry.sym).Nodup ∧
    next? (exec .decompress (withCt ctAbc)) (fun t => t.outBuf == abc) = true := by decide

theorem test_witness_SerializedImageHasTheStatedLayout :
    ctAbc.bits.wf 2 ∧ 2 ≤ 2 ^ 58 - 1 ∧ ctAbc.freq.length < 2 ^ 64 ∧ ctAbc.freq[2]? = some ⟨0x63, 1⟩ ∧
    0 < ceil64 ctAbc.bits.bits.length ∧ ctAbc.bits.words[0]? = some 0xB000000000000000 := by decide

theorem test_witness_PayloadBitStandsAtItsFileByte : ctAbc.bits.wf 2 ∧ ctAbc.bits.bits[4]? = some false := by decide

/-- An image of 39 bytes against `CAP_FILE` 38 and 39; each draw. -/
theorem test_witness_SaveWritesOneFile :
    Memory.wf small.store ∧ allows (some 38) (serialize ctAbc).length = false ∧
    allows (some 39) (serialize ctAbc).length = true ∧ small.wrOk = true ∧ { small with wrOk := false }.wrOk = false := by
  decide

/-- Absent; 15 bytes; one byte short of the declared size (L7); too many words. -/
theorem test_witness_LoadFailuresClearTheContainer :
    fileAt small.store small.arg0.toNat = none ∧
    fileAt (withFile fileAbc).store (withFile fileAbc).arg0.toNat = some fileAbc ∧
    (fileAbc.take 15).length < 16 ∧ (fileAbc.take 38).length < declaredBytes (fileAbc.take 38) ∧
    (16 ≤ (List.replicate 8 0 ++ [129] ++ List.replicate 31 0 : File).length ∧
      declaredBytes (List.replicate 8 0 ++ [129] ++ List.replicate 31 0) ≤
        (List.replicate 8 0 ++ [129] ++ List.replicate 31 0 : File).length ∧
      small.caps.capWords < max 1 (ceil64 (memRead (List.replicate 8 0 ++ [129] ++ List.replicate 31 0) 8 8))) := by
  decide

theorem test_witness_LoadReadsPairsAndPayload :
    (withFile fileAbc).caps.wf = true ∧ fileAt (withFile fileAbc).store (withFile fileAbc).arg0.toNat = some fileAbc ∧
    16 ≤ fileAbc.length ∧ declaredBytes fileAbc = fileAbc.length ∧
    allows small.caps.capPairs (memRead fileAbc 0 8) = true ∧ max 1 (ceil64 (memRead fileAbc 8 8)) ≤ small.caps.capWords := by
  decide

/-- The small instance meets the data premises with "abc" in `IN` and its container in `CT`. -/
theorem test_dataInv : State.DataInv { withCt ctAbc with inBuf := abc } := by
  constructor <;> decide

theorem test_witness_SaveThenLoadGivesTheContainer :
    State.DataInv { withCt ctAbc with inBuf := abc } ∧ ctAbc.freq.length < 2 ^ 64 ∧
    next? (exec .save { withCt ctAbc with inBuf := abc }) (fun t => t.err == .none) = true :=
  ⟨test_dataInv, by decide, by decide⟩

theorem test_witness_RoundTripThroughStorageGivesTheInput :
    State.DataInv { withCt ctAbc with inBuf := abc } ∧
    next? (exec .compress { withCt ctAbc with inBuf := abc }) (fun a => a.err == .none &&
      next? (exec .save a) (fun b => b.err == .none &&
        next? (exec .load b) (fun c => c.err == .none &&
          next? (exec .decompress c) (fun d => d.err == .none)))) = true :=
  ⟨test_dataInv, by decide⟩

theorem test_witness_CommandsRaiseOnlyTheirOwnKinds :
    next? (exec .pbvPop small) (fun t => t.err == .underflow) = true := by decide

/-- A failed LOAD and another failed command. -/
theorem test_witness_ErrorsLeaveTheStateAlone :
    next? (exec .load (withCt ctAbc)) (fun t => t.err != .none) = true ∧
    next? (exec .pbvWord (withBv lazy64 2 0)) (fun t => t.err != .none && t.err != .writeFailed) = true := by decide

theorem test_witness_CommandsWriteOnlyTheirOwnState :
    Memory.wf (withFile fileAbc).store ∧
    next? (exec .save (withFile fileAbc)) (fun t => fileAt t.store 1 != some fileAbc) = true := by decide

theorem test_witness_CommandsIgnoreOperandsTheyDoNotName :
    Instr.pbvWord.signature.usesArg1 = false ∧ Instr.compress.signature.usesArg0 = false ∧
    next? (exec .pbvWord (withBv lazy64 0 0)) (fun _ => true) = true ∧
    next? (exec .compress small) (fun _ => true) = true := by decide

/-- The small instance, about to make a move, meets the premises of R143. -/
theorem test_inv (m : List HostMove) : State.Inv { withCt ctAbc with inBuf := abc, pending := m } :=
  ⟨rfl, rfl, test_dataInv.caps, test_dataInv.bv, test_dataInv.ctBits, test_dataInv.canonical, test_dataInv.ctFreq,
    test_dataInv.outBuf, test_dataInv.store, test_dataInv.files⟩

theorem test_witness_EveryStepKeepsThePremises :
    State.Inv { withCt ctAbc with inBuf := abc, pending := [.writeCmd 0x01] } ∧
    next? (step { withCt ctAbc with inBuf := abc, pending := [.writeCmd 0x01] }) (fun _ => true) = true :=
  ⟨test_inv _, by decide⟩

/-- Each fault of a broken host duty. -/
theorem test_witness_StepsStopOnlyOnABrokenHostDuty :
    step { about .reset with seq := .run } = .fault .moveWhileRunning ∧
    step { about (.writeInAt 3 0) with inBuf := abc } = .fault .noSuchInElement ∧
    step (about (.putFile 1 (List.replicate 65 0))) = .fault .fileTooLong := ⟨rfl, rfl, rfl⟩

theorem test_witness_IdleBlockStaysAsItIs : small.pending = [] := by decide

/-- The draw false, then SAVE: WriteFailed. -/
theorem test_draw_reaches_save :
    next? (step { small with pending := [.drawWrOk false, .writeCmd 0x03] }) (fun t =>
      next? (step t) fun u => u.errWord == 3) = true := by rfl

theorem test_witness_HostReadsReturnTheState :
    (about (.read .bv)).seq = .idle ∧ (about (.read .bv)).pending = [.read .bv] ∧
    (about (.writeCmd 0x101)).pending = [.writeCmd 0x101] ∧
    next? (step (about (.writeCmd 0x101))) (fun t => t.hostRead .cmd == .word32 0x101 && t.hostRead .status == .word32 2) = true := by
  decide

theorem test_witness_HostWritesAllRunToTheirEnd :
    State.Inv { withCt ctAbc with inBuf := abc, pending := [.writeArg0 1, .writeArg1 2, .writeIn [], .writeCmd 0x11] } :=
  test_inv _

theorem test_witness_RoundtripLineGivesTheInput :
    State.Inv { withCt ctAbc with inBuf := abc, pending := (Line.roundtrip 1).moves } ∧
    succeedsFor 6 { withCt ctAbc with inBuf := abc, pending := (Line.roundtrip 1).moves } = true ∧
    (Line.roundtrip 1).moves.length = 6 :=
  ⟨test_inv _, by decide, by decide⟩

/-- Two members of equal count and key, told apart by their numbers; and the leaf `e` of "hello" (T8). -/
theorem test_witness_RemoveLowestAndMergeFollowTheOrder :
    (([⟨1, .leaf 0x61 2⟩, ⟨0, .leaf 0x61 2⟩] : List PqNode).map PqNode.index).Nodup ∧
    removeLowest [⟨1, .leaf 0x61 2⟩, ⟨0, .leaf 0x61 2⟩] = some (⟨0, .leaf 0x61 2⟩, [⟨1, .leaf 0x61 2⟩]) ∧
    (removeLowest [⟨0, .leaf 0x68 1⟩, ⟨1, .leaf 0x65 1⟩, ⟨2, .leaf 0x6C 2⟩]).map (fun m => m.1.index) = some 1 := by decide

/-- The table of "ab" merges to the tree of T1. -/
theorem test_witness_TreeBuildMergesTheTwoLowest :
    ([⟨0x61, 1⟩, ⟨0x62, 1⟩] : List FreqEntry) ≠ [] ∧
    MergesTo 2 (([⟨0x61, 1⟩, ⟨0x62, 1⟩] : List FreqEntry).mapIdx fun j e => ⟨j, .leaf e.sym e.count⟩) treeAb := by
  refine ⟨by decide, .merge 2 _ ⟨0, .leaf 0x61 1⟩ ⟨1, .leaf 0x62 1⟩ [] _ (by decide) ?_ (by simp) (.root 3 ⟨2, treeAb⟩)⟩
  simp only [List.forall_mem_singleton, PqNode.Below]
  decide

/-- T8: the internal node of count 2 and key e comes before the leaf l of count 2. -/
theorem test_treeBuild_hello :
    treeBuild [⟨0x68, 1⟩, ⟨0x65, 1⟩, ⟨0x6C, 2⟩, ⟨0x6F, 1⟩] =
      some (.node 5 0x65 (.leaf 0x6C 2) (.node 3 0x65 (.leaf 0x6F 1) (.node 2 0x65 (.leaf 0x65 1) (.leaf 0x68 1)))) := by
  decide

end Sys2Proof.Tests
end

section
/-! PROOFS. The family State: what the host's moves do, what its reads return, and how the commands treat the registers
that only the host writes (10_state.md R13 to R35; 30_encoding.md R51). -/

namespace Sys2Proof.Machine

/-! ## The registers that only the host writes

`CMD`, `ARG0` and `ARG1` hold what the host put there (R18, R24). A command reads of them only the operands its row of R51
names, and writes none. Both facts are one equation: a change of what the command does not read passes through it. -/

/-- `s` with other values in the registers that only the host writes. -/
def State.withHostRegs (s : State) (w : Word32) (a b : Word) : State := { s with cmd := w, arg0 := a, arg1 := b }

section
variable (s : State) (w : Word32) (a b : Word)

@[simp] theorem State.withHostRegs_inBuf : (s.withHostRegs w a b).inBuf = s.inBuf := rfl
@[simp] theorem State.withHostRegs_ct : (s.withHostRegs w a b).ct = s.ct := rfl
@[simp] theorem State.withHostRegs_store : (s.withHostRegs w a b).store = s.store := rfl
@[simp] theorem State.withHostRegs_caps : (s.withHostRegs w a b).caps = s.caps := rfl
@[simp] theorem State.withHostRegs_arg0 : (s.withHostRegs w a b).arg0 = a := rfl

end

/-- A change of the state where an outcome has one; a stop stays as it is. -/
def mapNext (f : State → State) : Result → Result
  | .next t => .next (f t)
  | .fault r => .fault r
  | .refused r => .refused r

@[simp] theorem mapNext_next (f : State → State) (t : State) : mapNext f (.next t) = .next (f t) := rfl

section
variable (s : State) (w : Word32) (a b : Word)

theorem endWithVector_withHostRegs (r : Except ErrKind Pbv) :
    endWithVector (s.withHostRegs w a b) r = mapNext (·.withHostRegs w a b) (endWithVector s r) := by
  cases r <;> rfl

theorem endWithResult_withHostRegs (r : Except ErrKind Word) :
    endWithResult (s.withHostRegs w a b) r = mapNext (·.withHostRegs w a b) (endWithResult s r) := by
  cases r <;> rfl

theorem execCompress_withHostRegs :
    execCompress (s.withHostRegs w a b) = mapNext (·.withHostRegs w a b) (execCompress s) := by
  simp only [execCompress, State.withHostRegs_inBuf, State.withHostRegs_caps, apply_ite (mapNext _)]
  refine ite_congr rfl (fun _ => rfl) fun _ => ite_congr rfl (fun _ => rfl) fun _ => ?_
  cases treeBuild (freqCount s.inBuf) with
  | none => rfl
  | some root =>
    dsimp only
    cases encodeStream (dictBuild root).2 s.inBuf with
    | none => rfl
    | some payload =>
      dsimp only
      cases withinWords s.caps.capWords payload <;> rfl

theorem execDecompress_withHostRegs :
    execDecompress (s.withHostRegs w a b) = mapNext (·.withHostRegs w a b) (execDecompress s) := by
  simp only [execDecompress, State.withHostRegs_ct, State.withHostRegs_caps, apply_ite (mapNext _)]
  refine ite_congr rfl (fun _ => rfl) fun _ => ?_
  cases treeBuild s.ct.freq with
  | none => rfl
  | some root =>
    dsimp only
    cases decodeStream s.ct.freq root s.ct.bits with
    | none => rfl
    | some decoded =>
      simp only [apply_ite (mapNext _)]
      rfl

theorem execSave_withHostRegs :
    execSave (s.withHostRegs w s.arg0 b) = mapNext (·.withHostRegs w s.arg0 b) (execSave s) := by
  simp only [execSave, apply_ite (mapNext _)]
  rfl

theorem execLoad_withHostRegs :
    execLoad (s.withHostRegs w s.arg0 b) = mapNext (·.withHostRegs w s.arg0 b) (execLoad s) := by
  simp only [execLoad, State.pathOperand, State.withHostRegs_caps, State.withHostRegs_store, State.withHostRegs_arg0]
  cases deserialize s.caps (fileAt s.store s.arg0.toNat) <;> rfl

theorem execPbvPushBits_withHostRegs :
    execPbvPushBits (s.withHostRegs w s.arg0 s.arg1) =
      mapNext (·.withHostRegs w s.arg0 s.arg1) (execPbvPushBits s) := by
  rw [execPbvPushBits_eq, execPbvPushBits_eq, apply_ite (mapNext _)]
  exact ite_congr rfl (fun _ => rfl) fun _ => endWithVector_withHostRegs s w _ _ _

theorem execPbvPushVec_withHostRegs :
    execPbvPushVec (s.withHostRegs w a b) = mapNext (·.withHostRegs w a b) (execPbvPushVec s) := by
  rw [execPbvPushVec_eq, execPbvPushVec_eq, apply_ite (mapNext _)]
  rfl

end

/-- R18, R24, R51: a command answers alike when `CMD`, and each operand register it does not name, hold other values, and
hands these values on. -/
theorem exec_withHostRegs (i : Instr) (s : State) (w : Word32) (a b : Word)
    (ha : i.signature.usesArg0 = true → a = s.arg0) (hb : i.signature.usesArg1 = true → b = s.arg1) :
    exec i (s.withHostRegs w a b) = mapNext (·.withHostRegs w a b) (exec i s) := by
  cases i
  case compress => exact execCompress_withHostRegs s w a b
  case decompress => exact execDecompress_withHostRegs s w a b
  case save => obtain rfl := ha rfl; exact execSave_withHostRegs s w b
  case load => obtain rfl := ha rfl; exact execLoad_withHostRegs s w b
  case isEmpty | isFull | pbvClear | pbvSize | pbvPopcount => rfl
  case pbvPop => exact endWithVector_withHostRegs s w a b _
  case pbvPushVec => exact execPbvPushVec_withHostRegs s w a b
  case pbvPushBit | pbvResize => obtain rfl := ha rfl; exact endWithVector_withHostRegs s w _ b _
  case pbvGet | pbvAt | pbvWord => obtain rfl := ha rfl; exact endWithResult_withHostRegs s w _ b _
  case pbvPushBits => obtain rfl := ha rfl; obtain rfl := hb rfl; exact execPbvPushBits_withHostRegs s w
  case pbvSet => obtain rfl := ha rfl; obtain rfl := hb rfl; exact endWithVector_withHostRegs s w _ _ _

theorem exec_withHostRegs_next {i : Instr} {s t : State} (h : exec i s = .next t) (w : Word32) (a b : Word)
    (ha : i.signature.usesArg0 = true → a = s.arg0) (hb : i.signature.usesArg1 = true → b = s.arg1) :
    exec i (s.withHostRegs w a b) = .next (t.withHostRegs w a b) := by
  rw [exec_withHostRegs i s w a b ha hb, h, mapNext_next]

/-- No command writes a register of the host: to put the values back that are there already changes nothing. -/
theorem exec_keeps_hostRegs {i : Instr} {s t : State} (h : exec i s = .next t) :
    t.cmd = s.cmd ∧ t.arg0 = s.arg0 ∧ t.arg1 = s.arg1 := by
  have hs : exec i s = .next (t.withHostRegs s.cmd s.arg0 s.arg1) :=
    exec_withHostRegs_next h s.cmd s.arg0 s.arg1 (fun _ => rfl) (fun _ => rfl)
  have ht : t = t.withHostRegs s.cmd s.arg0 s.arg1 := Host.Outcome.next.inj (h.symm.trans hs)
  rw [ht]
  exact ⟨rfl, rfl, rfl⟩

/-- Settles O49: the host's registers are kept (`exec_keeps_hostRegs`), so a change of all three at once that leaves two
of them at their values is the change of one. -/
theorem commandsIgnoreOperandsTheyDoNotName : Obligations.CommandsIgnoreOperandsTheyDoNotName := by
  intro i s t a b h
  obtain ⟨hcmd, h0, h1⟩ := exec_keeps_hostRegs h
  constructor
  · intro hn
    have h' := exec_withHostRegs_next h s.cmd a s.arg1 (by simp [hn]) (fun _ => rfl)
    simpa [State.withHostRegs, ← hcmd, ← h1] using h'
  · intro hn
    have h' := exec_withHostRegs_next h s.cmd s.arg0 b (fun _ => rfl) (by simp [hn])
    simpa [State.withHostRegs, ← hcmd, ← h0] using h'

/-! ## A host write of `CMD` -/

theorem writeCommand_of_decode {w : Word32} {i : Instr} (h : decode w = .ok i) (s : State) :
    writeCommand s w = exec i (s.issue w) := by
  simp [writeCommand, h]

/-- R24: whatever comes of a word written to `CMD`, the register holds it. -/
theorem writeCommand_cmd {s t : State} {w : Word32} (h : writeCommand s w = .next t) : t.cmd = w := by
  rcases writeCommand_cases s w with ⟨i, -, hw⟩ | ⟨e, -, hw⟩
  · exact (exec_keeps_hostRegs (hw.symm.trans h)).1
  · obtain rfl : (s.issue w).raise .illegalCommand = t := Host.Outcome.next.inj (hw.symm.trans h)
    rfl

/-- Settles O4: the next move is the write, and the word decodes. -/
theorem stepRunsTheDecodedCommand : Obligations.StepRunsTheDecodedCommand := by
  intro s w rest i hi hp hd
  rw [step_cons s _ rest hp hi]
  exact writeCommand_of_decode hd _

/-! ## Host moves that run no command -/

/-- Settles O6: each of these moves is answered by the state it found. -/
theorem readOnlyStateIgnoresTheHost : Obligations.ReadOnlyStateIgnoresTheHost := by
  intro s m rest hi hp hm
  rw [step_cons s m rest hp hi]
  rcases hm with ⟨_, rfl⟩ | ⟨_, rfl⟩ | ⟨_, rfl⟩ | ⟨_, rfl⟩ | ⟨_, rfl⟩ | ⟨_, rfl⟩ | ⟨_, rfl⟩ <;> rfl

theorem hostMove_writeInAt (s : State) {k : Nat} (hk : k < s.inBuf.length) (v : Symbol) :
    hostMove s (.writeInAt k v) = .next { s with inBuf := s.inBuf.set k v } :=
  if_pos hk

theorem hostMove_putFile (s : State) (p : Path) {f : File} (hf : allows s.caps.capFile f.length = true) :
    hostMove s (.putFile p f) = .next (s.setFile p (some f)) :=
  if_pos hf

/-- R23: an assignment to a path of `STORE` is seen at that path and at no other. -/
theorem setFile_changes_one_path (s : State) (h : Memory.wf s.store) (p : Path) (o : Option File) :
    fileAt (s.setFile p o).store p.toNat = o ∧
      ∀ q, q ≠ p.toNat → fileAt (s.setFile p o).store q = fileAt s.store q := by
  rw [State.setFile_store]
  exact ⟨(fileAt_storeAssign _ h _ _ o).trans (if_pos rfl), fun q hq => (fileAt_storeAssign _ h _ q o).trans (if_neg hq)⟩

/-- Settles O7, move by move. -/
theorem hostWritesTakeEffect : Obligations.HostWritesTakeEffect := by
  intro s rest hi
  refine ⟨fun v hp => step_cons s _ rest hp hi, fun v hp => step_cons s _ rest hp hi,
    fun v hp => step_cons s _ rest hp hi, fun ok hp => step_cons s _ rest hp hi, ?_, ?_, ?_⟩
  · intro k v hk hp
    rw [step_cons s _ rest hp hi]
    exact hostMove_writeInAt { s with pending := rest } hk v
  · intro p f hf hwf hp
    refine ⟨(s.setFile p (some f)).store, ?_, setFile_changes_one_path s hwf p (some f)⟩
    rw [step_cons s _ rest hp hi]
    exact hostMove_putFile { s with pending := rest } p hf
  · intro p hwf hp
    exact ⟨(s.setFile p none).store, step_cons s _ rest hp hi, setFile_changes_one_path s hwf p none⟩

/-! ## The views `STATUS` and `ERR`, and the reset state -/

/-- R25: the bits of `STATUS`. -/
theorem getLsbD_status (s : State) (k : Nat) :
    s.status.getLsbD k = (decide (k = 0) && s.busy || decide (k = 1) && s.faultFlag) := by
  have two : (2 : Word32) = BitVec.twoPow 32 1 := by decide
  rw [State.status, BitVec.getLsbD_or, two]
  congr 1
  · cases s.busy <;> simp [BitVec.getLsbD_one]
  · cases s.faultFlag <;> simp [BitVec.getLsbD_twoPow, eq_comm]

theorem State.busy_iff (s : State) : s.busy = true ↔ s.seq = .run := by
  simp [State.busy]

/-- R25: `FAULT` is a copy of `ERR ≠ 0`. -/
theorem State.faultFlag_iff (s : State) : s.faultFlag = true ↔ s.errWord ≠ 0 := by
  cases h : s.err <;> simp [State.faultFlag, State.errWord, ErrKind.code, h]

theorem ErrKind.code_le (e : ErrKind) : e.code ≤ 7 := by
  cases e <;> decide

theorem errWord_of_err {s : State} {e : ErrKind} (h : s.err = e) : s.errWord = BitVec.ofNat 32 e.code := by
  rw [State.errWord, h]

theorem toNat_errWord (s : State) : s.errWord.toNat = s.err.code := by
  have := s.err.code_le
  simp only [State.errWord, BitVec.toNat_ofNat]
  omega

/-- Settles O10: the codes by computation, the bits of `STATUS` by `getLsbD_status`. -/
theorem statusIsTheCopyOfErrAndSeq : Obligations.StatusIsTheCopyOfErrAndSeq := by
  intro s
  refine ⟨errWord_of_err, errWord_of_err, errWord_of_err, errWord_of_err, errWord_of_err, errWord_of_err,
    errWord_of_err, errWord_of_err, toNat_errWord s, s.err.code_le, ?_, ?_, ?_⟩
  · rw [getLsbD_status]
    simpa using s.busy_iff
  · rw [getLsbD_status]
    simpa using s.faultFlag_iff
  · intro k hk
    have h0 : k ≠ 0 := by omega
    have h1 : k ≠ 1 := by omega
    simp [getLsbD_status, h0, h1]

/-- Settles O9: the reset state is a closed value. -/
theorem resetStateHoldsTheSpecValues : Obligations.ResetStateHoldsTheSpecValues := by
  unfold Obligations.ResetStateHoldsTheSpecValues
  decide

/-! ## Host reads -/

/-- R25: between commands `STATUS` is `FAULT` alone. -/
theorem status_of_idle {s : State} (hi : s.seq = .idle) : s.status = if s.err = .none then 0 else 2 := by
  by_cases he : s.err = .none <;> simp [State.status, State.busy, State.faultFlag, hi, he]

/-- Settles O58: all reads but that of `STATUS` give a field or its code as it stands; a read move leaves every field that a
read looks at, and a `CMD` write leaves its word. -/
theorem hostReadsReturnTheState : Obligations.HostReadsReturnTheState := by
  intro s hi
  refine ⟨rfl, congrArg HostValue.word32 (status_of_idle hi), rfl, rfl, rfl, rfl, rfl, rfl, rfl, rfl, rfl, fun _ => rfl,
    ?_, ?_⟩
  · intro what rest hp
    refine ⟨step_cons s _ rest hp hi, fun what' => ?_⟩
    cases what' <;> rfl
  · intro w rest t hp ht
    rw [step_cons s _ rest hp hi] at ht
    exact congrArg HostValue.word32 (writeCommand_cmd ht)

end Sys2Proof.Machine
end

section
/-! PROOFS. The family Encoding: the decoder and the encoder, the frame of the commands, the image SAVE writes and the
program's lines (30_encoding.md R50 to R64; 44_container.md R113; 60_exceptions.md R123, R128). -/

namespace Sys2Proof.Machine

/-! ## Decoder and encoder -/

/-- R52, R54: a match word decodes to its command. -/
theorem decode_encode (i : Instr) : decode (encode i) = .ok i := by
  obtain ⟨hreserved, hopcode⟩ := encode_decodes i
  rw [decode_of_reserved_zero _ hreserved, hopcode]

/-- R54: no other word decodes to the command. -/
theorem eq_encode_of_decode {w : Word32} {i : Instr} (h : decode w = .ok i) : w = encode i := by
  by_cases hr : reservedField w = 0
  · rw [decode_of_reserved_zero w hr] at h
    obtain ⟨hword, -⟩ := decodeOpcode_ok _ _ h
    exact (word_of_reserved_zero w hr).trans hword.symm
  · rw [decode_error_of_reserved w hr] at h
    cases h

theorem decode_eq_ok_iff (w : Word32) (i : Instr) : decode w = .ok i ↔ w = encode i :=
  ⟨eq_encode_of_decode, fun h => h ▸ decode_encode i⟩

theorem decode_eq_error_iff (w : Word32) : (∃ e, decode w = .error e) ↔ ∀ i, w ≠ encode i := by
  simp only [ne_eq, ← decode_eq_ok_iff]
  cases decode w <;> simp

/-- R53: the check of a word and the decoder agree. With the reserved field zero the word is its opcode, and the opcode map
lists the opcode exactly when it decodes. -/
theorem commandWordWf_iff (w : Word32) : commandWordWf w = true ↔ ∃ i, decode w = .ok i := by
  by_cases hr : reservedField w = 0
  · have hz : reservedZero w = true := beq_iff_eq.mpr hr
    have hl : opcodeListed w = opcodeListed ((opcodeField w).setWidth 32) :=
      congrArg opcodeListed (word_of_reserved_zero w hr)
    rw [commandWordWf, hz, hl, decode_of_reserved_zero w hr]
    cases h : decodeOpcode (opcodeField w) with
    | ok i => simp [(decodeOpcode_ok _ _ h).2]
    | error e => simp [(decodeOpcode_error _ _ h).2]
  · have hz : reservedZero w = false := beq_false_of_ne hr
    simp [commandWordWf, hz, decode_error_of_reserved w hr]

/-- Settles O3: the two halves of the decoder, then the check through the decoder. -/
theorem decoderAcceptsExactlyTheMatchWords : Obligations.DecoderAcceptsExactlyTheMatchWords := by
  intro w
  refine ⟨decode_eq_ok_iff w, decode_eq_error_iff w, ?_⟩
  simp only [commandWordWf_iff, decode_eq_ok_iff]

/-- Settles O2: a command has no operand to check, and its word decodes. -/
theorem decodeOfEncodeIsTheCommand : Obligations.DecodeOfEncodeIsTheCommand := by
  intro i
  exact ⟨by cases i <;> rfl, decode_encode i⟩

/-- Settles O1: each of the four words is the match word of its command. -/
theorem tableWordsDecodeToTheirCommands : Obligations.TableWordsDecodeToTheirCommands :=
  ⟨decode_encode .compress, decode_encode .load, decode_encode .pbvPushBits, decode_encode .pbvWord⟩

/-- R128: an illegal word written to `CMD` runs nothing. -/
theorem writeCommand_of_illegal {w : Word32} (h : ∀ i, w ≠ encode i) (s : State) :
    writeCommand s w = .next ((s.issue w).raise .illegalCommand) := by
  rcases writeCommand_cases s w with ⟨i, hi, -⟩ | ⟨e, -, hw⟩
  · exact absurd (eq_encode_of_decode hi) (h i)
  · exact hw

/-- Settles O5: `SEQ` and the call-scoped state are put back to the values they had before the write. -/
theorem illegalWordChangesOnlyCmdAndErr : Obligations.IllegalWordChangesOnlyCmdAndErr := by
  intro s w rest hi hc hp hw
  calc step s = writeCommand { s with pending := rest } w := step_cons s _ rest hp hi
    _ = .next { s with pending := rest, cmd := w, err := .illegalCommand, seq := .idle, call := none } :=
      writeCommand_of_illegal hw _
    _ = .next { s with pending := rest, cmd := w, err := .illegalCommand } := by rw [← hi, ← hc]

/-! ## The frame of the commands -/

/-- R67 to R76: the commands that give `BV` a new value. -/
def ChangesBv (i : Instr) : Prop :=
  i = .pbvClear ∨ i = .pbvPushBit ∨ i = .pbvPushBits ∨ i = .pbvPushVec ∨ i = .pbvPop ∨ i = .pbvSet ∨ i = .pbvResize

/-- The states a command may end in, by what it writes beside `ERR`, `SEQ` and the call-scoped state (R123). -/
inductive Ending (s : State) : Instr → State → Prop where
  /-- the error leaves everything else as it was -/
  | failure (i : Instr) (e : ErrKind) : Ending s i (s.raise e)
  | result (i : Instr) (x : Word) (hi : i.signature.writesRes = true) : Ending s i (s.setRes x).finish
  | vector (i : Instr) (v : Pbv) (hi : ChangesBv i) : Ending s i (s.setBv v).finish
  | container (i : Instr) (c : Container) (hi : i = .compress ∨ i = .load) : Ending s i (s.setCt c).finish
  | output (o : List Symbol) : Ending s .decompress (s.setOut o).finish
  /-- R117: a failed LOAD leaves the container empty -/
  | loadFailure (e : ErrKind) : Ending s .load ((s.setCt Container.empty).raise e)
  | saved (f : File) : Ending s .save (s.setFile s.arg0 (some f)).finish
  /-- R114: a failed write leaves a free value at its path -/
  | saveFailure (o : Option File) (n : Nat) :
      Ending s .save ({ s.setFile s.arg0 o with failedWrites := n }.raise .writeFailed)

section
variable (s : State)

theorem endWithVector_ends {i : Instr} (hi : ChangesBv i) (r : Except ErrKind Pbv) :
    ∃ t, endWithVector s r = .next t ∧ Ending s i t := by
  rcases endWithVector_cases s r with ⟨v, -, h⟩ | ⟨e, -, h⟩
  · exact ⟨_, h, .vector i v hi⟩
  · exact ⟨_, h, .failure i e⟩

theorem endWithResult_ends {i : Instr} (hi : i.signature.writesRes = true) (r : Except ErrKind Word) :
    ∃ t, endWithResult s r = .next t ∧ Ending s i t := by
  rcases endWithResult_cases s r with ⟨x, -, h⟩ | ⟨e, -, h⟩
  · exact ⟨_, h, .result i x hi⟩
  · exact ⟨_, h, .failure i e⟩

theorem execPbvPushBits_ends : ∃ t, execPbvPushBits s = .next t ∧ Ending s .pbvPushBits t := by
  rw [execPbvPushBits_eq]
  split
  · exact ⟨_, rfl, .failure _ _⟩
  · exact endWithVector_ends s (by simp [ChangesBv]) _

theorem execPbvPushVec_ends : ∃ t, execPbvPushVec s = .next t ∧ Ending s .pbvPushVec t := by
  rw [execPbvPushVec_eq]
  split
  · exact ⟨_, rfl, .failure _ _⟩
  · exact ⟨_, rfl, .vector _ _ (by simp [ChangesBv])⟩

theorem execCompress_ends : ∃ t, execCompress s = .next t ∧ Ending s .compress t := by
  rcases execCompress_cases s with ⟨-, h⟩ | ⟨-, h⟩ | ⟨-, -, root, -, ⟨-, h⟩ | ⟨-, h⟩⟩
  · exact ⟨_, h, .failure _ _⟩
  · exact ⟨_, h, .container _ _ (.inl rfl)⟩
  · exact ⟨_, h, .failure _ _⟩
  · exact ⟨_, h, .container _ _ (.inl rfl)⟩

theorem execDecompress_ends : ∃ t, execDecompress s = .next t ∧ Ending s .decompress t := by
  rcases execDecompress_cases s with ⟨-, h⟩ | ⟨-, -, root, o, last, -, -, -, ⟨-, h⟩ | ⟨-, h⟩⟩
  · exact ⟨_, h, .output []⟩
  · exact ⟨_, h, .output o⟩
  · exact ⟨_, h, .failure _ _⟩

theorem execSave_ends : ∃ t, execSave s = .next t ∧ Ending s .save t := by
  rcases execSave_cases s with ⟨-, h⟩ | ⟨-, -, h⟩ | ⟨-, -, h⟩
  · exact ⟨_, h, .failure _ _⟩
  · exact ⟨_, h, .saved _⟩
  · exact ⟨_, h, .saveFailure _ _⟩

theorem execLoad_ends : ∃ t, execLoad s = .next t ∧ Ending s .load t := by
  rcases execLoad_cases s with ⟨e, -, h⟩ | ⟨c, -, h⟩
  · exact ⟨_, h, .loadFailure e⟩
  · exact ⟨_, h, .container _ c (.inr rfl)⟩

/-- Every command ends, in one of the states its row allows. -/
theorem exec_ends (i : Instr) : ∃ t, exec i s = .next t ∧ Ending s i t := by
  cases i
  case compress => exact execCompress_ends s
  case decompress => exact execDecompress_ends s
  case save => exact execSave_ends s
  case load => exact execLoad_ends s
  case pbvPushBits => exact execPbvPushBits_ends s
  case pbvPushVec => exact execPbvPushVec_ends s
  case isEmpty | isFull | pbvSize | pbvPopcount => exact ⟨_, rfl, .result _ _ rfl⟩
  case pbvGet | pbvAt | pbvWord => exact endWithResult_ends s rfl _
  case pbvClear => exact ⟨_, rfl, .vector _ _ (by simp [ChangesBv])⟩
  case pbvPushBit | pbvPop | pbvSet | pbvResize => exact endWithVector_ends s (by simp [ChangesBv]) _

theorem ending_of_exec {s t : State} {i : Instr} (h : exec i s = .next t) : Ending s i t := by
  obtain ⟨u, hu, hend⟩ := exec_ends s i
  obtain rfl : u = t := Host.Outcome.next.inj (hu.symm.trans h)
  exact hend

end

/-- Settles O48, ending by ending: each replaces one part of the state, and the command is one that owns the part. -/
theorem commandsWriteOnlyTheirOwnState : Obligations.CommandsWriteOnlyTheirOwnState := by
  intro i s t hwf h
  cases ending_of_exec h with
  | failure i e => simp
  | result i x hi => simp [hi]
  | vector i v hi =>
    simpa using fun h1 h2 h3 h4 h5 h6 h7 => absurd hi (by simp [ChangesBv, h1, h2, h3, h4, h5, h6, h7])
  | container i c hi =>
    simpa using fun h1 h2 => absurd hi (by simp [h1, h2])
  | output o => simp
  | loadFailure e => simp
  | saved f => simpa using (setFile_changes_one_path s hwf s.arg0 (some f)).2
  | saveFailure o n => simpa using (setFile_changes_one_path s hwf s.arg0 o).2

/-! ## The image of a container -/

/-- Settles O38: the reads of each part, the size being that of the bit sequence. -/
theorem serializedImageHasTheStatedLayout : Obligations.SerializedImageHasTheStatedLayout := by
  intro c cap hwf hcap hfreq
  obtain ⟨hshape, hlen⟩ := (Pbv.wf_iff _ _).mp hwf
  rw [Pbv.length_bits]
  exact ⟨length_serialize c (ceil64_size_le hshape), memRead_numPairs c hfreq,
    memRead_totalBits c (size_lt c.bits cap hlen hcap),
    fun k e hk => ⟨memRead_sym c k e hk, memRead_count c k e hk⟩, memRead_word c⟩

/-- R58, R61: logical bit `i` of a payload, as a bit of the integer its word is stored as. -/
theorem testBit_memRead_payload (c : Container) (hshape : c.bits.Shape) {i : Nat} (hi : i < c.bits.size) :
    (memRead (serialize c) (16 + 5 * c.freq.length + 8 * (i / 64)) 8).testBit (63 - i % 64) = c.bits.getBit i := by
  have hk : i / 64 < ceil64 c.bits.size := by unfold ceil64; omega
  have hlt : i / 64 < c.bits.words.length := Nat.lt_of_lt_of_le hk (ceil64_size_le hshape)
  rw [memRead_word c _ _ hk (List.getElem?_eq_getElem hlt), Pbv.getBit, Pbv.wordAt, List.getD_eq_getElem _ _ hlt]
  rfl

/-- Settles O39: the integer's bit `63 - i mod 64` stands in byte `7 - (i mod 64) div 8`, at position `7 - i mod 8`. -/
theorem payloadBitStandsAtItsFileByte : Obligations.PayloadBitStandsAtItsFileByte := by
  intro c cap i b hwf hb
  have hshape : c.bits.Shape := hwf.shape
  obtain ⟨hi, hbit⟩ : i < c.bits.size ∧ c.bits.getBit i = b := by simpa [Pbv.getElem?_bits] using hb
  have hrange : 16 + 5 * c.freq.length + 8 * (i / 64) + 7 - i % 64 / 8 < (serialize c).length := by
    rw [length_serialize c (ceil64_size_le hshape), ceil64]
    omega
  refine ⟨_, List.getElem?_eq_getElem hrange, ?_⟩
  have h := testBit_memRead_payload c hshape hi
  have hbyte : 16 + 5 * c.freq.length + 8 * (i / 64) + (63 - i % 64) / 8 =
      16 + 5 * c.freq.length + 8 * (i / 64) + 7 - i % 64 / 8 := by omega
  have hpos : (63 - i % 64) % 8 = 7 - i % 8 := by omega
  rw [testBit_memRead _ _ _ _ (by omega), hbyte, hpos, List.getElem?_eq_getElem hrange] at h
  exact h.trans hbit

/-! ## The moves of a program's lines -/

section
variable {i : Instr} (a b : Word)

theorem commandMoves_no_operand (h : i.signature.usesArg0 = false ∧ i.signature.usesArg1 = false) :
    commandMoves i a b = [.writeCmd (encode i)] := by
  simp [commandMoves, h]

theorem commandMoves_arg0 (h : i.signature.usesArg0 = true ∧ i.signature.usesArg1 = false) :
    commandMoves i a b = [.writeArg0 a, .writeCmd (encode i)] := by
  simp [commandMoves, h]

theorem commandMoves_both (h : i.signature.usesArg0 = true ∧ i.signature.usesArg1 = true) :
    commandMoves i a b = [.writeArg0 a, .writeArg1 b, .writeCmd (encode i)] := by
  simp [commandMoves, h]

end

/-- Settles O56: an expansion is read off its line; the three groups of R51 by the operand columns of their commands. -/
theorem pseudoInstructionsAreTheirExpansions : Obligations.PseudoInstructionsAreTheirExpansions := by
  refine ⟨fun p => ⟨rfl, rfl, rfl⟩, fun v => ⟨rfl, rfl⟩, fun i a b => rfl, ?_, ?_, ?_⟩
  · intro i hi a b
    exact commandMoves_no_operand a b (by revert i; decide)
  · intro i hi a b
    exact commandMoves_arg0 a b (by revert i; decide)
  · intro i hi a b
    exact commandMoves_both a b (by revert i; decide)

end Sys2Proof.Machine
end

section
/-! PROOFS. The family PackedBitVector: the PBV_* commands and the laws of the unit
(40_packed_bit_vector.md R65 to R80). -/

namespace Sys2Proof.Machine

/-! ## The wrapper of R66, ending in the state its row writes -/

section
variable {s : State} {e : ErrKind}

theorem endWithVector_of_ok {r : Except ErrKind Pbv} {v : Pbv} (h : r = .ok v) :
    endWithVector s r = .next { s with bv := v, err := .none, seq := .idle, call := none } := by
  rw [h]; rfl

theorem endWithVector_of_error {r : Except ErrKind Pbv} (h : r = .error e) :
    endWithVector s r = .next { s with err := e, seq := .idle, call := none } := by
  rw [h]; rfl

theorem endWithResult_of_ok {r : Except ErrKind Word} {x : Word} (h : r = .ok x) :
    endWithResult s r = .next { s with res := x, err := .none, seq := .idle, call := none } := by
  rw [h]; rfl

theorem endWithResult_of_error {r : Except ErrKind Word} (h : r = .error e) :
    endWithResult s r = .next { s with err := e, seq := .idle, call := none } := by
  rw [h]; rfl

end

/-! ## Parts of a vector -/

theorem Pbv.bits_eq_nil_iff (v : Pbv) : v.bits = [] ↔ v.size = 0 := by
  rw [← List.length_eq_zero_iff, Pbv.length_bits]

theorem Pbv.getElem?_words (v : Pbv) {k : Nat} (hk : k < v.words.length) : v.words[k]? = some (v.wordAt k) := by
  rw [Pbv.wordAt, List.getD_eq_getElem _ _ hk, List.getElem?_eq_getElem hk]

theorem Pbv.div64_lt_length {v : Pbv} {i : Nat} (hi : i < v.size) : i / 64 < v.words.length := by
  unfold Pbv.size at hi; omega

/-- R68: within the capacities of R7 a size is a 64-bit number. -/
theorem Pbv.wf.size_lt_two_pow {s : State} (hbv : s.bv.wf s.caps.capWords) (hcaps : s.caps.wf = true) :
    s.bv.size < 2 ^ 64 := by
  obtain ⟨-, -, ⟨-, hcap⟩, -⟩ := (Capacities.wf_iff _).mp hcaps
  exact size_lt s.bv _ ((Pbv.wf_iff _ _).mp hbv).2 hcap

/-! ## Commands that read `BV` -/

/-- Settles O12: the size is below 2^64, so nothing is cut off. -/
theorem pbvSizeReturnsTheBitCount : Obligations.PbvSizeReturnsTheBitCount := by
  refine ⟨decode_encode .pbvSize, fun s hcaps hbv => ?_⟩
  have hr : (natWord s.bv.size).toNat = s.bv.size := natWord_toNat _ (hbv.size_lt_two_pow hcaps)
  exact ⟨_, endWithResult_of_ok rfl, hr, by rw [hr, Pbv.length_bits]⟩

/-- Settles O17: both commands run the one check; the two cases are those of `pbvAt`. -/
theorem pbvGetAndAtReadTheIndexedBit : Obligations.PbvGetAndAtReadTheIndexedBit := by
  refine ⟨decode_encode .pbvGet, decode_encode .pbvAt, fun s i hi => ?_⟩
  have hexec : exec i s = endWithResult s ((pbvAt s.bv s.arg0.toNat).map bitWord) := by
    rcases hi with rfl | rfl <;> rfl
  rw [hexec, Pbv.length_bits]
  rcases pbvAt_cases s.bv s.arg0.toNat with ⟨hout, he⟩ | ⟨hin, hok⟩
  · exact ⟨fun _ => endWithResult_of_error (congrArg _ he), fun h => absurd h (Nat.not_lt.mpr hout)⟩
  · refine ⟨fun h => absurd hin (Nat.not_lt.mpr h), fun _ => ?_⟩
    exact ⟨_, _, s.bv.getElem?_words (Pbv.div64_lt_length hin), rfl,
      by rw [Pbv.getElem?_bits, if_pos hin]; rfl, endWithResult_of_ok (congrArg _ hok)⟩

/-- Settles O20: the ones are among the logical bits, whose number is below 2^64. -/
theorem pbvPopcountCountsTheOneBits : Obligations.PbvPopcountCountsTheOneBits := by
  refine ⟨decode_encode .pbvPopcount, fun s hcaps hbv => ?_⟩
  have hcount : pbvPopcount s.bv = s.bv.bits.count true := pbvPopcount_eq_count _ hbv.shape
  have hle : s.bv.bits.count true ≤ s.bv.size := s.bv.length_bits ▸ List.count_le_length
  have hr : (natWord (pbvPopcount s.bv)).toNat = pbvPopcount s.bv :=
    natWord_toNat _ (hcount ▸ Nat.lt_of_le_of_lt hle (hbv.size_lt_two_pow hcaps))
  exact ⟨_, endWithResult_of_ok rfl, hr, hr.trans hcount⟩

/-- Settles O21: the two cases are those of `pbvWord`. -/
theorem pbvWordReturnsTheWord : Obligations.PbvWordReturnsTheWord := by
  refine ⟨decode_encode .pbvWord, fun s => ?_⟩
  rcases pbvWord_cases s.bv s.arg0.toNat with ⟨hout, he⟩ | ⟨hin, hok⟩
  · refine ⟨fun _ => endWithResult_of_error he, fun w hw => ?_⟩
    rw [List.getElem?_eq_none hout] at hw
    cases hw
  · refine ⟨fun h => absurd hin (Nat.not_lt.mpr h), fun w hw => ?_⟩
    obtain rfl : s.bv.wordAt s.arg0.toNat = w := Option.some.inj ((s.bv.getElem?_words hin).symm.trans hw)
    exact endWithResult_of_ok hok

/-! ## Commands that replace `BV` -/

/-- Settles O11: the command has one ending, and it is the empty vector of R67. -/
theorem pbvClearGivesTheEmptyVector : Obligations.PbvClearGivesTheEmptyVector :=
  ⟨decode_encode .pbvClear, fun _ => endWithVector_of_ok rfl⟩

/-- R69, R70: a push that makes `u` out of `BV`, with one new word exactly when `needsWord`: it fails exactly when the
word is needed and there is no room for it. -/
theorem endWithVector_push {s : State} {u : Pbv} {needsWord : Prop} [Decidable needsWord]
    (hbv : s.bv.wf s.caps.capWords) (hu : u.Shape)
    (hlen : u.words.length = s.bv.words.length + if needsWord then 1 else 0) :
    (needsWord ∧ s.bv.words.length = s.caps.capWords →
      endWithVector s (withinWords s.caps.capWords u) =
        .next { s with err := .capacityExceeded, seq := .idle, call := none }) ∧
    (¬ (needsWord ∧ s.bv.words.length = s.caps.capWords) →
      endWithVector s (withinWords s.caps.capWords u) =
        .next { s with bv := u, err := .none, seq := .idle, call := none } ∧ u.wf s.caps.capWords) := by
  have hcap : s.bv.words.length ≤ s.caps.capWords := ((Pbv.wf_iff _ _).mp hbv).2
  have hiff : s.caps.capWords < u.words.length ↔ needsWord ∧ s.bv.words.length = s.caps.capWords := by
    by_cases hn : needsWord
    · simp only [hlen, hn, if_true, true_and]; omega
    · simp only [hlen, hn, if_false, false_and, iff_false]; omega
  rw [← hiff]
  rcases withinWords_cases s.caps.capWords u with ⟨hfits, hok⟩ | ⟨hover, he⟩
  · exact ⟨fun h => absurd hfits (Nat.not_le.mpr h),
      fun _ => ⟨endWithVector_of_ok hok, (Pbv.wf_iff _ _).mpr ⟨hu, hfits⟩⟩⟩
  · exact ⟨fun _ => endWithVector_of_error he, fun h => absurd hover h⟩

/-- R69: PBV_PUSH_BIT is PBV_PUSH_BITS of one bit. -/
theorem pbvPushBit_eq_pushBits (v : Pbv) (b : Bool) (hv : v.Shape) :
    pbvPushBit v b = pbvPushBits v (if b then 1 else 0) 1 := by
  have hb : msbFirst (if b then 1 else 0) 1 = [b] := by cases b <;> rfl
  rw [pbvPushBits_eq_foldl v _ 1 hv (Nat.le_refl 1) (by decide), hb]
  rfl

/-- Settles O13: one new word exactly when the last one is full. -/
theorem pbvPushBitAppendsOneBit : Obligations.PbvPushBitAppendsOneBit := by
  refine ⟨decode_encode .pbvPushBit, fun s hbv => ?_⟩
  have hv := hbv.shape
  have hlen := pbvPushBit_length s.bv (s.arg0.getLsbD 0)
  obtain ⟨hfull, hroom⟩ := endWithVector_push hbv (hv.pushBit _) hlen
  refine ⟨hfull, fun h => ?_⟩
  obtain ⟨hexec, hwf⟩ := hroom h
  exact ⟨_, hexec, hwf, pbvPushBit_bits _ _ hv, hlen, pbvPushBit_eq_pushBits _ _ hv⟩

/-- Settles O14: the operand check first; then one new word exactly when the bits do not fit in the last one. -/
theorem pbvPushBitsAppendsTheLowBits : Obligations.PbvPushBitsAppendsTheLowBits := by
  refine ⟨decode_encode .pbvPushBits, fun s => ⟨fun hn => ?_, fun h1 h64 hbv => ?_⟩⟩
  · exact (execPbvPushBits_eq s).trans (if_pos hn)
  · have hv := hbv.shape
    have hexec : exec .pbvPushBits s =
        endWithVector s (withinWords s.caps.capWords (pbvPushBits s.bv s.arg0 s.arg1.toNat)) :=
      (execPbvPushBits_eq s).trans (if_neg (by omega))
    have hlen := pbvPushBits_length s.bv s.arg0 s.arg1.toNat
    obtain ⟨hfull, hroom⟩ := endWithVector_push hbv (hv.pushBits s.arg0 _ h64) hlen
    rw [hexec]
    refine ⟨hfull, fun h => ?_⟩
    obtain ⟨hok, hwf⟩ := hroom h
    exact ⟨_, hok, hwf, pbvPushBits_bits _ _ _ hv h64, hlen⟩

/-- Settles O15: the words the result needs are known from the two sizes, before anything is forwarded. -/
theorem pbvPushVecAppendsThePayload : Obligations.PbvPushVecAppendsThePayload := by
  refine ⟨decode_encode .pbvPushVec, fun s hbv hct => ?_⟩
  rw [Pbv.length_bits, Pbv.length_bits]
  refine ⟨fun hover => (execPbvPushVec_eq s).trans (if_pos hover), fun hfits => ?_⟩
  have hlen := pbvPushVec_length s.bv s.ct.bits hbv.shape hct.shape
  exact ⟨_, (execPbvPushVec_eq s).trans (if_neg (Nat.not_lt.mpr hfits)),
    (Pbv.wf_iff _ _).mpr ⟨hbv.shape.pushVec hct.shape, hlen.trans_le hfits⟩,
    pbvPushVec_bits _ _ hbv.shape hct.shape, hlen⟩

/-- R72: the vector PBV_POP leaves is within the capacity of the one it found. -/
theorem Pbv.wf.popBit {v : Pbv} {cap : Nat} (hv : v.wf cap) (hs : v.size ≠ 0) : (pbvPopBit v).wf cap := by
  obtain ⟨hshape, hlen⟩ := (Pbv.wf_iff _ _).mp hv
  refine (Pbv.wf_iff _ _).mpr ⟨hshape.popBit hs, ?_⟩
  rw [pbvPopBit_length]
  split <;> omega

/-- Settles O16: the two cases are those of `pbvPop`; an empty last word is dropped first. -/
theorem pbvPopRemovesTheLastBit : Obligations.PbvPopRemovesTheLastBit := by
  refine ⟨decode_encode .pbvPop, fun s hbv => ?_⟩
  rw [ne_eq, Pbv.bits_eq_nil_iff]
  rcases pbvPop_cases s.bv with ⟨hzero, he⟩ | ⟨hpos, hok⟩
  · exact ⟨fun _ => endWithVector_of_error he, fun h => absurd hzero h⟩
  · refine ⟨fun h => absurd h hpos, fun _ => ?_⟩
    refine ⟨_, endWithVector_of_ok hok, hbv.popBit hpos, pbvPopBit_bits _ hbv.shape hpos,
      fun hlast => ?_, fun hlast => ?_⟩
    · rw [pbvPopBit_length, pbvPopBit_freeBits, if_pos hlast, if_pos hlast]
      exact ⟨Nat.sub_add_cancel hbv.shape.pos, rfl⟩
    · rw [pbvPopBit_length, pbvPopBit_freeBits, if_neg hlast, if_neg hlast]
      exact ⟨rfl, rfl⟩

/-- R75: setting a bit keeps the word count. -/
theorem Pbv.wf.setBit {v : Pbv} {cap : Nat} (hv : v.wf cap) {i : Nat} (hi : i < v.size) (b : Bool) :
    (v.putWord (i / 64) (putBit (v.wordAt (i / 64)) (63 - i % 64) b)).wf cap := by
  obtain ⟨hshape, hlen⟩ := (Pbv.wf_iff _ _).mp hv
  exact (Pbv.wf_iff _ _).mpr ⟨hshape.setBit i b hi, by rwa [Pbv.length_putWord]⟩

/-- Settles O18: the two cases are those of `pbvSet`. -/
theorem pbvSetWritesOneBit : Obligations.PbvSetWritesOneBit := by
  refine ⟨decode_encode .pbvSet, fun s hbv => ?_⟩
  rw [Pbv.length_bits]
  rcases pbvSet_cases s.bv s.arg0.toNat (s.arg1.getLsbD 0) with ⟨hout, he⟩ | ⟨hin, hok⟩
  · exact ⟨fun _ => endWithVector_of_error he, fun h => absurd h (Nat.not_lt.mpr hout)⟩
  · refine ⟨fun h => absurd hin (Nat.not_lt.mpr h), fun _ => ?_⟩
    exact ⟨_, endWithVector_of_ok hok, hbv.setBit hin _, pbvSet_bits _ _ _ hin, rfl, Pbv.length_putWord _ _ _⟩

theorem resized_wf (v : Pbv) {n cap : Nat} (h : fewestWords n ≤ cap) : (resized v n).wf cap :=
  (Pbv.wf_iff _ _).mpr ⟨resized_shape v n, (resized_length v n).trans_le h⟩

/-- Settles O19: the two cases are those of `pbvResize`. -/
theorem pbvResizeTruncatesOrZeroExtends : Obligations.PbvResizeTruncatesOrZeroExtends := by
  refine ⟨decode_encode .pbvResize, fun s hbv => ?_⟩
  rcases pbvResize_cases s.caps.capWords s.bv s.arg0.toNat with ⟨hover, he⟩ | ⟨hfits, hok⟩
  · exact ⟨fun _ => endWithVector_of_error he, fun h => absurd hover (Nat.not_lt.mpr h)⟩
  · refine ⟨fun h => absurd hfits (Nat.not_le.mpr h), fun _ => ?_⟩
    have hlen := resized_length s.bv s.arg0.toNat
    exact ⟨_, endWithVector_of_ok hok, resized_wf _ hfits, resized_bits _ _ hbv.shape, hlen,
      by rw [hlen, resized_freeBits]⟩

/-! ## The laws of the unit -/

/-- Settles O22: the two laws of R80, which ask for the shape alone. -/
theorem appendsAreRepeatedSinglePushes : Obligations.AppendsAreRepeatedSinglePushes :=
  ⟨fun _ v w n hv h1 h64 => pbvPushBits_eq_foldl v w n hv.shape h1 h64,
    fun _ v o hv ho => pbvPushVec_eq_foldl v o hv.shape ho.shape⟩

/-- R79 (a): any sequence of appends keeps the shape and adds the bits of each, in order. -/
theorem foldl_applyTo_spec (cap : Nat) (ops : List PushOp) (hops : ∀ op ∈ ops, op.wf cap) (v : Pbv) (hv : v.Shape) :
    (ops.foldl PushOp.applyTo v).Shape ∧ (ops.foldl PushOp.applyTo v).bits = v.bits ++ ops.flatMap PushOp.bits := by
  induction ops generalizing v with
  | nil => exact ⟨hv, (List.append_nil _).symm⟩
  | cons op ops ih =>
    obtain ⟨hop, hrest⟩ := List.forall_mem_cons.mp hops
    obtain ⟨hshape, hbits⟩ := PushOp.applyTo_spec v hv cap op hop
    obtain ⟨hfold, hfoldBits⟩ := ih hrest _ hshape
    refine ⟨hfold, ?_⟩
    rw [List.foldl_cons, hfoldBits, hbits, List.append_assoc, List.flatMap_cons]

theorem foldl_applyTo_empty_bits (cap : Nat) (ops : List PushOp) (hops : ∀ op ∈ ops, op.wf cap) :
    (ops.foldl PushOp.applyTo Pbv.empty).bits = ops.flatMap PushOp.bits :=
  (foldl_applyTo_spec cap ops hops _ Pbv.shape_empty).2

/-- R79: pop undoes push, on the bits. -/
theorem pbvPopBit_pushBit_bits (v : Pbv) (b : Bool) (hv : v.Shape) : (pbvPopBit (pbvPushBit v b)).bits = v.bits := by
  have hs : (pbvPushBit v b).size ≠ 0 := by rw [pbvPushBit_size v b hv]; exact Nat.succ_ne_zero _
  rw [pbvPopBit_bits _ (hv.pushBit b) hs, pbvPushBit_bits v b hv, List.dropLast_concat]

section
variable {v v' : Pbv} {cap : Nat}

theorem Pbv.wf.pushBit (hv : v.wf cap) (b : Bool) : (pbvPushBit v b).wf (cap + 1) := by
  obtain ⟨hshape, hlen⟩ := (Pbv.wf_iff _ _).mp hv
  refine (Pbv.wf_iff _ _).mpr ⟨hshape.pushBit b, ?_⟩
  rw [pbvPushBit_length]
  split <;> omega

theorem Pbv.wf.pushBits (hv : v.wf cap) (w : Word) {n : Nat} (hn : n ≤ 64) : (pbvPushBits v w n).wf (cap + 1) := by
  obtain ⟨hshape, hlen⟩ := (Pbv.wf_iff _ _).mp hv
  refine (Pbv.wf_iff _ _).mpr ⟨hshape.pushBits w n hn, ?_⟩
  rw [pbvPushBits_length]
  split <;> omega

theorem Pbv.wf.pushVec (hv : v.wf cap) {o : Pbv} {cap' : Nat} (ho : o.wf cap') :
    (pbvPushVec v o).wf (pushVecWords v o) :=
  (Pbv.wf_iff _ _).mpr ⟨hv.shape.pushVec ho.shape, (pbvPushVec_length v o hv.shape ho.shape).le⟩

theorem pbvPop_ok (h : pbvPop v = .ok v') : v.size ≠ 0 ∧ v' = pbvPopBit v := by
  rcases pbvPop_cases v with ⟨-, he⟩ | ⟨hpos, hok⟩
  · cases he.symm.trans h
  · exact ⟨hpos, Except.ok.inj (h.symm.trans hok)⟩

theorem pbvSet_ok {i : Nat} {b : Bool} (h : pbvSet v i b = .ok v') :
    i < v.size ∧ v' = v.putWord (i / 64) (putBit (v.wordAt (i / 64)) (63 - i % 64) b) := by
  rcases pbvSet_cases v i b with ⟨-, he⟩ | ⟨hin, hok⟩
  · cases he.symm.trans h
  · exact ⟨hin, Except.ok.inj (h.symm.trans hok)⟩

theorem pbvResize_ok {n : Nat} (h : pbvResize cap v n = .ok v') : fewestWords n ≤ cap ∧ v' = resized v n := by
  rcases pbvResize_cases cap v n with ⟨-, he⟩ | ⟨hfits, hok⟩
  · cases he.symm.trans h
  · exact ⟨hfits, Except.ok.inj (h.symm.trans hok)⟩

theorem pbvPop_wf (hv : v.wf cap) (h : pbvPop v = .ok v') : v'.wf cap := by
  obtain ⟨hpos, rfl⟩ := pbvPop_ok h
  exact hv.popBit hpos

theorem pbvSet_wf (hv : v.wf cap) {i : Nat} {b : Bool} (h : pbvSet v i b = .ok v') : v'.wf cap := by
  obtain ⟨hin, rfl⟩ := pbvSet_ok h
  exact hv.setBit hin b

theorem pbvResize_wf {n : Nat} (h : pbvResize cap v n = .ok v') : v'.wf cap := by
  obtain ⟨hfits, rfl⟩ := pbvResize_ok h
  exact resized_wf v hfits

theorem pbvResize_size {n : Nat} (h : pbvResize cap v n = .ok v') : v'.size = n := by
  obtain ⟨-, rfl⟩ := pbvResize_ok h
  exact resized_size v n

end

/-- Settles O23, law by law; each function's invariants by its own lemma. -/
theorem packedBitVectorLaws : Obligations.PackedBitVectorLaws := by
  refine ⟨fun cap ops hops => ?appends, fun _ v b hv => pbvPopBit_pushBit_bits v b hv.shape,
    fun _ _ _ _ _ h => pbvResize_size h, fun v => if_pos (Nat.le_refl v.size), Pbv.length_bits, Pbv.wf_empty,
    fun cap v hv => ?invariants⟩
  case appends =>
    have hbits := foldl_applyTo_empty_bits cap ops hops
    refine ⟨hbits, fun i hi => ?_⟩
    simp only [← hbits, Pbv.getElem_bits]
  case invariants =>
    exact ⟨hv.pushBit, fun w _ _ hn => hv.pushBits w hn, fun _ _ ho => hv.pushVec ho, fun _ h => pbvPop_wf hv h,
      fun _ _ _ h => pbvSet_wf hv h, fun _ _ h => pbvResize_wf h⟩

end Sys2Proof.Machine
end

section
/-! PROOFS. The family FrequencyCounter: the table that one scan of the input leaves (41_frequency_counter.md R81 to R84). -/

namespace Sys2Proof.Machine

section
variable (l : List Symbol)

/-- The table's symbols are the distinct symbols of the input (R81). -/
theorem freqCount_syms_perm_dedup : ((freqCount l).map FreqEntry.sym).Perm l.dedup := by
  have hc := freqCount_counted l
  refine (List.perm_ext_iff_of_nodup hc.nodup l.nodup_dedup).mpr fun s => ?_
  rw [hc.mem, List.mem_dedup]

variable {l} (hl : l.length ≤ 2 ^ 32 - 1)
include hl

/-- An entry's count is exact while the input fits the counts of R83. -/
theorem freqCount_entry_count {e : FreqEntry} (he : e ∈ freqCount l) : e.count.toNat = l.count e.sym := by
  rw [← countIn_of_mem _ (freqCount_counted l).nodup e he, countIn_freqCount l hl]

theorem freqCount_entry_count_pos {e : FreqEntry} (he : e ∈ freqCount l) : 1 ≤ e.count.toNat := by
  have hmem : e.sym ∈ l := ((freqCount_counted l).mem e.sym).mp (List.mem_map_of_mem he)
  rw [freqCount_entry_count hl he]
  exact List.one_le_count_iff.mpr hmem

theorem freqCount_counts_sum : ((freqCount l).map fun e => e.count.toNat).sum = l.length :=
  calc ((freqCount l).map fun e => e.count.toNat).sum
      = (((freqCount l).map FreqEntry.sym).map l.count).sum := by
        rw [List.map_map]
        exact congrArg List.sum (List.map_congr_left fun _ he => freqCount_entry_count hl he)
    _ = (l.dedup.map l.count).sum := ((freqCount_syms_perm_dedup l).map l.count).sum_eq
    _ = l.length := List.sum_map_count_dedup_eq_length l

end

/-- Settles O25: what the scan keeps (`Counted`) gives the symbols and their order, and the counts are exact. -/
theorem freqCountCountsInFirstOccurrenceOrder : Obligations.FreqCountCountsInFirstOccurrenceOrder := by
  intro input hlen
  obtain ⟨hnodup, hmem, horder⟩ := freqCount_counted input
  exact ⟨hnodup, hmem, horder,
    fun _ he => ⟨freqCount_entry_count hlen he, freqCount_entry_count_pos hlen he⟩,
    freqCount_counts_sum hlen, freqCount_length_le input⟩

end Sys2Proof.Machine
end

section
/-! PROOFS. The family TreeBuilder: the order of the priority structure, the tree the merge loop builds, the dictionary
made of its paths, and the decoder's independence of the order of the pairs (42_tree_builder.md R86 to R98). -/

namespace Sys2Proof.Machine

/-! ## The priority structure under the order of R87 -/

theorem mergeNodes_eq (a b : Tree) :
    mergeNodes a b = .node (a.count + b.count) (if a.key.toNat ≤ b.key.toNat then a.key else b.key) a b := by
  simp only [mergeNodes, BitVec.le_def]

theorem PqNode.Below.asymm {x y : PqNode} (h : x.Below y) : ¬ y.Below x := by
  rw [← lower_iff_below] at h ⊢
  simp [lower_asymm x y h]

/-- R87: with distinct numbers the order is total, so the member removed is below every member left. -/
theorem removeLowest_below {pq rest : List PqNode} {m : PqNode} (hn : (pq.map PqNode.index).Nodup)
    (h : removeLowest pq = some (m, rest)) : ∀ x ∈ rest, m.Below x := by
  intro x hx
  have hm : m.index ∉ rest.map PqNode.index :=
    (List.nodup_cons.mp (((removeLowest_perm pq m rest h).map PqNode.index).nodup_iff.mp hn)).1
  have hne : m.index ≠ x.index := fun e => hm (e ▸ List.mem_map_of_mem hx)
  rcases lower_total m x hne with hl | hl
  · exact (lower_iff_below m x).mp hl
  · rw [removeLowest_lowest pq m rest h x hx] at hl
    cases hl

theorem exists_removeLowest {pq : List PqNode} (h : pq ≠ []) : ∃ m rest, removeLowest pq = some (m, rest) := by
  obtain ⟨⟨m, rest⟩, hr⟩ := Option.ne_none_iff_exists'.mp (mt (removeLowest_eq_none pq).mp h)
  exact ⟨m, rest, hr⟩

/-- R87: a member below every other is the one removed, in whatever order the members stand. -/
theorem removeLowest_of_below {pq rest : List PqNode} {a : PqNode} (hp : pq.Perm (a :: rest))
    (ha : ∀ x ∈ rest, a.Below x) : ∃ rest', removeLowest pq = some (a, rest') ∧ rest'.Perm rest := by
  have hne : pq ≠ [] := by
    rintro rfl
    simp at hp
  obtain ⟨m, rest', hr⟩ := exists_removeLowest hne
  have hpm : (m :: rest').Perm (a :: rest) := (removeLowest_perm pq m rest' hr).symm.trans hp
  have hma : m = a := by
    rcases List.mem_cons.mp (hpm.mem_iff.mp List.mem_cons_self) with hm | hm
    · exact hm
    rcases List.mem_cons.mp (hpm.mem_iff.mpr List.mem_cons_self) with h | h
    · exact h.symm
    have hlow := (lower_iff_below a m).mpr (ha m hm)
    rw [removeLowest_lowest pq m rest' hr a h] at hlow
    cases hlow
  subst hma
  exact ⟨rest', hr, hpm.cons_inv⟩

/-- Settles O59: `lower` is `PqNode.Below`, and the members' numbers make the order total. -/
theorem removeLowestAndMergeFollowTheOrder : Obligations.RemoveLowestAndMergeFollowTheOrder := by
  refine ⟨lower_iff_below, fun pq hne hn => ?_, mergeNodes_eq, fun _ _ => ⟨rfl, rfl⟩, fun _ _ _ _ => ⟨rfl, rfl⟩⟩
  obtain ⟨m, rest, h⟩ := exists_removeLowest hne
  exact ⟨m, rest, h, removeLowest_perm pq m rest h,
    fun x hx => (lower_iff_below m x).mpr (removeLowest_below hn h x hx)⟩

/-! ## The merge loop and the merge relation -/

/-- Everything one pass of the merge loop can do on its way to a tree (R88). -/
theorem mergeLoop_succ_cases {fuel nxt : Nat} {pq : List PqNode} {t : Tree}
    (h : mergeLoop (fuel + 1) nxt pq = some t) :
    (∃ x, pq = [x] ∧ t = x.node) ∨
    ∃ a b pq1 pq2, removeLowest pq = some (a, pq1) ∧ removeLowest pq1 = some (b, pq2) ∧
      mergeLoop fuel (nxt + 1) (⟨nxt, mergeNodes a.node b.node⟩ :: pq2) = some t := by
  simp only [mergeLoop] at h
  split at h
  · cases h
  · next a pq1 h1 =>
    split at h
    · next h2 =>
      have hp := removeLowest_perm pq a pq1 h1
      rw [(removeLowest_eq_none pq1).mp h2] at hp
      exact .inl ⟨a, List.perm_singleton.mp hp, (Option.some.inj h).symm⟩
    · next b pq2 h2 => exact .inr ⟨a, b, pq1, pq2, h1, h2, h⟩

/-- One merge of the loop (R88). -/
theorem mergeLoop_succ_of_removeLowest (fuel nxt : Nat) {pq pq1 pq2 : List PqNode} {a b : PqNode}
    (h1 : removeLowest pq = some (a, pq1)) (h2 : removeLowest pq1 = some (b, pq2)) :
    mergeLoop (fuel + 1) nxt pq = mergeLoop fuel (nxt + 1) (⟨nxt, mergeNodes a.node b.node⟩ :: pq2) := by
  simp only [mergeLoop, h1, h2]

/-- The numbers of the members are distinct and below the number of the next node (R86). -/
def NumberedBelow (nxt : Nat) (pq : List PqNode) : Prop :=
  (pq.map PqNode.index).Nodup ∧ ∀ x ∈ pq, x.index < nxt

theorem NumberedBelow.perm {nxt : Nat} {p q : List PqNode} (h : NumberedBelow nxt p) (hpq : p.Perm q) :
    NumberedBelow nxt q :=
  ⟨(hpq.map PqNode.index).nodup_iff.mp h.1, fun x hx => h.2 x (hpq.mem_iff.mpr hx)⟩

theorem NumberedBelow.tail {nxt : Nat} {a : PqNode} {pq : List PqNode} (h : NumberedBelow nxt (a :: pq)) :
    NumberedBelow nxt pq :=
  ⟨(List.nodup_cons.mp h.1).2, fun x hx => h.2 x (List.mem_cons_of_mem a hx)⟩

theorem NumberedBelow.insert {nxt : Nat} {pq : List PqNode} (h : NumberedBelow nxt pq) (t : Tree) :
    NumberedBelow (nxt + 1) (⟨nxt, t⟩ :: pq) := by
  obtain ⟨hn, hlt⟩ := h
  refine ⟨List.nodup_cons.mpr ⟨fun hm => ?_, hn⟩, fun x hx => ?_⟩
  · obtain ⟨x, hx, he⟩ := List.mem_map.mp hm
    exact (hlt x hx).ne he
  · rcases List.mem_cons.mp hx with rfl | hx
    · exact Nat.lt_succ_self nxt
    · exact Nat.lt_succ_of_lt (hlt x hx)

/-- Every tree of the loop comes about by merging the two lowest members (R88). -/
theorem mergesTo_of_mergeLoop {fuel nxt : Nat} {pq : List PqNode} {t : Tree} (hn : NumberedBelow nxt pq)
    (h : mergeLoop fuel nxt pq = some t) : MergesTo nxt pq t := by
  induction fuel generalizing nxt pq with
  | zero => cases h
  | succ fuel ih =>
    rcases mergeLoop_succ_cases h with ⟨x, rfl, rfl⟩ | ⟨a, b, pq1, pq2, h1, h2, hrest⟩
    · exact .root nxt x
    have hp1 := removeLowest_perm pq a pq1 h1
    have hp2 := removeLowest_perm pq1 b pq2 h2
    have hn1 := (hn.perm hp1).tail
    have hn2 := (hn1.perm hp2).tail
    have hm := ih (hn2.insert _) hrest
    rw [mergeNodes_eq] at hm
    exact .merge nxt pq a b pq2 t (hp1.trans (hp2.cons a))
      (fun x hx => removeLowest_below hn.1 h1 x (hp2.mem_iff.mpr hx)) (removeLowest_below hn1.1 h2) hm

/-- The loop reaches every tree of the relation, in whatever order the members stand: the two members the relation names
are the ones the loop removes (R88). -/
theorem MergesTo.mergeLoop_eq {nxt : Nat} {pq : List PqNode} {t : Tree} (h : MergesTo nxt pq t) :
    ∀ pq', pq'.Perm pq → mergeLoop pq'.length nxt pq' = some t := by
  induction h with
  | root nxt x =>
    intro pq' hp
    rw [List.perm_singleton.mp hp]
    rfl
  | merge nxt pq a b rest t hpq ha hb _ ih =>
    intro pq' hp
    have hall : pq'.Perm (a :: b :: rest) := hp.trans hpq
    obtain ⟨pq1, h1, hp1⟩ := removeLowest_of_below hall ha
    obtain ⟨pq2, h2, hp2⟩ := removeLowest_of_below hp1 hb
    have hlen : pq'.length = (⟨nxt, mergeNodes a.node b.node⟩ :: pq2 : List PqNode).length + 1 := by
      simp [hall.length_eq, hp2.length_eq]
    rw [hlen, mergeLoop_succ_of_removeLowest _ _ h1 h2]
    exact ih _ (by rw [mergeNodes_eq]; exact hp2.cons _)

theorem leavesFrom_eq_mapIdx (j : Nat) (f : List FreqEntry) :
    leavesFrom j f = f.mapIdx fun i e => ⟨j + i, .leaf e.sym e.count⟩ := by
  induction f generalizing j with
  | nil => rfl
  | cons e rest ih =>
    simp only [leavesFrom, List.mapIdx_cons, ih, Nat.add_zero]
    congr 2
    funext i e
    rw [Nat.add_right_comm, Nat.add_assoc]

theorem leavesFrom_indices (j : Nat) (f : List FreqEntry) :
    (leavesFrom j f).map PqNode.index = List.range' j f.length := by
  induction f generalizing j with
  | nil => rfl
  | cons e rest ih => simp [leavesFrom, ih, List.range'_succ]

theorem numberedBelow_leavesFrom (f : List FreqEntry) : NumberedBelow f.length (leavesFrom 0 f) := by
  refine ⟨leavesFrom_indices 0 f ▸ List.nodup_range', fun x hx => ?_⟩
  have hx' := List.mem_map_of_mem (f := PqNode.index) hx
  rw [leavesFrom_indices, List.mem_range'_1] at hx'
  omega

/-- Settles O60: the loop follows the relation because the members' numbers stay distinct, and the relation names the very
members the loop removes. -/
theorem treeBuildMergesTheTwoLowest : Obligations.TreeBuildMergesTheTwoLowest := by
  intro f root _
  have hleaves : (f.mapIdx fun j e => ⟨j, .leaf e.sym e.count⟩) = leavesFrom 0 f := by
    simp only [leavesFrom_eq_mapIdx, Nat.zero_add]
  rw [hleaves]
  refine ⟨mergesTo_of_mergeLoop (numberedBelow_leavesFrom f), fun h => ?_⟩
  have := h.mergeLoop_eq _ (List.Perm.refl _)
  rwa [length_leavesFrom] at this

/-! ## The shape of the tree, and its independence of the table's order -/

/-- Settles O26: the leaves are the entries (`treeBuild_spec`), and a path passes each internal node at most once. -/
theorem treeBuildGivesTheStatedShape : Obligations.TreeBuildGivesTheStatedShape := by
  intro f hf
  obtain ⟨root, hbuild, hleaves, hsummed⟩ := treeBuild_spec f hf
  have hnodes : root.internalNodes + 1 = f.length := (leaves_length root).symm.trans hleaves.length_eq
  refine ⟨root, hbuild, hleaves, hnodes, hsummed.count_eq.trans (hleaves.map _).sum_eq, fun h2 => ?_⟩
  have hinner := treeBuild_internal f root hbuild h2
  refine ⟨hinner, fun e he => ⟨List.length_pos_iff.mpr (path_ne_nil root hinner e he), ?_⟩⟩
  have := path_length_le root e he
  omega

/-- R93: with unique symbols the builder sees only which entries there are. -/
theorem treeBuild_perm {f g : List FreqEntry} (hfg : f.Perm g) (hn : (f.map FreqEntry.sym).Nodup) :
    treeBuild f = treeBuild g := by
  unfold treeBuild
  rw [← hfg.length_eq]
  refine mergeLoop_congr _ _ _ _ _ ?_ ?_
  · rw [leavesFrom_nodes, leavesFrom_nodes]
    exact hfg.map _
  · rwa [leavesFrom_keys]

/-- Settles O27: the order is of no account to the builder (`treeBuild_perm`). -/
theorem treeDoesNotDependOnTableOrder : Obligations.TreeDoesNotDependOnTableOrder :=
  fun _ _ => treeBuild_perm

/-! ## The dictionary -/

/-- Settles O28: an internal root by the traversal's lemma, a lone leaf by computation. -/
theorem dictionaryHoldsThePaths : Obligations.DictionaryHoldsThePaths :=
  ⟨codeOf_dictBuild, fun _ _ => rfl⟩

section
variable {root : Tree} (hn : (root.paths.map Prod.fst).Nodup)
include hn

/-- R96 (a): a symbol has a code exactly when it is one of the tree's. -/
theorem codeOf_dictBuild_isSome_iff (s : Symbol) :
    (codeOf (dictBuild root).2 s).isSome = true ↔ s ∈ root.paths.map Prod.fst := by
  refine ⟨fun h => ?_, fun hs => by rw [codeOf_isSome root hn s hs]; rfl⟩
  by_contra hs
  rw [codeOf_dictBuild_none root s hs] at h
  cases h

/-- A code of the dictionary is the tree's code for one of its symbols. -/
theorem codeOf_dictBuild_some {s : Symbol} {c : Pbv} (h : codeOf (dictBuild root).2 s = some c) :
    s ∈ root.paths.map Prod.fst ∧ c = Pbv.ofBits (root.codeBits s) := by
  have hs : s ∈ root.paths.map Prod.fst := (codeOf_dictBuild_isSome_iff hn s).mp (by rw [h]; rfl)
  exact ⟨hs, Option.some.inj (h.symm.trans (codeOf_isSome root hn s hs))⟩

/-- The code bits of a symbol of an internal root are the path to one of its leaves (R94). -/
theorem codeBits_mem_paths (hr : root.isLeaf = false) {s : Symbol} (hs : s ∈ root.paths.map Prod.fst) :
    (s, root.codeBits s) ∈ root.paths := by
  obtain ⟨⟨s, q⟩, hq, rfl⟩ := List.mem_map.mp hs
  rwa [codeBits_eq_path root hr hn s q hq]

/-- R96 (b): no code begins another symbol's code. A lone leaf has no other symbol. -/
theorem codeBits_prefix_free {s s' : Symbol} (hs : s ∈ root.paths.map Prod.fst) (hs' : s' ∈ root.paths.map Prod.fst)
    (h : root.codeBits s <+: root.codeBits s') : s = s' := by
  cases root with
  | leaf r c => exact (List.mem_singleton.mp hs).trans (List.mem_singleton.mp hs').symm
  | node c k l r =>
    have he := paths_prefix_free _ _ (codeBits_mem_paths hn rfl hs) _ (codeBits_mem_paths hn rfl hs') h
    exact congrArg Prod.fst he

/-- R96 (c): a lone leaf's code has one bit, a path at least one and at most one per internal node. -/
theorem codeBits_length {s : Symbol} (hs : s ∈ root.paths.map Prod.fst) :
    1 ≤ (root.codeBits s).length ∧ (root.codeBits s).length ≤ max 1 root.internalNodes := by
  cases root with
  | leaf r c =>
    obtain rfl : s = r := List.mem_singleton.mp hs
    rw [codeBits_leaf]
    exact ⟨Nat.le_refl 1, Nat.le_max_left _ _⟩
  | node c k l r =>
    have hp := codeBits_mem_paths hn rfl hs
    exact ⟨List.length_pos_iff.mpr (path_ne_nil _ rfl _ hp), (path_length_le _ _ hp).trans (Nat.le_max_right _ _)⟩

end

/-- Settles O29: the tree's symbols are the table's, and a code is the vector of the tree's code bits. -/
theorem dictionaryIsPrefixFree : Obligations.DictionaryIsPrefixFree := by
  intro f root hf hbuild
  obtain ⟨-, hleaves, -⟩ := treeBuild_some f root hbuild
  have hsyms : (root.paths.map Prod.fst).Perm (f.map FreqEntry.sym) := paths_syms root ▸ hleaves.map FreqEntry.sym
  have hn := hsyms.nodup_iff.mpr hf
  have hnodes : root.internalNodes = f.length - 1 := by
    have := leaves_length root
    have := hleaves.length_eq
    omega
  refine ⟨fun s => (codeOf_dictBuild_isSome_iff hn s).trans hsyms.mem_iff, fun s s' c c' h h' hp => ?_,
    fun s c h => ?_⟩
  · obtain ⟨hs, rfl⟩ := codeOf_dictBuild_some hn h
    obtain ⟨hs', rfl⟩ := codeOf_dictBuild_some hn h'
    rw [Pbv.bits_ofBits, Pbv.bits_ofBits] at hp
    exact codeBits_prefix_free hn hs hs' hp
  · obtain ⟨hs, rfl⟩ := codeOf_dictBuild_some hn h
    rw [Pbv.size_ofBits, ← hnodes]
    exact codeBits_length hn hs

/-! ## DECOMPRESS of the same pairs in another order -/

/-- R102: of the table the decoder looks only at whether it has one entry, and then at its symbol. -/
theorem decodeStream_perm {f g : List FreqEntry} (hfg : f.Perm g) (root : Tree) (b : Pbv) :
    decodeStream f root b = decodeStream g root b := by
  have hlen := hfg.length_eq
  match f, g with
  | [], [] | _ :: _ :: _, _ :: _ :: _ => rfl
  | [e], _ => rw [List.singleton_perm.mp hfg]
  | _, [e] => rw [List.perm_singleton.mp hfg]
  | [], _ :: _ :: _ | _ :: _ :: _, [] => cases hlen

/-- R93: with unique symbols, to put another order of the pairs in `CT` passes through DECOMPRESS. -/
theorem execDecompress_setCt_perm (s : State) {g : List FreqEntry} (hfg : s.ct.freq.Perm g)
    (hn : (s.ct.freq.map FreqEntry.sym).Nodup) :
    execDecompress (s.setCt ⟨g, s.ct.bits⟩) = mapNext (·.setCt ⟨g, s.ct.bits⟩) (execDecompress s) := by
  have hnil : g = [] ↔ s.ct.freq = [] := ⟨fun h => (h ▸ hfg).eq_nil, fun h => (h ▸ hfg).symm.eq_nil⟩
  simp only [execDecompress, State.setCt_ct, State.setCt_caps, ← treeBuild_perm hfg hn, ← decodeStream_perm hfg, hnil,
    apply_ite (mapNext _)]
  refine ite_congr rfl (fun _ => rfl) fun _ => ?_
  cases treeBuild s.ct.freq with
  | none => rfl
  | some root =>
    dsimp only
    cases decodeStream s.ct.freq root s.ct.bits with
    | none => rfl
    | some decoded =>
      simp only [apply_ite (mapNext _)]
      rfl

/-- Settles O36: the outcome is the same but for the list put in `CT` (`execDecompress_setCt_perm`). -/
theorem decompressDoesNotDependOnPairOrder : Obligations.DecompressDoesNotDependOnPairOrder := by
  intro s t g hfg hn h
  exact (execDecompress_setCt_perm s hfg hn).trans (congrArg (mapNext (·.setCt ⟨g, s.ct.bits⟩)) h)

end Sys2Proof.Machine
end

section
/-! PROOFS. The family Codec: what COMPRESS stores, what DECOMPRESS emits, and their round trip
(43_codec.md R99 to R109). -/

namespace Sys2Proof.Machine

/-! ## COMPRESS -/

/-- R100: a payload is made by pushes only, so it has the fewest words. -/
theorem length_words_payloadOf (root : Tree) (l : List Symbol) :
    (payloadOf root l).words.length = max 1 (ceil64 (l.flatMap root.codeBits).length) := by
  have h : (payloadOf root l).words.length = fewestWords (payloadOf root l).size := Pbv.canonical_ofBits _
  rw [h, payloadOf, Pbv.size_ofBits, fewestWords]

/-- Settles O30: the three clauses exclude each other, and each is one of the endings of COMPRESS. -/
theorem compressBuildsTheContainer : Obligations.CompressBuildsTheContainer := by
  refine ⟨decode_encode .compress, fun s => ?_⟩
  rcases execCompress_cases s with ⟨hlong, h⟩ | ⟨hnil, h⟩ | ⟨hfits, hne, root, hroot, hend⟩
  · exact ⟨fun _ => h, fun hnil => absurd hlong (by simp [hnil]), fun hfits => absurd hlong (Nat.not_lt.mpr hfits)⟩
  · exact ⟨fun hlong => absurd hlong (by simp [hnil]), fun _ => h, fun _ hne => absurd hnil hne⟩
  · refine ⟨fun hlong => absurd hlong (Nat.not_lt.mpr hfits), fun hnil => absurd hnil hne,
      fun _ _ => ⟨root, hroot, ?_⟩⟩
    rw [← length_words_payloadOf]
    rcases hend with ⟨hover, h⟩ | ⟨hroom, h⟩
    · exact ⟨fun _ => h, fun hroom => absurd hover (Nat.not_lt.mpr hroom)⟩
    · exact ⟨fun hover => absurd hover (Nat.not_lt.mpr hroom), fun _ => h⟩

/-- R99: the container after a COMPRESS that ends with `ERR` 0. -/
theorem exec_compress_ct {s t : State} (h : exec .compress s = .next t) (herr : t.err = .none) :
    (s.inBuf = [] ∧ t.ct = Container.empty) ∨
    ∃ root, treeBuild (freqCount s.inBuf) = some root ∧ t.ct = ⟨freqCount s.inBuf, payloadOf root s.inBuf⟩ := by
  rcases execCompress_cases s with ⟨-, hx⟩ | ⟨hnil, hx⟩ | ⟨-, -, root, hroot, ⟨-, hx⟩ | ⟨-, hx⟩⟩ <;>
    obtain rfl := Host.Outcome.next.inj (hx.symm.trans h)
  · cases herr
  · exact .inl ⟨hnil, rfl⟩
  · cases herr
  · exact .inr ⟨root, hroot, rfl⟩

/-! ## DECOMPRESS -/

/-- R102: DECOMPRESS of `s` writes the stream `o` to `OUT` when `CAP_OUT` allows its length, and otherwise raises
CapacityExceeded. -/
def DecompressEmits (s : State) (o : List Symbol) : Prop :=
  (allows s.caps.capOut o.length = true → exec .decompress s = .next (s.setOut o).finish) ∧
  (allows s.caps.capOut o.length = false → exec .decompress s = .next (s.raise .capacityExceeded))

/-- R106: with an empty list or payload the end does not depend on `CAP_OUT`. -/
theorem exec_decompress_of_empty {s : State} (h : s.ct.freq = [] ∨ s.ct.bits.size = 0) :
    exec .decompress s = .next (s.setOut []).finish := by
  rcases execDecompress_cases s with ⟨-, hx⟩ | ⟨hfreq, hsize, -⟩
  · exact hx
  · exact absurd h (not_or.mpr ⟨hfreq, hsize⟩)

theorem decompressEmits_nil {s : State} (h : s.ct.freq = [] ∨ s.ct.bits.size = 0) : DecompressEmits s [] :=
  ⟨fun _ => exec_decompress_of_empty h, fun ha => absurd (allows_zero _) (ne_true_of_eq_false ha)⟩

/-- R102: what DECOMPRESS emits is the decoded stream, of an empty payload too, whose stream is empty. -/
theorem decompressEmits_of_decodeStream {s : State} {root : Tree} {o : List Symbol} {last : Walk}
    (hroot : treeBuild s.ct.freq = some root) (ho : decodeStream s.ct.freq root s.ct.bits = some (o, last)) :
    DecompressEmits s o := by
  rcases execDecompress_cases s with ⟨hempty, -⟩ | ⟨-, -, root', o', last', hroot', ho', -, hend⟩
  · obtain ⟨o', last', ho', hlen⟩ := decodeStream_total _ _ hroot s.ct.bits
    obtain rfl : o' = o := congrArg Prod.fst (Option.some.inj (ho'.symm.trans ho))
    have hsize : s.ct.bits.size = 0 := hempty.resolve_left (treeBuild_some _ _ hroot).1
    obtain rfl : o' = [] := List.eq_nil_of_length_eq_zero (Nat.le_zero.mp (hsize ▸ hlen))
    exact decompressEmits_nil hempty
  · obtain rfl : root' = root := Option.some.inj (hroot'.symm.trans hroot)
    obtain rfl : o' = o := congrArg Prod.fst (Option.some.inj (ho'.symm.trans ho))
    rcases hend with ⟨ha, hx⟩ | ⟨ha, hx⟩
    · exact ⟨fun _ => hx, fun hn => absurd ha (ne_true_of_eq_false hn)⟩
    · exact ⟨fun hy => absurd hy (ne_true_of_eq_false ha), fun _ => hx⟩

/-- R102: when DECOMPRESS ends with `ERR` 0, `OUT` is the stream it emits. -/
theorem DecompressEmits.outBuf_eq {s u : State} {o : List Symbol} (ho : DecompressEmits s o)
    (h : exec .decompress s = .next u) (herr : u.err = .none) : u.outBuf = o := by
  cases ha : allows s.caps.capOut o.length with
  | true => rw [← Host.Outcome.next.inj ((ho.1 ha).symm.trans h)]; rfl
  | false =>
    obtain rfl := Host.Outcome.next.inj ((ho.2 ha).symm.trans h)
    cases herr

/-- Settles O31: this is the command's first check. -/
theorem decompressOfAnEmptyPartGivesEmptyOutput : Obligations.DecompressOfAnEmptyPartGivesEmptyOutput :=
  fun s h => exec_decompress_of_empty (h.imp_right s.ct.bits.bits_eq_nil_iff.mp)

/-- Settles O32: the tree of one entry is its leaf, and the decoder repeats the symbol without a walk. -/
theorem decompressRepeatsASingleSymbol : Obligations.DecompressRepeatsASingleSymbol := by
  intro s e hfreq
  have hroot : treeBuild s.ct.freq = some (.leaf e.sym e.count) := by rw [hfreq, treeBuild_single]
  have hemits : DecompressEmits s (singleDecode e.sym s.ct.bits) :=
    decompressEmits_of_decodeStream hroot (last := .atRoot) (by rw [hfreq]; rfl)
  rw [DecompressEmits, singleDecode, List.length_replicate] at hemits
  rw [Pbv.length_bits]
  exact hemits

/-- R104: with two or more entries the decoder walks the tree. -/
theorem decodeStream_of_two_le {f : List FreqEntry} (hf : 2 ≤ f.length) (root : Tree) (b : Pbv) :
    decodeStream f root b = decodeFrom root .atRoot b.bits := by
  match f, hf with
  | _ :: _ :: _, _ => rfl

/-- Settles O33: each whole path emits its symbol (`decodeFrom_stream`), the partial one emits none
(`decodeFrom_partial`). -/
theorem decompressWalksTheTree : Obligations.DecompressWalksTheTree := by
  intro s root codes sym rest more hfreq hroot hcodes hpartial hmore hbits
  obtain ⟨last, hlast⟩ := decodeFrom_stream root (treeBuild_internal _ _ hroot hfreq) codes hcodes rest
    (decodeFrom_partial root sym rest more .atRoot hmore hpartial)
  have hemits : DecompressEmits s (codes.map Prod.fst) :=
    decompressEmits_of_decodeStream hroot (by rw [decodeStream_of_two_le hfreq, hbits, hlast])
  rw [DecompressEmits, List.length_map] at hemits
  exact hemits

/-- Settles O34: a nonempty list has a tree, and its decoded stream has at most one symbol per bit
(`decodeStream_total`). -/
theorem decompressAlwaysEnds : Obligations.DecompressAlwaysEnds := by
  refine ⟨decode_encode .decompress, fun s => ?_⟩
  by_cases hfreq : s.ct.freq = []
  · exact ⟨[], Nat.zero_le _, decompressEmits_nil (.inl hfreq)⟩
  · obtain ⟨root, hroot, -, -⟩ := treeBuild_spec _ hfreq
    obtain ⟨o, last, ho, hlen⟩ := decodeStream_total _ _ hroot s.ct.bits
    exact ⟨o, s.ct.bits.length_bits.symm ▸ hlen, decompressEmits_of_decodeStream hroot ho⟩

/-! ## The round trip -/

/-- R95: copies of a lone leaf's symbol are one bit each. -/
theorem size_payloadOf_leaf (sym : Symbol) (c : BitVec 32) (n : Nat) :
    (payloadOf (.leaf sym c) (List.replicate n sym)).size = n := by
  simp [payloadOf, codeBits_leaf]

/-- R109: the decoder gives back what the encoder was given. One distinct symbol is repeated once per bit; otherwise the
payload is the paths of the input's symbols. -/
theorem decodeStream_payloadOf {l : List Symbol} {root : Tree} (hroot : treeBuild (freqCount l) = some root) :
    ∃ last, decodeStream (freqCount l) root (payloadOf root l) = some (l, last) := by
  obtain ⟨hn, hmem⟩ := freqCount_root l root hroot
  have hpos : 0 < (freqCount l).length := List.length_pos_iff.mpr (treeBuild_some _ _ hroot).1
  by_cases hone : (freqCount l).length = 1
  · obtain ⟨e, he⟩ := List.length_eq_one_iff.mp hone
    rw [he, treeBuild_single] at hroot
    obtain rfl := Option.some.inj hroot
    have hl : l = List.replicate l.length e.sym :=
      List.eq_replicate_of_mem fun s hs => by simpa using (hmem s).mpr hs
    have hsize := size_payloadOf_leaf e.sym e.count l.length
    rw [← hl] at hsize
    exact ⟨.atRoot, by rw [he, decodeStream, singleDecode, hsize, ← hl]⟩
  · have htwo : 2 ≤ (freqCount l).length := by omega
    have hr := treeBuild_internal _ _ hroot htwo
    obtain ⟨last, hlast⟩ := decodeFrom_stream root hr (l.map fun s => (s, root.codeBits s))
      (List.forall_mem_map.mpr fun s hs => codeBits_mem_paths hn hr ((hmem s).mpr hs)) [] ⟨.atRoot, rfl⟩
    refine ⟨last, ?_⟩
    rw [decodeStream_of_two_le htwo, payloadOf, Pbv.bits_ofBits]
    simpa [List.flatMap_map, Function.comp_def] using hlast

/-- Settles O35: the empty container decodes to the empty output, any other by `decodeStream_payloadOf`. -/
theorem compressThenDecompressGivesTheInput : Obligations.CompressThenDecompressGivesTheInput := by
  intro s t u hcompress ht hdecompress hu
  suffices hemits : DecompressEmits t s.inBuf from hemits.outBuf_eq hdecompress hu
  rcases exec_compress_ct hcompress ht with ⟨hnil, hct⟩ | ⟨root, hroot, hct⟩
  · rw [hnil]
    exact decompressEmits_nil (.inl (by rw [hct]; rfl))
  · obtain ⟨last, hlast⟩ := decodeStream_payloadOf hroot
    exact decompressEmits_of_decodeStream (by rw [hct, hroot]) (by rw [hct, hlast])

end Sys2Proof.Machine
end

section
/-! PROOFS. The family Container: SAVE, LOAD and the two predicates, and the round trip through storage
(44_container.md R110 to R120; 30_encoding.md R64). -/

namespace Sys2Proof.Machine

/-! ## The predicates -/

section
variable (c : Container)

theorem bitWord_noPayload : bitWord c.noPayload = if c.bits.size = 0 then 1 else 0 := by
  by_cases h : c.bits.size = 0 <;> simp [Container.noPayload, bitWord, h]

theorem bitWord_not_noPayload : bitWord (!c.noPayload) = if 0 < c.bits.size then 1 else 0 := by
  by_cases h : c.bits.size = 0 <;> simp [Container.noPayload, bitWord, h, Nat.pos_iff_ne_zero]

end

/-- Settles O37: the bit sequence is as long as the vector's size says. -/
theorem isEmptyAndIsFullLookAtThePayload : Obligations.IsEmptyAndIsFullLookAtThePayload := by
  refine ⟨decode_encode .isEmpty, decode_encode .isFull, fun s => ?_⟩
  rw [Pbv.length_bits, ← bitWord_noPayload, ← bitWord_not_noPayload]
  exact ⟨rfl, rfl⟩

/-! ## SAVE -/

/-- Settles O40: the three clauses exclude each other, and each is one of the endings of SAVE. -/
theorem saveWritesOneFile : Obligations.SaveWritesOneFile := by
  refine ⟨decode_encode .save, fun s hwf => ?_⟩
  rcases execSave_cases s with ⟨hlong, h⟩ | ⟨hfits, hok, h⟩ | ⟨hfits, hfails, h⟩
  · exact ⟨fun _ => h, fun hfits => absurd hlong (by simp [hfits]), fun hfits => absurd hlong (by simp [hfits])⟩
  · exact ⟨fun hlong => absurd hlong (by simp [hfits]), fun _ _ => ⟨_, h, setFile_changes_one_path s hwf s.arg0 _⟩,
      fun _ hfails => absurd hfails (by simp [hok])⟩
  · obtain ⟨hpath, hothers⟩ := setFile_changes_one_path s hwf s.arg0 (leftAfterFailure s)
    exact ⟨fun hlong => absurd hlong (by simp [hfits]), fun _ hok => absurd hok (by simp [hfails]),
      fun _ _ => ⟨_, h, fun f hf => allows_clipFile _ _ f (hpath.symm.trans hf), hothers⟩⟩

/-- R114: a SAVE that ends with `ERR` 0 has written the image. -/
theorem eq_of_exec_save {s t : State} (h : exec .save s = .next t) (herr : t.err = .none) :
    t = (s.setFile s.arg0 (some (serialize s.ct))).finish := by
  rcases execSave_cases s with ⟨-, hx⟩ | ⟨-, -, hx⟩ | ⟨-, -, hx⟩ <;>
    obtain rfl := Host.Outcome.next.inj (hx.symm.trans h)
  · cases herr
  · rfl
  · cases herr

/-! ## LOAD -/

theorem exec_load_of_error {s : State} {e : ErrKind} (h : deserialize s.caps (fileAt s.store s.arg0.toNat) = .error e) :
    exec .load s = .next ((s.setCt Container.empty).raise e) := by
  simp [exec, execLoad, State.pathOperand, h]

theorem exec_load_of_ok {s : State} {c : Container} (h : deserialize s.caps (fileAt s.store s.arg0.toNat) = .ok c) :
    exec .load s = .next (s.setCt c).finish := by
  simp [exec, execLoad, State.pathOperand, h]

/-- R115: the container that the header of a file declares. -/
def readContainer (f : File) : Container :=
  ⟨readPairs f (memRead f 0 8), payloadVector (readWords f (memRead f 0 8) (ceil64 (memRead f 8 8))) (memRead f 8 8)⟩

/-- R115: the checks on a file that is there, in the order they are made. -/
theorem deserialize_some (caps : Capacities) (f : File) :
    deserialize caps (some f) =
      if f.length < 16 ∨ f.length < declaredBytes f then .error .truncatedCorrupt
      else if allows caps.capPairs (memRead f 0 8) = false ∨ caps.capWords < max 1 (ceil64 (memRead f 8 8)) then
        .error .capacityExceeded
      else .ok (readContainer f) := by
  rcases deserialize_cases caps (some f) with ⟨hnone, -⟩ | ⟨g, hg, hend⟩
  · cases hnone
  obtain rfl := Option.some.inj hg
  rcases hend with ⟨hshort, h⟩ | ⟨-, hshort, h⟩ | ⟨hlen, hdecl, hover, h⟩ | ⟨hlen, hdecl, hpairs, hwords, h⟩
  · rw [h, if_pos (.inl hshort)]
  · rw [h, if_pos (.inr hshort)]
  · rw [h, if_neg (by omega)]
    exact (if_pos hover).symm
  · rw [h, if_neg (by omega)]
    exact (if_neg (not_or.mpr ⟨ne_false_of_eq_true hpairs, Nat.not_lt.mpr hwords⟩)).symm

/-- Settles O41: each failure is the first check of `deserialize_some` that the file fails. -/
theorem loadFailuresClearTheContainer : Obligations.LoadFailuresClearTheContainer := by
  refine fun s => ⟨fun hnone => exec_load_of_error (by rw [hnone, deserialize]), fun f hf => ⟨fun hshort => ?_, ?_⟩⟩
  · exact exec_load_of_error (by rw [hf, deserialize_some, if_pos hshort])
  · intro hlen hdecl hover
    exact exec_load_of_error (by rw [hf, deserialize_some, if_neg (by omega), if_pos hover])

/-- R60: pair `k` of a file is read from the 5 bytes at offset 16 + 5·k. -/
theorem getElem?_readPairs (f : File) {np k : Nat} (hk : k < np) :
    ∃ e, (readPairs f np)[k]? = some e ∧ e.sym.toNat = memRead f (16 + 5 * k) 1 ∧
      e.count.toNat = memRead f (17 + 5 * k) 4 := by
  refine ⟨_, by rw [readPairs, List.getElem?_map, List.getElem?_range hk, Option.map_some], ?_, ?_⟩
  · exact Nat.mod_eq_of_lt (memRead_lt f _ 1)
  · exact Nat.mod_eq_of_lt (memRead_lt f _ 4)

section
variable (f : File)

theorem size_readContainer_bits : (readContainer f).bits.size = memRead f 8 8 :=
  payloadVector_size _ _ (length_readWords f _ _)

theorem canonical_readContainer_bits : (readContainer f).bits.canonical :=
  payloadVector_canonical _ _ (length_readWords f _ _)

theorem wf_readContainer_bits {cap : Nat} (h : max 1 (ceil64 (memRead f 8 8)) ≤ cap) :
    (readContainer f).bits.wf cap := by
  have hws := length_readWords f (memRead f 0 8) (ceil64 (memRead f 8 8))
  exact (Pbv.wf_iff _ _).mpr ⟨payloadVector_shape _ _ hws, (payloadVector_length _ _ hws).trans_le h⟩

/-- R58: logical bit `i` of the payload, as a bit of the integer its word is stored as. -/
theorem getBit_readContainer {i : Nat} (hi : i < memRead f 8 8) :
    (readContainer f).bits.getBit i =
      (memRead f (16 + 5 * memRead f 0 8 + 8 * (i / 64)) 8).testBit (63 - i % 64) := by
  have hk : i / 64 < ceil64 (memRead f 8 8) := by unfold ceil64; omega
  rw [readContainer, payloadVector_getBit _ _ (length_readWords f _ _), decide_eq_true hi, Bool.true_and,
    List.getD_eq_getElem?_getD, readWords, List.getElem?_map, List.getElem?_range hk, Option.map_some, Option.getD_some,
    BitVec.getLsbD, BitVec.toNat_ofNat, Nat.mod_eq_of_lt]
  · rfl
  · exact memRead_lt f _ 8

/-- R61: the byte of the file that holds logical bit `i` of the payload, and the position there. -/
theorem getBit_readContainer_of_byte {i : Nat} (hi : i < memRead f 8 8) {y : Byte}
    (hy : f[16 + 5 * memRead f 0 8 + 8 * (i / 64) + 7 - i % 64 / 8]? = some y) :
    (readContainer f).bits.getBit i = y.getLsbD (7 - i % 8) := by
  have hbyte : 16 + 5 * memRead f 0 8 + 8 * (i / 64) + (63 - i % 64) / 8 =
      16 + 5 * memRead f 0 8 + 8 * (i / 64) + 7 - i % 64 / 8 := by omega
  have hpos : (63 - i % 64) % 8 = 7 - i % 8 := by omega
  rw [getBit_readContainer f hi, testBit_memRead _ _ _ _ (by omega), hbyte, hpos, hy]

end

/-- Settles O42: a file that passes the checks loads as `readContainer` of it, and the byte of each payload bit stands
before the declared end. -/
theorem loadReadsPairsAndPayload : Obligations.LoadReadsPairsAndPayload := by
  refine ⟨decode_encode .load, fun s f _ hf hlen hdecl hpairs hwords => ?_⟩
  have hload : deserialize s.caps (fileAt s.store s.arg0.toNat) = .ok (readContainer f) := by
    rw [hf, deserialize_some, if_neg (by omega),
      if_neg (not_or.mpr ⟨ne_false_of_eq_true hpairs, Nat.not_lt.mpr hwords⟩)]
  refine ⟨readContainer f, exec_load_of_ok hload, length_readPairs f _, fun k => getElem?_readPairs f,
    wf_readContainer_bits f hwords, canonical_readContainer_bits f,
    (Pbv.length_bits _).trans (size_readContainer_bits f), fun i hi => ?_⟩
  have hrange : 16 + 5 * memRead f 0 8 + 8 * (i / 64) + 7 - i % 64 / 8 < f.length := by
    simp only [declaredBytes, headerBytes, pairBytes, wordBytes, ceil64] at hdecl
    omega
  have hy := List.getElem?_eq_getElem hrange
  exact ⟨_, hy, by rw [Pbv.getElem?_bits, size_readContainer_bits, if_pos hi, getBit_readContainer_of_byte f hi hy]⟩

/-! ## The round trip through storage -/

/-- R119: the image of a state's container reads back as that container. -/
theorem State.DataInv.deserialize_image {s : State} (h : s.DataInv) (hfreq : s.ct.freq.length < 2 ^ 64) :
    deserialize s.caps (some (serialize s.ct)) = .ok s.ct := by
  obtain ⟨-, -, ⟨-, h58⟩, -⟩ := (Capacities.wf_iff s.caps).mp h.caps
  obtain ⟨hshape, hlen⟩ := (Pbv.wf_iff _ _).mp h.ctBits
  exact deserialize_serialize s.caps s.ct hshape h.canonical hlen h58 h.ctFreq hfreq

/-- R119: after a SAVE that ends with `ERR` 0, every state with that storage, path and capacities loads the container
saved. -/
theorem exec_load_of_saved {s t u : State} (h : s.DataInv) (hfreq : s.ct.freq.length < 2 ^ 64)
    (hsave : exec .save s = .next t) (herr : t.err = .none)
    (hstore : u.store = t.store) (hpath : u.arg0 = t.arg0) (hcaps : u.caps = t.caps) :
    exec .load u = .next (u.setCt s.ct).finish := by
  obtain rfl := eq_of_exec_save hsave herr
  have hfile : fileAt u.store u.arg0.toNat = some (serialize s.ct) := by
    rw [hstore, hpath]
    exact (setFile_changes_one_path s h.store s.arg0 (some (serialize s.ct))).1
  refine exec_load_of_ok ?_
  rw [hfile, hcaps]
  exact h.deserialize_image hfreq

/-- Settles O43: the state after SAVE is one that `exec_load_of_saved` speaks of. -/
theorem saveThenLoadGivesTheContainer : Obligations.SaveThenLoadGivesTheContainer :=
  fun _ _ h hfreq hsave herr => ⟨_, exec_load_of_saved h hfreq hsave herr rfl rfl rfl, rfl, rfl⟩

/-- R7, R81: a table COMPRESS makes has at most 256 entries, which `CAP_PAIRS` allows. -/
theorem exec_compress_keeps_dataInv {s t : State} (h : s.DataInv) (hx : exec .compress s = .next t) : t.DataInv := by
  obtain ⟨-, h256, ⟨hword, -⟩, -⟩ := (Capacities.wf_iff s.caps).mp h.caps
  rcases execCompress_cases s with ⟨-, ht⟩ | ⟨-, ht⟩ | ⟨-, -, root, -, ⟨-, ht⟩ | ⟨hroom, ht⟩⟩ <;>
    obtain rfl := Host.Outcome.next.inj (ht.symm.trans hx)
  · exact h.raise _
  · exact (h.setCt _ (Pbv.wf_empty _ hword) Pbv.canonical_empty (allows_zero _)).finish
  · exact h.raise _
  · exact (h.setCt _ ((Pbv.wf_iff _ _).mpr ⟨Pbv.shape_ofBits _, hroom⟩) (Pbv.canonical_ofBits _)
      (allows_mono _ _ _ (freqCount_length_le _) h256)).finish

/-- R62: the number of entries fits the header's u64. -/
theorem exec_compress_freq_lt {s t : State} (h : exec .compress s = .next t) (herr : t.err = .none) :
    t.ct.freq.length < 2 ^ 64 := by
  rcases exec_compress_ct h herr with ⟨-, hct⟩ | ⟨root, -, hct⟩
  · rw [hct]; decide
  · rw [hct]; exact (freqCount_length_le _).trans_lt (by decide)

/-- R109: DECOMPRESS of any state that holds the container COMPRESS made gives the input. -/
theorem outBuf_of_compressed {s a c d : State} (hcompress : exec .compress s = .next a) (ha : a.err = .none)
    (hdecompress : exec .decompress c = .next d) (hd : d.err = .none) (hct : c.ct = a.ct) : d.outBuf = s.inBuf := by
  suffices hemits : DecompressEmits c s.inBuf from hemits.outBuf_eq hdecompress hd
  rcases exec_compress_ct hcompress ha with ⟨hnil, hmade⟩ | ⟨root, hroot, hmade⟩ <;> rw [hmade] at hct
  · rw [hnil]
    exact decompressEmits_nil (.inl (by rw [hct]; rfl))
  · obtain ⟨last, hlast⟩ := decodeStream_payloadOf hroot
    exact decompressEmits_of_decodeStream (by rw [hct, hroot]) (by rw [hct, hlast])

/-- Settles O44: LOAD restores the container COMPRESS made. -/
theorem roundTripThroughStorageGivesTheInput : Obligations.RoundTripThroughStorageGivesTheInput := by
  intro s a b c d h hcompress ha hsave hb hload _ hdecompress hd
  have hsaved := exec_load_of_saved (u := b) (exec_compress_keeps_dataInv h hcompress)
    (exec_compress_freq_lt hcompress ha) hsave hb rfl rfl rfl
  obtain rfl := Host.Outcome.next.inj (hsaved.symm.trans hload)
  exact outBuf_of_compressed hcompress ha hdecompress hd rfl

/-! ## The ROUNDTRIP line -/

/-- R144: `n` steps from `s` lead to `t`, every command among them ending with `ERR` 0. -/
def RunsWell (n : Nat) (s t : State) : Prop :=
  succeedsFor n s = true ∧ Host.Core.run Sys2Proof.core n s = .next t

theorem RunsWell.eq {s t : State} (h : RunsWell 0 s t) : s = t := Host.Outcome.next.inj h.2

theorem core_run_succ_of_step {n : Nat} {s u : State} (h : step s = .next u) :
    Host.Core.run Sys2Proof.core (n + 1) s = Host.Core.run Sys2Proof.core n u := by
  have hcore : Sys2Proof.core.step s = .next u := h
  simp only [Host.Core.run]
  rw [hcore]

/-- R144: the first of the steps ends well, and so do the others. -/
theorem RunsWell.step {n : Nat} {s t : State} (h : RunsWell (n + 1) s t) :
    ∃ u, step s = .next u ∧ (s.issues = true → u.err = .none) ∧ RunsWell n u t := by
  obtain ⟨hok, hrun⟩ := h
  cases hs : Machine.step s with
  | next u =>
    rw [core_run_succ_of_step hs] at hrun
    obtain ⟨hcommand, hrest⟩ : (s.issues = true → u.err = .none) ∧ succeedsFor n u = true := by
      simpa [succeedsFor, hs, imp_iff_not_or] using hok
    exact ⟨u, rfl, hcommand, hrest, hrun⟩
  | fault r => simp [succeedsFor, hs] at hok
  | refused r => simp [succeedsFor, hs] at hok

/-- R27: every command ends idle, the moves still to come untouched. -/
theorem exec_idle_pending {i : Instr} {s t : State} (h : exec i s = .next t) :
    t.seq = .idle ∧ t.pending = s.pending := by
  cases ending_of_exec h <;> exact ⟨rfl, rfl⟩

section
variable {n : Nat} {s t : State} {rest : List HostMove}

/-- R64: the write of an operand, as the first move of a run that goes well. -/
theorem RunsWell.writeArg0 {v : Word} (h : RunsWell (n + 1) s t) (hidle : s.seq = .idle)
    (hp : s.pending = .writeArg0 v :: rest) : RunsWell n { s with pending := rest, arg0 := v } t := by
  obtain ⟨u, hu, -, hrun⟩ := h.step
  obtain rfl := Host.Outcome.next.inj ((step_cons s _ _ hp hidle).symm.trans hu)
  exact hrun

/-- R64: a command, as the first move of a run that goes well. -/
theorem RunsWell.command {i : Instr} (h : RunsWell (n + 1) s t) (hidle : s.seq = .idle)
    (hp : s.pending = .writeCmd (encode i) :: rest) :
    ∃ u, exec i ({ s with pending := rest }.issue (encode i)) = .next u ∧ u.err = .none ∧ u.seq = .idle ∧
      u.pending = rest ∧ RunsWell n u t := by
  obtain ⟨u, hu, herr, hrun⟩ := h.step
  have hexec : exec i ({ s with pending := rest }.issue (encode i)) = .next u :=
    (stepRunsTheDecodedCommand s _ rest i hidle hp (decode_encode i)).symm.trans hu
  obtain ⟨huidle, hupending⟩ := exec_idle_pending hexec
  exact ⟨u, hexec, herr (by simp [State.issues, hp]), huidle, hupending, hrun⟩

end

theorem State.Inv.dataInv {s : State} (h : s.Inv) : s.DataInv :=
  ⟨h.caps, h.bv, h.ctBits, h.canonical, h.ctFreq, h.outBuf, h.store, h.files⟩

/-- The data premises of R143 do not speak of what the host writes to issue a command. -/
theorem State.DataInv.hostWrites {s : State} (h : s.DataInv) (a : Word) (rest : List HostMove) (w : Word32) :
    ({ s with pending := rest, arg0 := a }.issue w).DataInv :=
  ⟨h.caps, h.bv, h.ctBits, h.canonical, h.ctFreq, h.outBuf, h.store, h.files⟩

/-- Settles O57: the line is six moves, and between its commands the host writes the path only. -/
theorem roundtripLineGivesTheInput : Obligations.RoundtripLineGivesTheInput := by
  intro s t p h hp hok hrun
  have hmoves : s.pending = [.writeCmd (encode .compress), .writeArg0 p, .writeCmd (encode .save), .writeArg0 p,
      .writeCmd (encode .load), .writeCmd (encode .decompress)] := hp
  have h6 : RunsWell 6 s t := by rw [hmoves] at hok hrun; exact ⟨hok, hrun⟩
  obtain ⟨a, hcompress, ha, haidle, hapending, h5⟩ := h6.command h.idle hmoves
  obtain ⟨b, hsave, hb, hbidle, hbpending, h3⟩ := (h5.writeArg0 haidle hapending).command haidle rfl
  obtain ⟨c, hload, -, hcidle, hcpending, h1⟩ := (h3.writeArg0 hbidle hbpending).command hbidle rfl
  obtain ⟨d, hdecompress, hd, -, -, h0⟩ := h1.command hcidle hcpending
  obtain rfl := h0.eq
  have hinv : a.DataInv := exec_compress_keeps_dataInv (h.dataInv.hostWrites s.arg0 _ _) hcompress
  have hfreq : a.ct.freq.length < 2 ^ 64 := exec_compress_freq_lt hcompress ha
  obtain ⟨-, hpath, -⟩ := exec_keeps_hostRegs hsave
  have hsaved := exec_load_of_saved (hinv.hostWrites p _ _) hfreq hsave hb
    (u := { b with pending := [.writeCmd (encode .decompress)], arg0 := p }.issue (encode .load)) rfl hpath.symm rfl
  obtain rfl := Host.Outcome.next.inj (hsaved.symm.trans hload)
  have hout := outBuf_of_compressed hcompress ha hdecompress hd rfl
  exact ⟨hout, hd⟩

end Sys2Proof.Machine
end

section
/-! PROOFS. The family Exceptions: the kinds a command ends with, what an error leaves unchanged, and the stops of a step
(60_exceptions.md R122 to R130, R137). -/

namespace Sys2Proof.Machine

/-! ## Earlier errors -/

/-- Settles O50: a command reads neither `ERR` nor the call-scoped state, and each of its endings overwrites both. -/
theorem earlierErrorsAndCallStateDoNotMatter : Obligations.EarlierErrorsAndCallStateDoNotMatter := by
  intro i s e c
  cases i <;> rfl

/-! ## The error matrix -/

/-- R122: every command may succeed. -/
@[simp] theorem mayEndWith_none (i : Instr) : mayEndWith i .none = true := by
  cases i <;> rfl

section
variable {e : ErrKind}

theorem withinWords_error {cap : Nat} {v : Pbv} (h : withinWords cap v = .error e) : e = .capacityExceeded := by
  rcases withinWords_cases cap v with ⟨-, hr⟩ | ⟨-, hr⟩ <;> cases hr.symm.trans h
  rfl

theorem pbvPop_error {v : Pbv} (h : pbvPop v = .error e) : e = .underflow := by
  rcases pbvPop_cases v with ⟨-, hr⟩ | ⟨-, hr⟩ <;> cases hr.symm.trans h
  rfl

theorem pbvAt_map_error {v : Pbv} {k : Nat} {f : Bool → Word} (h : (pbvAt v k).map f = .error e) :
    e = .indexOutOfRange := by
  rcases pbvAt_cases v k with ⟨-, hr⟩ | ⟨-, hr⟩ <;> rw [hr] at h <;> cases h
  rfl

theorem pbvSet_error {v : Pbv} {k : Nat} {b : Bool} (h : pbvSet v k b = .error e) : e = .indexOutOfRange := by
  rcases pbvSet_cases v k b with ⟨-, hr⟩ | ⟨-, hr⟩ <;> cases hr.symm.trans h
  rfl

theorem pbvResize_error {cap : Nat} {v : Pbv} {n : Nat} (h : pbvResize cap v n = .error e) :
    e = .capacityExceeded := by
  rcases pbvResize_cases cap v n with ⟨-, hr⟩ | ⟨-, hr⟩ <;> cases hr.symm.trans h
  rfl

theorem pbvWord_error {v : Pbv} {k : Nat} (h : pbvWord v k = .error e) : e = .indexOutOfRange := by
  rcases pbvWord_cases v k with ⟨-, hr⟩ | ⟨-, hr⟩ <;> cases hr.symm.trans h
  rfl

/-- R115: the kinds of a failed read are those of LOAD's row. -/
theorem deserialize_error {caps : Capacities} {file : Option File} (h : deserialize caps file = .error e) :
    mayEndWith .load e = true := by
  rcases deserialize_cases caps file with
    ⟨-, hr⟩ | ⟨f, -, ⟨-, hr⟩ | ⟨-, -, hr⟩ | ⟨-, -, -, hr⟩ | ⟨-, -, -, -, hr⟩⟩ <;> cases hr.symm.trans h <;> rfl

end

section
variable {i : Instr} {s t : State} {e : ErrKind}

/-- R66: a command whose function fails with one kind only ends with that kind or none. -/
theorem endWithVector_mayEndWith {r : Except ErrKind Pbv} (hr : ∀ {e'}, r = .error e' → e' = e)
    (hi : mayEndWith i e = true) (h : endWithVector s r = .next t) : mayEndWith i t.err = true := by
  rcases endWithVector_cases s r with ⟨v, -, ht⟩ | ⟨e', he, ht⟩ <;> obtain rfl := Host.Outcome.next.inj (ht.symm.trans h)
  · exact mayEndWith_none i
  · exact hr he ▸ hi

theorem endWithResult_mayEndWith {r : Except ErrKind Word} (hr : ∀ {e'}, r = .error e' → e' = e)
    (hi : mayEndWith i e = true) (h : endWithResult s r = .next t) : mayEndWith i t.err = true := by
  rcases endWithResult_cases s r with ⟨x, -, ht⟩ | ⟨e', he, ht⟩ <;> obtain rfl := Host.Outcome.next.inj (ht.symm.trans h)
  · exact mayEndWith_none i
  · exact hr he ▸ hi

theorem execPbvPushBits_mayEndWith (h : execPbvPushBits s = .next t) : mayEndWith .pbvPushBits t.err = true := by
  rw [execPbvPushBits_eq] at h
  split at h
  · obtain rfl := Host.Outcome.next.inj h; rfl
  · exact endWithVector_mayEndWith withinWords_error rfl h

theorem execPbvPushVec_mayEndWith (h : execPbvPushVec s = .next t) : mayEndWith .pbvPushVec t.err = true := by
  rw [execPbvPushVec_eq] at h
  split at h <;> obtain rfl := Host.Outcome.next.inj h <;> rfl

theorem execCompress_mayEndWith (h : execCompress s = .next t) : mayEndWith .compress t.err = true := by
  rcases execCompress_cases s with ⟨-, ht⟩ | ⟨-, ht⟩ | ⟨-, -, root, -, ⟨-, ht⟩ | ⟨-, ht⟩⟩ <;>
    obtain rfl := Host.Outcome.next.inj (ht.symm.trans h) <;> rfl

theorem execDecompress_mayEndWith (h : execDecompress s = .next t) : mayEndWith .decompress t.err = true := by
  rcases execDecompress_cases s with ⟨-, ht⟩ | ⟨-, -, root, o, last, -, -, -, ⟨-, ht⟩ | ⟨-, ht⟩⟩ <;>
    obtain rfl := Host.Outcome.next.inj (ht.symm.trans h) <;> rfl

theorem execSave_mayEndWith (h : execSave s = .next t) : mayEndWith .save t.err = true := by
  rcases execSave_cases s with ⟨-, ht⟩ | ⟨-, -, ht⟩ | ⟨-, -, ht⟩ <;>
    obtain rfl := Host.Outcome.next.inj (ht.symm.trans h) <;> rfl

theorem execLoad_mayEndWith (h : execLoad s = .next t) : mayEndWith .load t.err = true := by
  rcases execLoad_cases s with ⟨e, he, ht⟩ | ⟨c, -, ht⟩ <;> obtain rfl := Host.Outcome.next.inj (ht.symm.trans h)
  · exact deserialize_error he
  · rfl

end

/-- Settles O46, command by command: each function it calls fails with the kinds of its row only. -/
theorem commandsRaiseOnlyTheirOwnKinds : Obligations.CommandsRaiseOnlyTheirOwnKinds := by
  intro i s t h
  cases i
  case compress => exact execCompress_mayEndWith h
  case decompress => exact execDecompress_mayEndWith h
  case save => exact execSave_mayEndWith h
  case load => exact execLoad_mayEndWith h
  case isEmpty | isFull | pbvClear | pbvSize | pbvPopcount => obtain rfl := Host.Outcome.next.inj h; rfl
  case pbvPushBit => exact endWithVector_mayEndWith withinWords_error rfl h
  case pbvPushBits => exact execPbvPushBits_mayEndWith h
  case pbvPushVec => exact execPbvPushVec_mayEndWith h
  case pbvPop => exact endWithVector_mayEndWith pbvPop_error rfl h
  case pbvGet | pbvAt => exact endWithResult_mayEndWith pbvAt_map_error rfl h
  case pbvSet => exact endWithVector_mayEndWith pbvSet_error rfl h
  case pbvResize => exact endWithVector_mayEndWith pbvResize_error rfl h
  case pbvWord => exact endWithResult_mayEndWith pbvWord_error rfl h

/-! ## The state after an error -/

/-- R117: a failed LOAD leaves the container empty. -/
theorem exec_load_ct_of_error {s t : State} (h : exec .load s = .next t) (herr : t.err ≠ .none) :
    t.ct = Container.empty := by
  rcases execLoad_cases s with ⟨e, -, ht⟩ | ⟨c, -, ht⟩ <;> obtain rfl := Host.Outcome.next.inj (ht.symm.trans h)
  · rfl
  · exact absurd rfl herr

/-- R25: after an error `STATUS.FAULT` is 1. -/
theorem status_fault_of_err {s : State} (herr : s.err ≠ .none) : s.status.getLsbD 1 = true := by
  simp [getLsbD_status, State.faultFlag, herr]

/-- Settles O47: of the endings of a command only three are errors. A plain failure leaves `CT` as it was, which after
LOAD is the empty container (`exec_load_ct_of_error`). -/
theorem errorsLeaveTheStateAlone : Obligations.ErrorsLeaveTheStateAlone := by
  intro i s t h herr
  have hstatus := status_fault_of_err herr
  have hload : i = .load → t.ct = Container.empty := fun hi => exec_load_ct_of_error (hi ▸ h) herr
  cases ending_of_exec h with
  | failure i e =>
    have hct : if i = .load then s.ct = Container.empty else s.ct = s.ct := by
      split_ifs with hi
      · exact hload hi
      · rfl
    exact ⟨rfl, rfl, rfl, rfl, rfl, rfl, rfl, rfl, hstatus, hct, fun _ => rfl, fun _ _ _ => rfl⟩
  | loadFailure e => exact ⟨rfl, rfl, rfl, rfl, rfl, rfl, rfl, rfl, hstatus, rfl, fun _ => rfl, fun _ _ _ => rfl⟩
  | saveFailure o n =>
    exact ⟨rfl, rfl, rfl, rfl, rfl, rfl, rfl, rfl, hstatus, rfl, fun hw => absurd rfl hw,
      fun hwf => (setFile_changes_one_path s hwf s.arg0 o).2⟩
  | result | vector | container | output | saved => exact absurd rfl herr

/-! ## The stops of a step -/

/-- R137, R148: the duty the host breaks with its next move, for each fault. -/
def BreaksDuty (s : State) : Fault → Prop
  | .moveWhileRunning => s.seq = .run ∧ s.pending ≠ []
  | .noSuchInElement => s.seq = .idle ∧ ∃ i v rest, s.pending = .writeInAt i v :: rest ∧ s.inBuf.length ≤ i
  | .fileTooLong =>
    s.seq = .idle ∧ ∃ p f rest, s.pending = .putFile p f :: rest ∧ allows s.caps.capFile f.length = false

/-- R145: a word written to `CMD` never stops the block. -/
theorem writeCommand_ends (s : State) (w : Word32) : ∃ t, writeCommand s w = .next t := by
  rcases writeCommand_cases s w with ⟨i, -, hw⟩ | ⟨e, -, hw⟩
  · obtain ⟨t, ht, -⟩ := exec_ends (s.issue w) i
    exact ⟨t, hw.trans ht⟩
  · exact ⟨_, hw⟩

theorem hostMove_writeInAt_fault (s : State) {k : Nat} (hk : s.inBuf.length ≤ k) (v : Symbol) :
    hostMove s (.writeInAt k v) = .fault .noSuchInElement :=
  if_neg (Nat.not_lt.mpr hk)

theorem hostMove_putFile_fault (s : State) (p : Path) {f : File} (hf : allows s.caps.capFile f.length = false) :
    hostMove s (.putFile p f) = .fault .fileTooLong :=
  if_neg (ne_true_of_eq_false hf)

theorem step_eq_fault_of_breaksDuty {s : State} {r : Fault} (h : BreaksDuty s r) : step s = .fault r := by
  cases r with
  | moveWhileRunning =>
    obtain ⟨hrun, hp⟩ := h
    obtain ⟨m, rest, hp⟩ := List.exists_cons_of_ne_nil hp
    exact step_cons_run s m rest hp hrun
  | noSuchInElement =>
    obtain ⟨hidle, k, v, rest, hp, hk⟩ := h
    exact (step_cons s _ rest hp hidle).trans (hostMove_writeInAt_fault { s with pending := rest } hk v)
  | fileTooLong =>
    obtain ⟨hidle, p, f, rest, hp, hf⟩ := h
    exact (step_cons s _ rest hp hidle).trans (hostMove_putFile_fault { s with pending := rest } p hf)

/-- R34, R137: a move of an idle block's host takes effect, or breaks one of the two duties on what it writes. -/
theorem hostMove_next_or_breaksDuty {s : State} (hidle : s.seq = .idle) {m : HostMove} {rest : List HostMove}
    (hp : s.pending = m :: rest) :
    (∃ t, hostMove { s with pending := rest } m = .next t) ∨ ∃ r, BreaksDuty s r := by
  cases m with
  | writeCmd w => exact .inl (writeCommand_ends _ w)
  | writeInAt k v =>
    by_cases hk : k < s.inBuf.length
    · exact .inl ⟨_, hostMove_writeInAt { s with pending := rest } hk v⟩
    · exact .inr ⟨.noSuchInElement, hidle, k, v, rest, hp, Nat.not_lt.mp hk⟩
  | putFile p f =>
    cases hf : allows s.caps.capFile f.length with
    | true => exact .inl ⟨_, hostMove_putFile { s with pending := rest } p hf⟩
    | false => exact .inr ⟨.fileTooLong, hidle, p, f, rest, hp, hf⟩
  | writeStatus | writeErr | writeArg0 | writeArg1 | writeRes | writeIn | writeOut | writeCt | writeBv | read
  | removeFile | drawWrOk | reset => exact .inl ⟨_, rfl⟩

/-- R137: what a step can answer. -/
theorem step_next_or_fault (s : State) : (∃ t, step s = .next t) ∨ ∃ r, BreaksDuty s r ∧ step s = .fault r := by
  suffices h : (∃ t, step s = .next t) ∨ ∃ r, BreaksDuty s r from
    h.imp_right fun ⟨r, hr⟩ => ⟨r, hr, step_eq_fault_of_breaksDuty hr⟩
  cases hp : s.pending with
  | nil => exact .inl ⟨s, by simp [step, nextMove, hp]⟩
  | cons m rest =>
    cases hseq : s.seq with
    | run => exact .inr ⟨.moveWhileRunning, hseq, by simp [hp]⟩
    | idle =>
      rw [step_cons s m rest hp hseq]
      exact hostMove_next_or_breaksDuty hseq hp

theorem step_eq_fault_iff (s : State) (r : Fault) : step s = .fault r ↔ BreaksDuty s r := by
  refine ⟨fun h => ?_, step_eq_fault_of_breaksDuty⟩
  rcases step_next_or_fault s with ⟨t, ht⟩ | ⟨r', hr', hs⟩
  · cases ht.symm.trans h
  · cases hs.symm.trans h
    exact hr'

/-- Settles O53: a step answers a state or the fault of a broken duty, and the three duties are those of `BreaksDuty`. -/
theorem stepsStopOnlyOnABrokenHostDuty : Obligations.StepsStopOnlyOnABrokenHostDuty := by
  refine fun s => ⟨fun r h => ?_, step_eq_fault_iff s _, step_eq_fault_iff s _, step_eq_fault_iff s _⟩
  rcases step_next_or_fault s with ⟨t, ht⟩ | ⟨r', -, hs⟩
  · cases ht.symm.trans h
  · cases hs.symm.trans h

end Sys2Proof.Machine
end

section
/-! PROOFS. The family ResetAndHazards: the reset signal, the premises every step keeps, the end of every command and of
every run, and the two forms of one bit sequence (70_reset_and_hazards.md R141 to R150). -/

namespace Sys2Proof.Machine

/-! ## The data premises under the commands -/

section
variable {s t : State}

/-- The counter of failed writes is the model's own (assumption 4), and no premise speaks of it. -/
theorem State.DataInv.setFailedWrites (h : s.DataInv) (n : Nat) : { s with failedWrites := n }.DataInv :=
  ⟨h.caps, h.bv, h.ctBits, h.canonical, h.ctFreq, h.outBuf, h.store, h.files⟩

theorem endWithResult_keeps_dataInv (h : s.DataInv) {r : Except ErrKind Word} (hx : endWithResult s r = .next t) :
    t.DataInv := by
  rcases endWithResult_cases s r with ⟨x, -, ht⟩ | ⟨e, -, ht⟩ <;> obtain rfl := Host.Outcome.next.inj (ht.symm.trans hx)
  · exact (h.setRes x).finish
  · exact h.raise e

/-- R66: the wrapper asks of the function only that its vector is well formed. -/
theorem endWithVector_keeps_dataInv (h : s.DataInv) {r : Except ErrKind Pbv}
    (hr : ∀ v, r = .ok v → v.wf s.caps.capWords) (hx : endWithVector s r = .next t) : t.DataInv := by
  rcases endWithVector_cases s r with ⟨v, hv, ht⟩ | ⟨e, -, ht⟩ <;>
    obtain rfl := Host.Outcome.next.inj (ht.symm.trans hx)
  · exact (h.setBv v (hr v hv)).finish
  · exact h.raise e

theorem withinWords_wf {cap : Nat} {u v : Pbv} (hu : u.Shape) (h : withinWords cap u = .ok v) : v.wf cap := by
  rcases withinWords_cases cap u with ⟨hfits, hok⟩ | ⟨-, he⟩
  · obtain rfl := Except.ok.inj (hok.symm.trans h)
    exact (Pbv.wf_iff _ _).mpr ⟨hu, hfits⟩
  · cases he.symm.trans h

theorem execPbvPushBits_keeps_dataInv (h : s.DataInv) (hx : execPbvPushBits s = .next t) : t.DataInv := by
  rw [execPbvPushBits_eq] at hx
  split at hx
  next =>
    obtain rfl := Host.Outcome.next.inj hx
    exact h.raise _
  next hn =>
    exact endWithVector_keeps_dataInv h (fun _ => withinWords_wf (h.bv.shape.pushBits _ _ (by omega))) hx

/-- R71: the capacity is checked on the words the result has. -/
theorem execPbvPushVec_keeps_dataInv (h : s.DataInv) (hx : execPbvPushVec s = .next t) : t.DataInv := by
  rw [execPbvPushVec_eq] at hx
  split at hx <;> obtain rfl := Host.Outcome.next.inj hx
  next => exact h.raise _
  next hfits =>
    have hlen := pbvPushVec_length s.bv s.ct.bits h.bv.shape h.ctBits.shape
    exact (h.setBv _ ((Pbv.wf_iff _ _).mpr
      ⟨h.bv.shape.pushVec h.ctBits.shape, hlen.trans_le (Nat.not_lt.mp hfits)⟩)).finish

theorem execDecompress_keeps_dataInv (h : s.DataInv) (hx : execDecompress s = .next t) : t.DataInv := by
  rcases execDecompress_cases s with ⟨-, ht⟩ | ⟨-, -, root, o, last, -, -, -, ⟨hroom, ht⟩ | ⟨-, ht⟩⟩ <;>
    obtain rfl := Host.Outcome.next.inj (ht.symm.trans hx)
  · exact (h.setOut [] (allows_zero _)).finish
  · exact (h.setOut o hroom).finish
  · exact h.raise _

/-- R23, R114: the image is checked against `CAP_FILE`, and so is what a failed write leaves. -/
theorem execSave_keeps_dataInv (h : s.DataInv) (hx : execSave s = .next t) : t.DataInv := by
  rcases execSave_cases s with ⟨-, ht⟩ | ⟨hfits, -, ht⟩ | ⟨-, -, ht⟩ <;>
    obtain rfl := Host.Outcome.next.inj (ht.symm.trans hx)
  · exact h.raise _
  · exact (h.setFile _ _ fun f hf => Option.some.inj hf ▸ hfits).finish
  · exact ((h.setFile _ _ (allows_clipFile _ _)).setFailedWrites _).raise _

/-- R115: the checks on a file bound the container it is read as. -/
theorem deserialize_ok {caps : Capacities} {file : Option File} {c : Container} (h : deserialize caps file = .ok c) :
    c.bits.wf caps.capWords ∧ c.bits.canonical ∧ allows caps.capPairs c.freq.length = true := by
  cases file with
  | none => cases h
  | some f =>
    rw [deserialize_some] at h
    split_ifs at h with hshort hover
    obtain rfl := Except.ok.inj h
    obtain ⟨hpairs, hwords⟩ := not_or.mp hover
    refine ⟨wf_readContainer_bits f (Nat.not_lt.mp hwords), canonical_readContainer_bits f, ?_⟩
    rw [readContainer, length_readPairs]
    exact eq_true_of_ne_false hpairs

/-- R117: the container a failed LOAD leaves is the empty one, which meets the premises too. -/
theorem execLoad_keeps_dataInv (h : s.DataInv) (hx : execLoad s = .next t) : t.DataInv := by
  obtain ⟨-, -, ⟨hword, -⟩, -⟩ := (Capacities.wf_iff s.caps).mp h.caps
  rcases execLoad_cases s with ⟨e, -, ht⟩ | ⟨c, hc, ht⟩ <;> obtain rfl := Host.Outcome.next.inj (ht.symm.trans hx)
  · exact (h.setCt _ (Pbv.wf_empty _ hword) Pbv.canonical_empty (allows_zero _)).raise e
  · obtain ⟨hwf, hcanonical, hpairs⟩ := deserialize_ok hc
    exact (h.setCt c hwf hcanonical hpairs).finish

/-- R143: every command keeps the data premises. -/
theorem exec_keeps_dataInv {i : Instr} (h : s.DataInv) (hx : exec i s = .next t) : t.DataInv := by
  obtain ⟨-, -, ⟨hword, -⟩, -⟩ := (Capacities.wf_iff s.caps).mp h.caps
  cases i
  case compress => exact exec_compress_keeps_dataInv h hx
  case decompress => exact execDecompress_keeps_dataInv h hx
  case save => exact execSave_keeps_dataInv h hx
  case load => exact execLoad_keeps_dataInv h hx
  case isEmpty | isFull | pbvSize | pbvPopcount =>
    obtain rfl := Host.Outcome.next.inj hx
    exact (h.setRes _).finish
  case pbvGet | pbvAt | pbvWord => exact endWithResult_keeps_dataInv h hx
  case pbvClear => exact endWithVector_keeps_dataInv h (fun v hv => Except.ok.inj hv ▸ Pbv.wf_empty _ hword) hx
  case pbvPushBit => exact endWithVector_keeps_dataInv h (fun _ => withinWords_wf (h.bv.shape.pushBit _)) hx
  case pbvPushBits => exact execPbvPushBits_keeps_dataInv h hx
  case pbvPushVec => exact execPbvPushVec_keeps_dataInv h hx
  case pbvPop => exact endWithVector_keeps_dataInv h (fun _ => pbvPop_wf h.bv) hx
  case pbvSet => exact endWithVector_keeps_dataInv h (fun _ => pbvSet_wf h.bv) hx
  case pbvResize => exact endWithVector_keeps_dataInv h (fun _ => pbvResize_wf) hx

end

/-! ## The end of a command -/

/-- R27, R31: each way to end leaves the block idle and discards the call-scoped state. -/
theorem Ending.idle_noCall {s t : State} {i : Instr} (h : Ending s i t) : t.seq = .idle ∧ t.call = none := by
  cases h <;> exact ⟨rfl, rfl⟩

/-- Settles O45: every command reaches one of its endings (`exec_ends`). -/
theorem everyCommandEnds : Obligations.EveryCommandEnds := by
  intro i s
  obtain ⟨t, ht, hend⟩ := exec_ends s i
  exact ⟨t, ht, hend.idle_noCall⟩

/-! ## The premises of R143 under the moves of the host -/

namespace State.Inv

variable {s t : State}

/-- R143: the data premises are all of them once a command has ended. -/
theorem of_dataInv (h : s.DataInv) (hidle : s.seq = .idle) (hcall : s.call = none) : s.Inv :=
  ⟨hidle, hcall, h.caps, h.bv, h.ctBits, h.canonical, h.ctFreq, h.outBuf, h.store, h.files⟩

/-- No premise speaks of what the host and the platform write freely. -/
theorem hostFields (h : s.Inv) (v : List Symbol) (a b : Word) (ok : Bool) (moves : List HostMove) :
    { s with inBuf := v, arg0 := a, arg1 := b, wrOk := ok, pending := moves }.Inv :=
  ⟨h.idle, h.noCall, h.caps, h.bv, h.ctBits, h.canonical, h.ctFreq, h.outBuf, h.store, h.files⟩

theorem setFile (h : s.Inv) (p : Path) (o : Option File)
    (ho : ∀ f, o = some f → allows s.caps.capFile f.length = true) : (s.setFile p o).Inv :=
  of_dataInv (h.dataInv.setFile p o ho) h.idle h.noCall

/-- R141: of what the reset signal leaves, the premises ask only what it asked of the capacities and of `STORE`. -/
theorem applyReset (hcaps : s.caps.wf = true) (hstore : Memory.wf s.store)
    (hfiles : ∀ e ∈ s.store, allows s.caps.capFile e.2.length = true) : s.applyReset.Inv := by
  obtain ⟨-, -, ⟨hword, -⟩, -⟩ := (Capacities.wf_iff s.caps).mp hcaps
  have hempty : Pbv.empty.wf s.caps.capWords := Pbv.wf_empty _ hword
  exact ⟨rfl, rfl, hcaps, hempty, hempty, Pbv.canonical_empty, allows_zero _, allows_zero _, hstore, hfiles⟩

/-- R145: a command, or an illegal word, ends under the premises. -/
theorem writeCommand (h : s.Inv) {w : Word32} (hx : Machine.writeCommand s w = .next t) : t.Inv := by
  rcases writeCommand_cases s w with ⟨i, -, hw⟩ | ⟨e, -, hw⟩
  · have hexec : exec i (s.issue w) = .next t := hw.symm.trans hx
    obtain ⟨hidle, hcall⟩ := (ending_of_exec hexec).idle_noCall
    exact of_dataInv (exec_keeps_dataInv (h.dataInv.issue w) hexec) hidle hcall
  · obtain rfl := Host.Outcome.next.inj (hw.symm.trans hx)
    exact of_dataInv ((h.dataInv.issue w).raise _) rfl rfl

/-- R143: a move of the host that takes effect keeps the premises. -/
theorem hostMove (h : s.Inv) {m : HostMove} (hx : Machine.hostMove s m = .next t) : t.Inv := by
  cases m with
  | writeCmd w => exact h.writeCommand hx
  | writeStatus | writeErr | writeRes | writeOut | writeCt | writeBv | read =>
    exact Host.Outcome.next.inj hx ▸ h
  | writeArg0 | writeArg1 | writeIn | drawWrOk => exact Host.Outcome.next.inj hx ▸ h.hostFields _ _ _ _ _
  | writeInAt k v =>
    by_cases hk : k < s.inBuf.length
    · obtain rfl := Host.Outcome.next.inj ((hostMove_writeInAt s hk v).symm.trans hx)
      exact h.hostFields _ _ _ _ _
    · cases (hostMove_writeInAt_fault s (Nat.not_lt.mp hk) v).symm.trans hx
  | putFile p f =>
    cases hf : allows s.caps.capFile f.length with
    | true =>
      obtain rfl := Host.Outcome.next.inj ((hostMove_putFile s p hf).symm.trans hx)
      exact h.setFile p _ fun g hg => Option.some.inj hg ▸ hf
    | false => cases (hostMove_putFile_fault s p hf).symm.trans hx
  | removeFile p => exact Host.Outcome.next.inj hx ▸ h.setFile p none fun _ hf => nomatch hf
  | reset => exact Host.Outcome.next.inj hx ▸ applyReset h.caps h.store h.files

end State.Inv

/-! ## The step -/

/-- R144: an idle block without a move to come stays as it is. -/
theorem step_nil {s : State} (h : s.pending = []) : step s = .next s := by
  simp [step, nextMove, h]

/-- Settles O54: there is no move for the step to take. -/
theorem idleBlockStaysAsItIs : Obligations.IdleBlockStaysAsItIs := fun _ => step_nil

/-- Settles O52: with no move the state is the same; a move is one of `State.Inv.hostMove`. -/
theorem everyStepKeepsThePremises : Obligations.EveryStepKeepsThePremises := by
  intro s t h hx
  cases hp : s.pending with
  | nil => exact Host.Outcome.next.inj ((step_nil hp).symm.trans hx) ▸ h
  | cons m rest =>
    have hrest : { s with pending := rest }.Inv := h.hostFields _ _ _ _ _
    exact hrest.hostMove ((step_cons s m rest hp h.idle).symm.trans hx)

/-! ## The reset -/

/-- Settles O8: the move is the reset signal, whose state is written out. -/
theorem resetSignalAssignsEveryRow : Obligations.ResetSignalAssignsEveryRow :=
  fun s _ hidle hp => step_cons s _ _ hp hidle

/-- Settles O51: the reset state is what the reset signal makes of itself; its capacities are in range and its `STORE`
is empty. -/
theorem resetStateMeetsThePremises : Obligations.ResetStateMeetsThePremises :=
  State.Inv.applyReset (s := State.reset) (by decide) ⟨.nil, nofun⟩ nofun

/-! ## Runs of host writes -/

/-- R145: the host's writes that no duty restricts (R137): command words, operands and the whole input. -/
def IsFreeWrite (m : HostMove) : Prop :=
  (∃ w, m = .writeCmd w) ∨ (∃ v, m = .writeArg0 v) ∨ (∃ v, m = .writeArg1 v) ∨ ∃ v, m = .writeIn v

theorem writeCommand_pending {s t : State} {w : Word32} (h : writeCommand s w = .next t) : t.pending = s.pending := by
  rcases writeCommand_cases s w with ⟨i, -, hw⟩ | ⟨e, -, hw⟩
  · exact (exec_idle_pending (hw.symm.trans h)).2
  · obtain rfl := Host.Outcome.next.inj (hw.symm.trans h)
    rfl

/-- R145: such a write takes effect and uses up no move but itself. -/
theorem hostMove_of_isFreeWrite {m : HostMove} (hm : IsFreeWrite m) (s : State) :
    ∃ t, hostMove s m = .next t ∧ t.pending = s.pending := by
  rcases hm with ⟨w, rfl⟩ | ⟨v, rfl⟩ | ⟨v, rfl⟩ | ⟨v, rfl⟩
  · obtain ⟨t, ht⟩ := writeCommand_ends s w
    exact ⟨t, ht, writeCommand_pending ht⟩
  all_goals exact ⟨_, rfl, rfl⟩

theorem core_run_of_isFreeWrite (moves : List HostMove) (hm : ∀ m ∈ moves, IsFreeWrite m) (s : State) (h : s.Inv)
    (hp : s.pending = moves) :
    ∃ t, Host.Core.run Sys2Proof.core moves.length s = .next t ∧ t.pending = [] ∧ t.Inv := by
  induction moves generalizing s with
  | nil => exact ⟨s, rfl, hp, h⟩
  | cons m rest ih =>
    obtain ⟨hfirst, hrest⟩ := List.forall_mem_cons.mp hm
    obtain ⟨u, hu, hpending⟩ := hostMove_of_isFreeWrite hfirst { s with pending := rest }
    have hstep : step s = .next u := (step_cons s m rest hp h.idle).trans hu
    obtain ⟨t, hrun, ht⟩ := ih hrest u (everyStepKeepsThePremises s u h hstep) hpending
    exact ⟨t, (core_run_succ_of_step hstep).trans hrun, ht⟩

/-- Settles O55, by induction on the pending moves: each step takes one and keeps the premises. -/
theorem hostWritesAllRunToTheirEnd : Obligations.HostWritesAllRunToTheirEnd :=
  fun s h hm => core_run_of_isFreeWrite s.pending hm s h rfl

end Sys2Proof.Machine
end

section
/-! PROOFS. The two forms of one bit sequence (70_reset_and_hazards.md R150; 10_state.md R21). -/

namespace Sys2Proof.Machine

/-! ## What the vector functions make of a bit sequence

Each equation has the bits alone on its right, so none of these functions tells two forms of one sequence
apart. -/

section
variable (v : Pbv)

theorem pbvAt_eq_of_bits (k : Nat) : pbvAt v k = (v.bits[k]?).elim (.error .indexOutOfRange) .ok := by
  rw [Pbv.getElem?_bits]
  rcases pbvAt_cases v k with ⟨hout, he⟩ | ⟨hin, hok⟩
  · rw [he, if_neg (Nat.not_lt.mpr hout)]; rfl
  · rw [hok, if_pos hin]; rfl

theorem pbvSet_map_bits (k : Nat) (b : Bool) :
    (pbvSet v k b).map Pbv.bits = if v.bits.length ≤ k then .error .indexOutOfRange else .ok (v.bits.set k b) := by
  rw [Pbv.length_bits]
  rcases pbvSet_cases v k b with ⟨hout, he⟩ | ⟨hin, hok⟩
  · rw [he, if_pos hout]; rfl
  · rw [hok, if_neg (Nat.not_le.mpr hin), ← pbvSet_bits v k b hin]; rfl

variable {v} (hv : v.Shape)
include hv

theorem pbvPop_map_bits :
    (pbvPop v).map Pbv.bits = if v.bits = [] then .error .underflow else .ok v.bits.dropLast := by
  rw [ite_cond_congr (propext v.bits_eq_nil_iff)]
  rcases pbvPop_cases v with ⟨hzero, he⟩ | ⟨hpos, hok⟩
  · rw [he, if_pos hzero]; rfl
  · rw [hok, if_neg hpos, ← pbvPopBit_bits v hv hpos]; rfl

theorem pbvResize_map_bits (cap n : Nat) :
    (pbvResize cap v n).map Pbv.bits =
      if cap < fewestWords n then .error .capacityExceeded
      else .ok (v.bits.take n ++ List.replicate (n - v.bits.length) false) := by
  rw [pbvResize_eq, apply_ite (Except.map Pbv.bits), ← resized_bits v n hv]
  rfl

end

/-! ## The pushes

They take an empty last word and a full one to the same vector, as soon as a bit is pushed. -/

theorem pbvPushBits_eq_of_bits_eq {u v : Pbv} (hu : u.Shape) (hv : v.Shape) (hb : u.bits = v.bits) (x : Word) {n : Nat}
    (h1 : 1 ≤ n) (h64 : n ≤ 64) : pbvPushBits u x n = pbvPushBits v x n := by
  have hsize : u.size = v.size := by rw [← Pbv.length_bits, hb, Pbv.length_bits]
  refine (hu.pushBits x n h64).ext (hv.pushBits x n h64) ?_ ?_
  · rw [pbvPushBits_length, pbvPushBits_length]
    rcases hu.length_cases hv hsize with hl | ⟨hl, hfu, hfv⟩ | ⟨hl, hfv, hfu⟩
    · have hf : u.freeBits = v.freeBits := congrArg Pbv.freeBits (hu.ext hv hl hb)
      rw [hl, hf]
    · rw [hl, hfu, hfv, if_neg (Nat.not_lt.mpr h64), if_pos (Nat.lt_of_succ_le h1)]
    · rw [hl, hfu, hfv, if_neg (Nat.not_lt.mpr h64), if_pos (Nat.lt_of_succ_le h1)]
  · rw [pbvPushBits_bits u x n hu h64, pbvPushBits_bits v x n hv h64, hb]

theorem pbvPushBit_eq_of_bits_eq {u v : Pbv} (hu : u.Shape) (hv : v.Shape) (hb : u.bits = v.bits) (b : Bool) :
    pbvPushBit u b = pbvPushBit v b := by
  rw [pbvPushBit_eq_pushBits u b hu, pbvPushBit_eq_pushBits v b hv]
  exact pbvPushBits_eq_of_bits_eq hu hv hb _ (Nat.le_refl 1) (by decide)

/-- R71: for a vector within capacity the words of the result are counted by its bits. -/
theorem pushVec_over_iff {v : Pbv} {cap : Nat} (hv : v.wf cap) (o : Pbv) :
    cap < max v.words.length (ceil64 (v.size + o.size)) ↔ cap < ceil64 (v.bits.length + o.size) := by
  have hlen : v.words.length ≤ cap := ((Pbv.wf_iff _ _).mp hv).2
  rw [Pbv.length_bits]
  omega

/-! ## The commands -/

/-- The second run ends as the first does, but for the form `BV` is in. -/
def SameButForm (r r' : Result) : Prop :=
  ∀ t, r = .next t → ∃ w, r' = .next (t.setBv w) ∧ w.bits = t.bv.bits

theorem sameButForm_next {t : State} {w : Pbv} (h : w.bits = t.bv.bits) :
    SameButForm (.next t) (.next (t.setBv w)) := by
  rintro _ ⟨⟩
  exact ⟨w, rfl, h⟩

section
variable {s : State} {w : Pbv}

/-- R66: the function may see the form, but answers both with the same bits or the same error. -/
theorem endWithVector_sameButForm (hw : w.bits = s.bv.bits) {r r' : Except ErrKind Pbv}
    (h : r'.map Pbv.bits = r.map Pbv.bits) : SameButForm (endWithVector s r) (endWithVector (s.setBv w) r') := by
  cases r with
  | error e =>
    cases r' with
    | error e' =>
      obtain rfl : e' = e := Except.error.inj h
      exact sameButForm_next (t := s.raise e') hw
    | ok v' => cases h
  | ok v =>
    cases r' with
    | error e' => cases h
    | ok v' => exact sameButForm_next (t := (s.setBv v).finish) (Except.ok.inj h)

theorem endWithResult_sameButForm (hw : w.bits = s.bv.bits) {r r' : Except ErrKind Word} (h : r' = r) :
    SameButForm (endWithResult s r) (endWithResult (s.setBv w) r') := by
  subst h
  cases r' with
  | error e => exact sameButForm_next (t := s.raise e) hw
  | ok x => exact sameButForm_next (t := (s.setRes x).finish) hw

theorem execPbvPushBits_sameButForm (hs : s.bv.Shape) (hshape : w.Shape) (hw : w.bits = s.bv.bits) :
    SameButForm (execPbvPushBits s) (execPbvPushBits (s.setBv w)) := by
  by_cases hn : s.arg1.toNat = 0 ∨ 64 < s.arg1.toNat
  · rw [execPbvPushBits_eq s, if_pos hn, execPbvPushBits_eq (s.setBv w), if_pos (by exact hn)]
    exact sameButForm_next (t := s.raise .illegalCommand) hw
  · rw [execPbvPushBits_eq s, if_neg hn, execPbvPushBits_eq (s.setBv w), if_neg (by exact hn)]
    have hpush := pbvPushBits_eq_of_bits_eq hshape hs hw s.arg0 (n := s.arg1.toNat) (by omega) (by omega)
    exact endWithVector_sameButForm hw (congrArg (fun u => (withinWords s.caps.capWords u).map Pbv.bits) hpush)

theorem execPbvPushVec_sameButForm (hs : s.bv.wf s.caps.capWords) (hwf : w.wf s.caps.capWords)
    (hct : s.ct.bits.Shape) (hw : w.bits = s.bv.bits) :
    SameButForm (execPbvPushVec s) (execPbvPushVec (s.setBv w)) := by
  have hiff : s.caps.capWords < max w.words.length (ceil64 (w.size + s.ct.bits.size)) ↔
      s.caps.capWords < max s.bv.words.length (ceil64 (s.bv.size + s.ct.bits.size)) := by
    rw [pushVec_over_iff hwf, pushVec_over_iff hs, hw]
  have hbits : (pbvPushVec w s.ct.bits).bits = (pbvPushVec s.bv s.ct.bits).bits := by
    rw [pbvPushVec_bits w _ hwf.shape hct, pbvPushVec_bits s.bv _ hs.shape hct, hw]
  by_cases hover : s.caps.capWords < max s.bv.words.length (ceil64 (s.bv.size + s.ct.bits.size))
  · rw [execPbvPushVec_eq s, if_pos hover, execPbvPushVec_eq (s.setBv w), if_pos (by exact hiff.mpr hover)]
    exact sameButForm_next (t := s.raise .capacityExceeded) hw
  · rw [execPbvPushVec_eq s, if_neg hover, execPbvPushVec_eq (s.setBv w), if_neg (by exact mt hiff.mp hover)]
    exact sameButForm_next (t := (s.setBv (pbvPushVec s.bv s.ct.bits)).finish) hbits

end

/-! ## The commands that do not read `BV` -/

section
variable (s : State) (w : Pbv)

theorem execCompress_setBv : execCompress (s.setBv w) = mapNext (·.setBv w) (execCompress s) := by
  simp only [execCompress, State.setBv_inBuf, State.setBv_caps, apply_ite (mapNext _)]
  refine ite_congr rfl (fun _ => rfl) fun _ => ite_congr rfl (fun _ => rfl) fun _ => ?_
  cases treeBuild (freqCount s.inBuf) with
  | none => rfl
  | some root =>
    dsimp only
    cases encodeStream (dictBuild root).2 s.inBuf with
    | none => rfl
    | some payload =>
      dsimp only
      cases withinWords s.caps.capWords payload <;> rfl

theorem execDecompress_setBv : execDecompress (s.setBv w) = mapNext (·.setBv w) (execDecompress s) := by
  simp only [execDecompress, State.setBv_ct, State.setBv_caps, apply_ite (mapNext _)]
  refine ite_congr rfl (fun _ => rfl) fun _ => ?_
  cases treeBuild s.ct.freq with
  | none => rfl
  | some root =>
    dsimp only
    cases decodeStream s.ct.freq root s.ct.bits with
    | none => rfl
    | some decoded =>
      simp only [apply_ite (mapNext _)]
      rfl

theorem execSave_setBv : execSave (s.setBv w) = mapNext (·.setBv w) (execSave s) := by
  simp only [execSave, apply_ite (mapNext _)]
  rfl

theorem execLoad_setBv : execLoad (s.setBv w) = mapNext (·.setBv w) (execLoad s) := by
  simp only [execLoad, State.pathOperand, State.setBv_caps, State.setBv_store, State.setBv_arg0]
  cases deserialize s.caps (fileAt s.store s.arg0.toNat) <;> rfl

end

theorem exec_keeps_bv {i : Instr} {s t : State} (hi : ¬ ChangesBv i) (h : exec i s = .next t) : t.bv = s.bv := by
  cases ending_of_exec h with
  | vector i v hv => exact absurd hv hi
  | failure | result | container | output | loadFailure | saved | saveFailure => rfl

/-! ## Every command but PBV_WORD -/

section
variable {s : State} {w : Pbv}

theorem sameButForm_of_setBv {i : Instr} (hi : ¬ ChangesBv i) (hw : w.bits = s.bv.bits)
    (h : exec i (s.setBv w) = mapNext (·.setBv w) (exec i s)) : SameButForm (exec i s) (exec i (s.setBv w)) := by
  intro t ht
  exact ⟨w, by rw [h, ht, mapNext_next], by rw [exec_keeps_bv hi ht, hw]⟩

/-- R150: what a command reads of `BV`, PBV_WORD apart, is its bits, or is forgotten by the push that reads it. -/
theorem exec_sameButForm {i : Instr} (hi : i ≠ .pbvWord) (hs : s.bv.wf s.caps.capWords) (hwf : w.wf s.caps.capWords)
    (hct : s.ct.bits.wf s.caps.capWords) (hw : w.bits = s.bv.bits) :
    SameButForm (exec i s) (exec i (s.setBv w)) := by
  have hshape := hwf.shape
  cases i
  case compress => exact sameButForm_of_setBv (by simp [ChangesBv]) hw (execCompress_setBv s w)
  case decompress => exact sameButForm_of_setBv (by simp [ChangesBv]) hw (execDecompress_setBv s w)
  case save => exact sameButForm_of_setBv (by simp [ChangesBv]) hw (execSave_setBv s w)
  case load => exact sameButForm_of_setBv (by simp [ChangesBv]) hw (execLoad_setBv s w)
  case isEmpty | isFull => exact sameButForm_of_setBv (by simp [ChangesBv]) hw rfl
  case pbvClear => exact endWithVector_sameButForm (r := .ok Pbv.empty) hw rfl
  case pbvSize =>
    have hsize : w.size = s.bv.size := by rw [← Pbv.length_bits, hw, Pbv.length_bits]
    exact endWithResult_sameButForm hw (congrArg (fun n => .ok (natWord n)) hsize)
  case pbvPushBit =>
    have hpush := pbvPushBit_eq_of_bits_eq hshape hs.shape hw s.bitOperand
    exact endWithVector_sameButForm hw (congrArg (fun u => (withinWords s.caps.capWords u).map Pbv.bits) hpush)
  case pbvPushBits => exact execPbvPushBits_sameButForm hs.shape hshape hw
  case pbvPushVec => exact execPbvPushVec_sameButForm hs hwf hct.shape hw
  case pbvPop => exact endWithVector_sameButForm hw (by
    rw [State.setBv_bv, pbvPop_map_bits hshape, pbvPop_map_bits hs.shape, hw])
  case pbvGet | pbvAt =>
    have hbit : pbvAt w s.indexOperand = pbvAt s.bv s.indexOperand := by
      rw [pbvAt_eq_of_bits, pbvAt_eq_of_bits, hw]
    exact endWithResult_sameButForm hw (congrArg (Except.map bitWord) hbit)
  case pbvSet => exact endWithVector_sameButForm hw (by
    rw [State.setBv_bv, pbvSet_map_bits, pbvSet_map_bits, hw]; rfl)
  case pbvResize => exact endWithVector_sameButForm hw (by
    rw [State.setBv_bv, pbvResize_map_bits hshape, pbvResize_map_bits hs.shape, hw]; rfl)
  case pbvPopcount =>
    have hones : pbvPopcount w = pbvPopcount s.bv := by
      rw [pbvPopcount_eq_count w hshape, pbvPopcount_eq_count s.bv hs.shape, hw]
    exact endWithResult_sameButForm hw (congrArg (fun n => .ok (natWord n)) hones)
  case pbvWord => exact absurd rfl hi

end

/-- Settles O24: of any two forms (`exec_sameButForm`). -/
theorem twoFormsOfBvGiveTheSameResults : Obligations.TwoFormsOfBvGiveTheSameResults :=
  fun _ _ _ t hi hs hwf hct hw hx => exec_sameButForm hi hs hwf hct hw t hx

end Sys2Proof.Machine
end
